-- ==== Sys2Proof/Word.lean ====
section
/-! DEFINITION. The word types of the Wheelwriter protocol engine (spec/00_scope.md R9, spec/30_encoding.md R60, R70).
All values are unsigned (R9, R15). -/

namespace Sys2Proof

/-- An 8-bit payload: an opcode operand, a data value, a character (R9, R70). -/
abbrev Byte := BitVec 8

/-- A 9-bit channel word (R60): marker bit 8, payload bits 7:0. -/
abbrev Word9 := BitVec 9

/-- A 7-bit bus address (R4). -/
abbrev BusAddr := BitVec 7

/-- A 7-bit printwheel position (R29, R40). -/
abbrev Pos := BitVec 7

/-- A 36-bit host request word (R70). -/
abbrev Req := BitVec 36

/-- The marker bit `w[8]` of a channel word (R9, R60). -/
def Word9.marker (w : Word9) : Bool := w.getLsbD 8

/-- The payload `w[7:0]` of a channel word (R9, R60). -/
def Word9.payload (w : Word9) : Byte := w.setWidth 8

end Sys2Proof
end

