-- ==== Sys2Proof/Syntax.lean ====
section
/-! DEFINITION. The instructions: one constructor for each of the 29 rows of spec/opcode_table.json. -/

namespace Sys2Proof

/-- The two host operations that read the opcode operand OPC (R71). A row of invalid opcode operands (R95, R96)
belongs to both. -/
inductive OpcUser where
  | send
  | waitrdy
  deriving DecidableEq, Repr

/-- One constructor per row of the opcode table.

The first nine are host requests (R70 to R72). The next fifteen are the wire commands: SEND with that value of its opcode
operand and SEND's own operands (spec/40_wire_commands.md, R80 to R94). The last five are the rows of opcode operands that
are never transmitted (R95, R96). -/
inductive Instr where
  | send (addr : BusAddr) (opc d1 d2 : Byte) (ign : Bool)
  | waitrdy (opc : Byte)
  | rdcmd (blk : Bool)
  | rdkey (blk : Bool)
  | flushrx
  | setkbd (layout : Bool)
  | a2p (ascii : Byte)
  | p2a (pos : Byte)
  | reservedHop (hop : BitVec 4)
  | opc00 (addr : BusAddr) (d1 d2 : Byte) (ign : Bool)
  | opc01 (addr : BusAddr) (d1 d2 : Byte) (ign : Bool)
  | opc02 (addr : BusAddr) (d1 d2 : Byte) (ign : Bool)
  | opc03 (addr : BusAddr) (d1 d2 : Byte) (ign : Bool)
  | opc04 (addr : BusAddr) (d1 d2 : Byte) (ign : Bool)
  | opc05 (addr : BusAddr) (d1 d2 : Byte) (ign : Bool)
  | opc06 (addr : BusAddr) (d1 d2 : Byte) (ign : Bool)
  | opc07 (addr : BusAddr) (d1 d2 : Byte) (ign : Bool)
  | opc08 (addr : BusAddr) (d1 d2 : Byte) (ign : Bool)
  | opc09 (addr : BusAddr) (d1 d2 : Byte) (ign : Bool)
  | opc0a (addr : BusAddr) (d1 d2 : Byte) (ign : Bool)
  | queryStatus (addr : BusAddr) (d1 d2 : Byte) (ign : Bool)
  | opc0c (addr : BusAddr) (d1 d2 : Byte) (ign : Bool)
  | opc0d (addr : BusAddr) (d1 d2 : Byte) (ign : Bool)
  | opc0e (addr : BusAddr) (d1 d2 : Byte) (ign : Bool)
  | invalidOpc0f (user : OpcUser)
  | invalidOpc10_1f (user : OpcUser) (opc : Byte)
  | invalidOpc20_3f (user : OpcUser) (opc : Byte)
  | invalidOpc40_7f (user : OpcUser) (opc : Byte)
  | invalidOpc80_ff (user : OpcUser) (opc : Byte)
  deriving DecidableEq, Repr

/-- The two encoding layers of spec/30_encoding.md: a host request read by its HOP field, or a request read one level
deeper, by its wire opcode operand. -/
inductive Level where
  | request
  | command
  deriving DecidableEq, Repr

/-- The layer an instruction belongs to: the first nine rows are requests, the rest are selected by an opcode operand.
-/
def Instr.level : Instr → Level
  | .send _ _ _ _ _ | .waitrdy _ | .rdcmd _ | .rdkey _ | .flushrx | .setkbd _ | .a2p _ | .p2a _ | .reservedHop _ => .request
  | .opc00 _ _ _ _ | .opc01 _ _ _ _ | .opc02 _ _ _ _ | .opc03 _ _ _ _ | .opc04 _ _ _ _ | .opc05 _ _ _ _ | .opc06 _ _ _ _
  | .opc07 _ _ _ _ | .opc08 _ _ _ _ | .opc09 _ _ _ _ | .opc0a _ _ _ _ | .queryStatus _ _ _ _ | .opc0c _ _ _ _
  | .opc0d _ _ _ _ | .opc0e _ _ _ _ | .invalidOpc0f _ | .invalidOpc10_1f _ _ | .invalidOpc20_3f _ _
  | .invalidOpc40_7f _ _ | .invalidOpc80_ff _ _ => .command

end Sys2Proof
end

