-- ==== Sys2Proof/WellFormed.lean ====
section
/-! DEFINITION. Well-formed instructions: operands that the types leave too wide lie in their row's range. Every other
operand has exactly the width spec/30_encoding.md R70 gives it, so every value of it is legal. -/

namespace Sys2Proof

/-- An operand named by a row of spec/opcode_table.json matches that row's match and mask (R72, R96). -/
def Instr.wf : Instr → Bool
  | .send _ _ _ _ _ | .waitrdy _ | .rdcmd _ | .rdkey _ | .flushrx | .setkbd _ | .a2p _ | .p2a _ => true
  | .reservedHop hop => hop &&& 0x8 == 0x8
  | .opc00 _ _ _ _ | .opc01 _ _ _ _ | .opc02 _ _ _ _ | .opc03 _ _ _ _ | .opc04 _ _ _ _ | .opc05 _ _ _ _ | .opc06 _ _ _ _
  | .opc07 _ _ _ _ | .opc08 _ _ _ _ | .opc09 _ _ _ _ | .opc0a _ _ _ _ | .queryStatus _ _ _ _ | .opc0c _ _ _ _
  | .opc0d _ _ _ _ | .opc0e _ _ _ _ => true
  | .invalidOpc0f _ => true
  | .invalidOpc10_1f _ opc => opc &&& 0xF0 == 0x10
  | .invalidOpc20_3f _ opc => opc &&& 0xE0 == 0x20
  | .invalidOpc40_7f _ opc => opc &&& 0xC0 == 0x40
  | .invalidOpc80_ff _ opc => opc &&& 0x80 == 0x80

end Sys2Proof
end

