-- ==== Sys2Proof/Decode.lean ====
section
/-! DEFINITION. Decoding and encoding (spec/30_encoding.md): channel words and frames (Part 1), the request word REQ
(Part 2), and the rows of spec/opcode_table.json. -/

namespace Sys2Proof

/-! ### Part 1: channel words and frames -/

/-- The address word `0x100 | zext_9(a)` (R61). -/
def addrWord (a : BusAddr) : Word9 := 0x100 ||| a.setWidth 9

/-- The opcode word `zext_9(o)` (R62). -/
def opcWord (o : Byte) : Word9 := o.setWidth 9

/-- The data word `zext_9(d)` (R65). -/
def dataWord (d : Byte) : Word9 := d.setWidth 9

/-- An opcode operand or payload is valid: `o ≤ 0x0E`, tested on all 8 bits (R63, R96). -/
def validOpcode (o : Byte) : Bool := o ≤ 0x0E

/-- The frame-length table, 16 entries indexed by opcode (R64). It counts the opcode word and the data words, not the
address word (spec/90_conflicts.md C1). -/
def lenTable : List Nat := [1, 1, 3, 3, 3, 2, 3, 1, 1, 2, 2, 1, 3, 2, 2, 0]

/-- `LEN[o]` (R64). The engine looks it up for valid opcodes only (R15). -/
def frameLen (o : Byte) : Nat := lenTable.getD o.toNat 0

/-- The frame `FRAME(a, o, d1, d2)` of a valid opcode (R66): the address word, then LEN words. -/
def frame (a : BusAddr) (o d1 d2 : Byte) : List Word9 :=
  [addrWord a, opcWord o, dataWord d1, dataWord d2].take (frameLen o + 1)

/-! ### Part 2: the request word -/

/-- Field HOP, bits 3:0 (R70). -/
def reqHop (r : Req) : BitVec 4 := r.extractLsb' 0 4

/-- Field ADDR, bits 10:4 (R70). -/
def reqAddr (r : Req) : BusAddr := r.extractLsb' 4 7

/-- Field OPC, bits 18:11 (R70). -/
def reqOpc (r : Req) : Byte := r.extractLsb' 11 8

/-- Field D1, bits 26:19 (R70). -/
def reqD1 (r : Req) : Byte := r.extractLsb' 19 8

/-- Field D2, bits 34:27 (R70). -/
def reqD2 (r : Req) : Byte := r.extractLsb' 27 8

/-- Field F, bit 35 (R70). -/
def reqF (r : Req) : Bool := r.getLsbD 35

/-- The request word with the given fields: from bit 35 down, F D2 D1 OPC ADDR HOP (R70). -/
def packReq (hop : BitVec 4) (addr : BusAddr) (opc d1 d2 : Byte) (f : Bool) : Req :=
  BitVec.ofBool f ++ d2 ++ d1 ++ opc ++ addr ++ hop

/-- The request a REQ word makes, by its HOP field (R71, R72). Fields the operation does not read are dropped (R72). -/
def decodeReq (r : Req) : Instr :=
  match (reqHop r).toNat with
  | 0 => .send (reqAddr r) (reqOpc r) (reqD1 r) (reqD2 r) (reqF r)
  | 1 => .waitrdy (reqOpc r)
  | 2 => .rdcmd (reqF r)
  | 3 => .rdkey (reqF r)
  | 4 => .flushrx
  | 5 => .setkbd (reqF r)
  | 6 => .a2p (reqD1 r)
  | 7 => .p2a (reqD1 r)
  | _ => .reservedHop (reqHop r)

/-- Why a word is no instruction of a layer. -/
inductive DecodeError where
  /-- The request carries no opcode operand of spec/40_wire_commands.md: it is neither a SEND nor a WAITRDY with an invalid
  opcode. -/
  | noWireCommand (r : Req)
  /-- The channel word is no opcode word (R62, R63). -/
  | notAnOpcodeWord (w : Nat)
  /-- The number does not fit in a word of the format. -/
  | tooWide (w : Nat)
  deriving DecidableEq, Repr

/-- The row of an invalid opcode operand, by the rows' match and mask (R95, R96). -/
def invalidOpcode (u : OpcUser) (o : Byte) : Instr :=
  if o &&& 0x80 = 0x80 then .invalidOpc80_ff u o
  else if o &&& 0xC0 = 0x40 then .invalidOpc40_7f u o
  else if o &&& 0xE0 = 0x20 then .invalidOpc20_3f u o
  else if o &&& 0xF0 = 0x10 then .invalidOpc10_1f u o
  else .invalidOpc0f u

/-- The row that SEND's opcode operand selects (spec/40_wire_commands.md). -/
def wireCommand (a : BusAddr) (o d1 d2 : Byte) (ign : Bool) : Instr :=
  match o.toNat with
  | 0x0 => .opc00 a d1 d2 ign
  | 0x1 => .opc01 a d1 d2 ign
  | 0x2 => .opc02 a d1 d2 ign
  | 0x3 => .opc03 a d1 d2 ign
  | 0x4 => .opc04 a d1 d2 ign
  | 0x5 => .opc05 a d1 d2 ign
  | 0x6 => .opc06 a d1 d2 ign
  | 0x7 => .opc07 a d1 d2 ign
  | 0x8 => .opc08 a d1 d2 ign
  | 0x9 => .opc09 a d1 d2 ign
  | 0xA => .opc0a a d1 d2 ign
  | 0xB => .queryStatus a d1 d2 ign
  | 0xC => .opc0c a d1 d2 ign
  | 0xD => .opc0d a d1 d2 ign
  | 0xE => .opc0e a d1 d2 ign
  | _ => invalidOpcode .send o

/-- A request read one layer deeper, by its wire opcode operand: every SEND, and a WAITRDY whose operand is invalid
(R95, R96, R101). -/
def decodeCommand (r : Req) : Except DecodeError Instr :=
  match decodeReq r with
  | .send a o d1 d2 ign => .ok (wireCommand a o d1 d2 ign)
  | .waitrdy o => if validOpcode o then .error (.noWireCommand r) else .ok (invalidOpcode .waitrdy o)
  | _ => .error (.noWireCommand r)

/-- The instruction a request word stands for, at the given layer. -/
def decodeAt : Level → Req → Except DecodeError Instr
  | .request, r => .ok (decodeReq r)
  | .command, r => decodeCommand r

/-- The HOP code of the operation an opcode operand belongs to (R71). -/
def OpcUser.hop : OpcUser → BitVec 4
  | .send => 0
  | .waitrdy => 1

/-- The request word of an instruction (R70, R71). A wire command is the SEND that carries its opcode, and an invalid
opcode operand the SEND or WAITRDY that carries it. Fields the operation does not read are 0 (R72). -/
def encode : Instr → Req
  | .send a o d1 d2 ign => packReq 0x0 a o d1 d2 ign
  | .waitrdy o => packReq 0x1 0 o 0 0 false
  | .rdcmd blk => packReq 0x2 0 0 0 0 blk
  | .rdkey blk => packReq 0x3 0 0 0 0 blk
  | .flushrx => packReq 0x4 0 0 0 0 false
  | .setkbd layout => packReq 0x5 0 0 0 0 layout
  | .a2p c => packReq 0x6 0 0 c 0 false
  | .p2a p => packReq 0x7 0 0 p 0 false
  | .reservedHop hop => packReq hop 0 0 0 0 false
  | .opc00 a d1 d2 ign => packReq 0x0 a 0x00 d1 d2 ign
  | .opc01 a d1 d2 ign => packReq 0x0 a 0x01 d1 d2 ign
  | .opc02 a d1 d2 ign => packReq 0x0 a 0x02 d1 d2 ign
  | .opc03 a d1 d2 ign => packReq 0x0 a 0x03 d1 d2 ign
  | .opc04 a d1 d2 ign => packReq 0x0 a 0x04 d1 d2 ign
  | .opc05 a d1 d2 ign => packReq 0x0 a 0x05 d1 d2 ign
  | .opc06 a d1 d2 ign => packReq 0x0 a 0x06 d1 d2 ign
  | .opc07 a d1 d2 ign => packReq 0x0 a 0x07 d1 d2 ign
  | .opc08 a d1 d2 ign => packReq 0x0 a 0x08 d1 d2 ign
  | .opc09 a d1 d2 ign => packReq 0x0 a 0x09 d1 d2 ign
  | .opc0a a d1 d2 ign => packReq 0x0 a 0x0A d1 d2 ign
  | .queryStatus a d1 d2 ign => packReq 0x0 a 0x0B d1 d2 ign
  | .opc0c a d1 d2 ign => packReq 0x0 a 0x0C d1 d2 ign
  | .opc0d a d1 d2 ign => packReq 0x0 a 0x0D d1 d2 ign
  | .opc0e a d1 d2 ign => packReq 0x0 a 0x0E d1 d2 ign
  | .invalidOpc0f u => packReq u.hop 0 0x0F 0 0 false
  | .invalidOpc10_1f u o => packReq u.hop 0 o 0 0 false
  | .invalidOpc20_3f u o => packReq u.hop 0 o 0 0 false
  | .invalidOpc40_7f u o => packReq u.hop 0 o 0 0 false
  | .invalidOpc80_ff u o => packReq u.hop 0 o 0 0 false

/-! ### The rows of the opcode table -/

/-- The request whose opcode operand is `o` and whose other fields are 0: the SEND through which a row of wire words
or of opcode operands comes to run. -/
def opcodeRequest (o : Nat) : Req := packReq 0x0 0 (BitVec.ofNat 8 o) 0 0 false

/-- The request that carries a row's word, and the layer the row belongs to. The table overlays three formats (DESIGN
CHOICE, notes/assumptions/14.md; safe): up to 8 bits, a value below 0x0F is a request's lowest byte and any other an
opcode operand (OPC8); 9 to 16 bits are a channel word (OW9); more are a whole request (REQ36). -/
def tableRequest (nbits w : Nat) : Except DecodeError (Level × Req) :=
  if nbits ≤ 8 then
    if w < 0x0F then .ok (.request, BitVec.ofNat 36 w)
    else if w < 0x100 then .ok (.command, opcodeRequest w)
    else .error (.tooWide w)
  else if nbits ≤ 16 then
    if w ≤ 0x0E then .ok (.command, opcodeRequest w) else .error (.notAnOpcodeWord w)
  else if w < 0x1000000000 then .ok (.request, BitVec.ofNat 36 w)
  else .error (.tooWide w)

/-- The instruction of a row's word, numbered as the table numbers it. -/
def decodeTable (nbits w : Nat) : Except DecodeError Instr :=
  match tableRequest nbits w with
  | .ok (l, r) => decodeAt l r
  | .error e => .error e

/-- The instruction the decoder reads from a row's word, if it reads one. -/
def decodeTableWord (nbits w : Nat) : Option Instr := (decodeTable nbits w).toOption

end Sys2Proof
end

