-- ==== Sys2Proof/Config.lean ====
section
/-! DEFINITION. The open parameters P1 to P4 (spec/00_scope.md R4 to R7, spec/92_eei_decisions.md). They are fixed for
the life of the machine and are not state (R36). -/

namespace Sys2Proof

/-- One of the two data words of a frame (R6). -/
inductive DataField where
  | d1
  | d2
  deriving DecidableEq, Repr, Inhabited

/-- The field exists in a frame of length `n`: D1 needs a length of at least 2, D2 a length of 3 (R6). -/
def DataField.existsAt (n : Nat) : DataField → Bool
  | .d1 => 2 ≤ n
  | .d2 => 3 ≤ n

/-- The keypress map KP, parameter P3 (R6). -/
structure KeypressMap where
  opcType : BitVec 4 := 0x3
  charField : DataField := .d1
  opcPlaten : BitVec 4 := 0x5
  platenUpField : DataField := .d1
  platenUpMask : Byte := 0x80
  opcCarriage : BitVec 4 := 0x6
  carDirField : DataField := .d1
  carDirMask : Byte := 0x80
  carRightWhenSet : Bool := true
  deriving DecidableEq, Repr

/-- The constraints of R6: the opcodes are pairwise distinct and at most 0x0E, the masks are not zero, and each field
exists at its opcode's length. -/
def KeypressMap.ok (kp : KeypressMap) : Bool :=
  kp.opcType ≤ 0xE && kp.opcPlaten ≤ 0xE && kp.opcCarriage ≤ 0xE
    && kp.opcType != kp.opcPlaten && kp.opcType != kp.opcCarriage && kp.opcPlaten != kp.opcCarriage
    && kp.platenUpMask != 0 && kp.carDirMask != 0
    && kp.charField.existsAt (frameLen (kp.opcType.setWidth 8))
    && kp.platenUpField.existsAt (frameLen (kp.opcPlaten.setWidth 8))
    && kp.carDirField.existsAt (frameLen (kp.opcCarriage.setWidth 8))

/-- The translation ROM, parameter P4 (R7, R40): two forward tables of 256 entries and a reverse table of 97. The
index types are the index ranges of R40. -/
structure Rom where
  fwdUs : Byte → Pos := fun _ => 0
  fwdAscii : Byte → Pos := fun _ => 0
  rev : Fin 97 → Byte := fun _ => 0

/-- The characters at which the two forward tables may differ: "punctuation" (R7 (c)). PRESUMED
(notes/assumptions/10.md; unsafe): the ASCII punctuation characters and every code from 0x80 up. -/
def isPunctuation (c : Byte) : Bool :=
  (0x21 ≤ c && c ≤ 0x2F) || (0x3A ≤ c && c ≤ 0x40) || (0x5B ≤ c && c ≤ 0x60) || (0x7B ≤ c && c ≤ 0x7E) || 0x80 ≤ c

/-- A position is a duplicate-mapping case: its REV value is also that of another position (R7 (d)). -/
def Rom.duplicate (rom : Rom) (c : Fin 97) : Prop := ∃ c', c' ≠ c ∧ rom.rev c' = rom.rev c

/-- R7 (a): every forward entry is in 0x00..0x60. -/
def Rom.InRange (rom : Rom) : Prop := ∀ c, rom.fwdUs c ≤ 0x60 ∧ rom.fwdAscii c ≤ 0x60

/-- R7 (c): the two forward tables differ only at punctuation characters. -/
def Rom.DifferOnlyInPunctuation (rom : Rom) : Prop := ∀ c, rom.fwdUs c ≠ rom.fwdAscii c → isPunctuation c = true

/-- R7 (d): the round trip on the US table, for every position from 0x01 that is no duplicate-mapping case. -/
def Rom.RoundTrips (rom : Rom) : Prop :=
  ∀ c : Fin 97, c ≠ 0 → ¬ rom.duplicate c → (rom.fwdUs (rom.rev c)).toNat = c

/-- The parameters of a machine with the constraints the spec puts on them (R4 to R7). The default values serve only
to show that such a record exists. R7 (b) says what an entry 0 means and constrains no entry. -/
structure Params where
  busAddress : BusAddr := 0
  rxAckInterleaved : Bool := false
  kp : KeypressMap := ({} : KeypressMap)
  rom : Rom := ({} : Rom)
  kpOk : kp.ok = true := by decide
  romInRange : rom.InRange := by intro c; show (0 : Pos) ≤ 0x60 ∧ (0 : Pos) ≤ 0x60; decide
  romPunctuation : rom.DifferOnlyInPunctuation := by intro c h; exact absurd rfl h
  romRoundTrips : rom.RoundTrips := by
    intro c h0 hd
    exact absurd ⟨0, fun h => h0 h.symm, rfl⟩ hd
  deriving Inhabited

/-- The parameters of this machine. A constant without a body: a claim about it holds for every value that meets the
constraints (R4 to R7; notes/assumptions/9.md; safe). -/
opaque Config.params : Params

/-- A move of one of the agents of R14: the engine takes one step, the environment appends a word to RXQ, the host
writes REQ, or the engine is reset. -/
inductive Machine.Turn where
  | engine
  | env (w : Word9)
  | host (r : Req)
  | reset
  deriving DecidableEq, Repr, Inhabited

/-- An unending order of moves. A constant without a body: the environment is under no law and the host acts when it
chooses (R14), so a claim about it holds for every unending order (notes/assumptions/22.md; safe). -/
opaque Config.turnAt : Nat → Machine.Turn

end Sys2Proof
end

