-- ==== Sys2Proof/Machine/State.lean ====
section
/-! DEFINITION. The state of the machine (spec/10_state.md) as plain data, its reset value, and the ways a step can
stop. -/

namespace Sys2Proof.Machine

/-- The keyboard layouts of KBD (R21): 0 is US, 1 is ASCII. -/
inductive Layout where
  | us
  | ascii
  deriving DecidableEq, Repr

/-- The error codes of R_ERR (R160). -/
inductive ErrCode where
  | noError
  | invalidOpcode
  | ackMismatch
  | framingError
  deriving DecidableEq, Repr

/-- The field codes of R_FIELD (R161). The codes 5 to 7 are never written (R25) and are excluded by type
(notes/assumptions/13.md; safe). -/
inductive FieldCode where
  | fNone
  | fAddr
  | fOpc
  | fD1
  | fD2
  deriving DecidableEq, Repr

/-- The keypress classes of R_CLASS (R28, R126). The codes 6 and 7 are never written (R28) and are excluded by type
(notes/assumptions/13.md; safe). -/
inductive KeyClass where
  | noCommand
  | noKeypress
  | character
  | carriageReturn
  | space
  | backspace
  deriving DecidableEq, Repr

/-- A host operation with the operands it reads from REQ (R71). -/
inductive Job where
  | send (a : BusAddr) (o d1 d2 : Byte) (ign : Bool)
  | waitrdy (o : Byte)
  | rdcmd (blk : Bool)
  | rdkey (blk : Bool)
  | flushrx
  | setkbd (layout : Bool)
  | a2p (c : Byte)
  | p2a (p : Byte)
  deriving DecidableEq, Repr

/-- On whose behalf a frame is sent: SEND with its IGN operand (R100), or WAITRDY with POLLOPC (R32, R101). -/
inductive TxCtx where
  | send (ign : Bool)
  | poll (pollopc : Byte)
  deriving DecidableEq, Repr

/-- The frame being sent (R32): TXBUF[0..3], TXN, and K, the index of the word in progress. -/
structure TxFrame where
  w0 : Word9
  w1 : Word9
  w2 : Word9
  w3 : Word9
  txn : Nat
  k : Nat
  deriving DecidableEq, Repr

/-- The frame being received (R32): RXBUF[0..3]. -/
structure RxFrame where
  w0 : Word9
  w1 : Word9
  w2 : Word9
  w3 : Word9
  deriving DecidableEq, Repr

/-- What follows the last engine step of a transmission (R13, R100): the ChanRead of the echo, the ChanRead of the
response, or the work on the response word just read. -/
inductive TxPhase where
  | echo
  | resp
  | got (r : Word9)
  deriving DecidableEq, Repr

/-- What the last engine step of a reception was (R13, R120): the ChanAvailable with its answer, the ChanRead of word
K, or the ChanRead of the response word after word K. -/
inductive RxPhase where
  | avail (b : Bool)
  | got
  | skipped
  deriving DecidableEq, Repr

/-- What the last engine step of FLUSHRX was (R13, R127): the ChanAvailable with its answer, or the ChanRead. -/
inductive FlushPhase where
  | avail (b : Bool)
  | read
  deriving DecidableEq, Repr

/-- The operation in progress and the point it has reached (R13, R32). `start` is an operation whose first engine step
is still to come; `rx` receives for RDKEY if `key` holds and for RDCMD if not, and `k` is K. -/
inductive Activity where
  | start (j : Job)
  | tx (x : TxCtx) (f : TxFrame) (ph : TxPhase)
  | rx (key : Bool) (buf : RxFrame) (k : Nat) (ph : RxPhase)
  | flush (ph : FlushPhase)
  deriving DecidableEq, Repr

/-- STATE (R23) with the internal frame state, which is held only while STATE = BUSY (R32; notes/assumptions/7.md;
safe). -/
inductive Engine where
  | idle
  | busy (act : Activity)
  deriving DecidableEq, Repr

/-- What comes after the listed turns: no other agent moves any more, the given turns again and again without end, or
the unending turns of `Config.turnAt` from number n on (notes/assumptions/1.md, 22.md; safe). -/
inductive Later where
  | quiet
  | again (first : Turn) (others : List Turn)
  | free (n : Nat)
  deriving DecidableEq, Repr

/-- The order in which the agents of R14 move: the turns listed, then what comes later. -/
structure Schedule where
  listed : List Turn
  later : Later
  deriving DecidableEq, Repr

/-- The whole state (spec/10_state.md). `turns` is the model's own field (notes/assumptions/1.md): the order in which
the agents of R14 move from here on, for ever if need be. -/
structure State where
  engine : Engine
  kbd : Layout
  req : Req
  rErr : ErrCode
  rField : FieldCode
  rResp : Word9
  rPresent : Bool
  rOpc : Byte
  rD1 : Byte
  rD2 : Byte
  rLen : BitVec 2
  rClass : KeyClass
  rAscii : Byte
  rPos : Pos
  rxq : List Word9
  txs : List Word9
  turns : Schedule
  deriving DecidableEq, Repr

/-- The reset state (R34, R180) with the given channel contents, REQ and turns, none of which reset settles (R181,
R22). -/
def State.resetWith (req : Req) (rxq txs : List Word9) (turns : Schedule) : State where
  engine := .idle
  kbd := .us
  req := req
  rErr := .noError
  rField := .fNone
  rResp := 0
  rPresent := false
  rOpc := 0
  rD1 := 0
  rD2 := 0
  rLen := 0
  rClass := .noCommand
  rAscii := 0
  rPos := 0
  rxq := rxq
  txs := txs
  turns := turns

/-- The machine right after reset (R34): every register at its reset value and TXS empty. RXQ empty and REQ 0 are DESIGN
CHOICES (notes/assumptions/4.md, unsafe; 5.md, safe), and no turn is planned (1.md). -/
def State.reset : State := State.resetWith 0 [] [] ⟨[], .quiet⟩

/-- The machine raises no fault: errors are return codes, nothing traps and a hold is not a fault (R12, R13, R165). No
meaning answers with one, which is safe. -/
inductive Fault where
  deriving DecidableEq, Repr

/-- The requests the spec gives no meaning. -/
inductive Refusal where
  /-- An instruction that has no meaning yet. Raised by no arm. Safe: nothing is claimed about the instruction. -/
  | notModelled (mnemonic : String)
  /-- A REQ whose HOP field is 0x8 to 0xF (R72). Raised by RESERVED_HOP. Safe: the spec refuses it too. -/
  | reservedOperation (hop : BitVec 4)
  /-- A REQ written while STATE = BUSY (R23, R185). Raised by every other instruction while an operation runs. Safe: the spec
  refuses it too. -/
  | requestWhileBusy
  deriving DecidableEq, Repr

end Sys2Proof.Machine
end

