-- ==== Sys2Proof/Machine/Flags.lean ====
section
/-! DEFINITION. The codes of the status registers as the host reads them (spec/10_state.md R21 to R28,
spec/60_exceptions.md R160, R161, spec/42_receive.md R126), and the field code of a frame word. -/

namespace Sys2Proof.Machine

/-- The numeric code of R_ERR (R160). -/
def ErrCode.code : ErrCode → BitVec 2
  | .noError => 0
  | .invalidOpcode => 1
  | .ackMismatch => 2
  | .framingError => 3

/-- The numeric code of R_FIELD (R161). -/
def FieldCode.code : FieldCode → BitVec 3
  | .fNone => 0
  | .fAddr => 1
  | .fOpc => 2
  | .fD1 => 3
  | .fD2 => 4

/-- The numeric code of R_CLASS (R126). -/
def KeyClass.code : KeyClass → BitVec 3
  | .noCommand => 0
  | .noKeypress => 1
  | .character => 2
  | .carriageReturn => 3
  | .space => 4
  | .backspace => 5

/-- The layout bit of KBD (R21). -/
def Layout.code : Layout → BitVec 1
  | .us => 0
  | .ascii => 1

/-- `FIELDCODE(K)`, the field code of frame word K (spec/41_transmit.md). -/
def fieldCode : Nat → FieldCode
  | 0 => .fAddr
  | 1 => .fOpc
  | 2 => .fD1
  | _ => .fD2

/-- STATE = IDLE (R23). -/
def State.isIdle (s : State) : Bool :=
  match s.engine with
  | .idle => true
  | .busy _ => false

/-- The registers the host can read (R23 to R29). KBD is not among them (R21). -/
inductive HostReg where
  | state
  | rErr
  | rField
  | rResp
  | rPresent
  | rOpc
  | rD1
  | rD2
  | rLen
  | rClass
  | rAscii
  | rPos
  deriving DecidableEq, Repr

/-- What the host reads from a register, at any time (R23 to R29), as a number of the register's width. STATE reads 0
for IDLE and 1 for BUSY: the spec names the two values and does not number them (DESIGN CHOICE,
notes/assumptions/13.md; safe). -/
def State.hostRead (s : State) : HostReg → Nat
  | .state => if s.isIdle then 0 else 1
  | .rErr => s.rErr.code.toNat
  | .rField => s.rField.code.toNat
  | .rResp => s.rResp.toNat
  | .rPresent => s.rPresent.toNat
  | .rOpc => s.rOpc.toNat
  | .rD1 => s.rD1.toNat
  | .rD2 => s.rD2.toNat
  | .rLen => s.rLen.toNat
  | .rClass => s.rClass.code.toNat
  | .rAscii => s.rAscii.toNat
  | .rPos => s.rPos.toNat

end Sys2Proof.Machine
end

