-- ==== Sys2Proof/Machine/Operands.lean ====
section
/-! DEFINITION. Operand selection: the layout operand, the words of the frame buffers, the data fields of KP and the
ROM lookups with their range check. -/

namespace Sys2Proof.Machine

/-- SETKBD's operand F: 0 is US, 1 is ASCII (R140). -/
def layoutOf (f : Bool) : Layout := if f then .ascii else .us

/-- `TXBUF[k]` (R32). -/
def TxFrame.word (f : TxFrame) : Nat → Word9
  | 0 => f.w0
  | 1 => f.w1
  | 2 => f.w2
  | _ => f.w3

/-- `RXBUF[k] <- w` (R32). -/
def RxFrame.set (b : RxFrame) (k : Nat) (w : Word9) : RxFrame :=
  match k with
  | 0 => { b with w0 := w }
  | 1 => { b with w1 := w }
  | 2 => { b with w2 := w }
  | _ => { b with w3 := w }

/-- `RXBUF[k]` (R32). -/
def RxFrame.word (b : RxFrame) : Nat → Word9
  | 0 => b.w0
  | 1 => b.w1
  | 2 => b.w2
  | _ => b.w3

/-- A receive buffer before any word is read. Its words are overwritten before a rule reads them (R120). -/
def RxFrame.empty : RxFrame := ⟨0, 0, 0, 0⟩

/-- `n`, the LEN of the opcode word received: `LEN[RXBUF[1][3:0]]` (R120). -/
def RxFrame.len (b : RxFrame) : Nat := frameLen ((b.w1.extractLsb' 0 4).setWidth 8)

/-- `field(D1) = d1` and `field(D2) = d2` (R124). -/
def dataField (f : DataField) (d1 d2 : Byte) : Byte :=
  match f with
  | .d1 => d1
  | .d2 => d2

/-- A masked field is not zero (R15, R124). -/
def maskedSet (v m : Byte) : Bool := v &&& m != 0

/-- The opcode a KP opcode stands for, as a payload (R6, R124). -/
def kpOpcode (o : BitVec 4) : Byte := o.setWidth 8

/-- The forward lookup of A2P: exactly one table, the one KBD selects (R141, R142). -/
def fwdLookup (rom : Rom) (kbd : Layout) (c : Byte) : Pos :=
  match kbd with
  | .us => rom.fwdUs c
  | .ascii => rom.fwdAscii c

/-- The reverse lookup: `REV[p]` for a position up to 0x60, and 0x00 beyond the table, where no read is made (R41,
R143). -/
def revLookup (rom : Rom) (p : Byte) : Byte :=
  if h : p.toNat ≤ 0x60 then rom.rev ⟨p.toNat, by omega⟩ else 0x00

/-- `KPCLASS(o, d1, d2)`: the class and ASCII value of a keypress frame (R124, R126). -/
def kpClass (p : Params) (o d1 d2 : Byte) : KeyClass × Byte :=
  if o = kpOpcode p.kp.opcType then
    (.character, revLookup p.rom (dataField p.kp.charField d1 d2))
  else if o = kpOpcode p.kp.opcPlaten then
    if maskedSet (dataField p.kp.platenUpField d1 d2) p.kp.platenUpMask then (.carriageReturn, 0x0A)
    else (.noKeypress, 0x00)
  else if o = kpOpcode p.kp.opcCarriage then
    if maskedSet (dataField p.kp.carDirField d1 d2) p.kp.carDirMask = p.kp.carRightWhenSet then (.space, 0x20)
    else (.backspace, 0x08)
  else (.noKeypress, 0x00)

end Sys2Proof.Machine
end

