-- ==== Sys2Proof/Machine/Ops.lean ====
section
/-! DEFINITION. The named operations over the channel and the registers (spec/00_scope.md R10, R12), the moves of the
host and of the environment (R14), and taking an error, the one kind of exception this machine has
(spec/60_exceptions.md R165). There is no return from an error (R166). -/

namespace Sys2Proof.Machine

/-- `ChanWrite(w)`: appends w to TXS (R10, R31, R47). -/
def chanWrite (w : Word9) (s : State) : State := { s with txs := s.txs ++ [w] }

/-- `ChanRead()`: the head of RXQ and the state without it; none while RXQ is empty, when the engine holds (R10, R13,
R47). -/
def chanRead (s : State) : Option (Word9 × State) :=
  match s.rxq with
  | [] => none
  | w :: q => some (w, { s with rxq := q })

/-- `ChanAvailable()`: RXQ is not empty (R10). -/
def chanAvailable (s : State) : Bool := !s.rxq.isEmpty

/-- The engine goes on to the given point of an operation. -/
def State.goto (s : State) (a : Activity) : State := { s with engine := .busy a }

/-- The end of an operation with code e and field f: R_ERR and R_FIELD are written and STATE becomes IDLE (R12, R23). -/
def State.endOp (e : ErrCode) (f : FieldCode) (s : State) : State :=
  { s with rErr := e, rField := f, engine := .idle }

/-- `raise E(f)`: taking an error (R12, R165). Nothing else is saved and no mode changes. -/
def raise (e : ErrCode) (f : FieldCode) (s : State) : State := s.endOp e f

/-- The end of an operation without raise: R_ERR is NONE and R_FIELD is F_NONE (R12). -/
def finish (s : State) : State := s.endOp .noError .fNone

/-- The environment appends a word to the tail of RXQ (R14, R30). -/
def envAppend (w : Word9) (s : State) : State := { s with rxq := s.rxq ++ [w] }

/-- Reset (R180, R181): every register takes its reset value and STATE becomes IDLE, an operation in progress is
abandoned, RXQ is unchanged and the words in TXS stay (notes/assumptions/6.md; unsafe). REQ is kept (5.md; safe). -/
def applyReset (s : State) : State := State.resetWith s.req s.rxq s.txs s.turns

/-- The host writes a word into REQ (R22). -/
def writeReq (r : Req) (s : State) : State := { s with req := r }

/-- The next turn and the turns that follow it; none if no other agent moves any more and none is listed
(notes/assumptions/1.md, 22.md). -/
def Schedule.next (ts : Schedule) : Option (Turn × Schedule) :=
  match ts.listed, ts.later with
  | t :: rest, later => some (t, ⟨rest, later⟩)
  | [], .quiet => none
  | [], .again t rest => some (t, ⟨rest, .again t rest⟩)
  | [], .free n => some (Config.turnAt n, ⟨[], .free (n + 1)⟩)

/-- The given turn, and then the others. -/
def Schedule.after (ts : Schedule) (t : Turn) : Schedule := ⟨t :: ts.listed, ts.later⟩

/-- The turns that remain when the next one has been taken. -/
def State.withTurns (s : State) (ts : Schedule) : State := { s with turns := ts }

end Sys2Proof.Machine
end

