-- ==== Sys2Proof/Machine/Receive.lean ====
section
/-! DEFINITION. The engine steps of RDCMD, RDKEY and FLUSHRX (spec/42_receive.md): inbound frame assembler, keypress
classifier, receive flush. A step is a channel call with the computation that precedes it (R13;
notes/assumptions/8.md). -/

namespace Sys2Proof.Machine

/-- The received-frame registers cleared at the start of the RDCMD body (R120). -/
def clearReceived (s : State) : State :=
  { s with rPresent := false, rOpc := 0, rD1 := 0, rD2 := 0, rLen := 0 }

/-- `R_PRESENT <- 1` (R120). -/
def markPresent (s : State) : State := { s with rPresent := true }

/-- R_CLASS and R_ASCII take the given values (R125). -/
def setKey (c : KeyClass) (a : Byte) (s : State) : State := { s with rClass := c, rAscii := a }

/-- RDKEY sets its class to NO_KEYPRESS and R_ASCII to 0 before it runs the RDCMD body; RDCMD writes neither (R125,
R33). -/
def clearKey (key : Bool) (s : State) : State := if key then setKey .noKeypress 0 s else s

/-- `RXBUF[k] <- ChanRead()` (R120). None: the engine holds. -/
def readWord (key : Bool) (buf : RxFrame) (k : Nat) (s : State) : Option State :=
  (chanRead s).map fun e => e.2.goto (.rx key (buf.set k e.1) k .got)

/-- The first step of RDCMD and RDKEY (R120, R125): the registers are cleared, then a blocking operation reads its
first word and a non-blocking one tests ChanAvailable (R123). -/
def beginReceive (key blk : Bool) (s : State) : Option State :=
  let s := clearReceived (clearKey key s)
  if blk then readWord key .empty 0 (markPresent s)
  else some (s.goto (.rx key .empty 0 (.avail (chanAvailable s))))

/-- The end of a non-blocking operation that found nothing: RDKEY's class is NO_COMMAND (R120, R125). -/
def nothingPending (key : Bool) (s : State) : State :=
  finish (if key then { s with rClass := .noCommand } else s)

/-- The check of inbound word K (R121): the first word equals the bus's address word on all 9 bits, the opcode word
has marker 0 and a valid payload, a data word has marker 0. -/
def wordOk (p : Params) (k : Nat) (w : Word9) : Bool :=
  match k with
  | 0 => w == addrWord p.busAddress
  | 1 => !w.marker && validOpcode w.payload
  | _ => !w.marker

/-- R_OPC, R_D1, R_D2 and R_LEN of a whole frame (R120). -/
def storeFrame (buf : RxFrame) (s : State) : State :=
  { s with
    rOpc := buf.w1.payload
    rD1 := if 2 ≤ buf.len then buf.w2.payload else 0
    rD2 := if buf.len = 3 then buf.w3.payload else 0
    rLen := BitVec.ofNat 2 buf.len }

/-- RDKEY's classification of the frame in the received-frame registers (R125). -/
def classify (p : Params) (s : State) : State :=
  let c := kpClass p s.rOpc s.rD1 s.rD2
  setKey c.1 c.2 s

/-- The end of a reception whose words all passed (R120, R125). -/
def frameReceived (p : Params) (key : Bool) (buf : RxFrame) (s : State) : State :=
  finish (if key then classify p (storeFrame buf s) else storeFrame buf s)

/-- After accepted word K: the next word is read while the frame has one (the opcode word, then words 2 to LEN), and
the frame is complete otherwise (R120). -/
def nextWord (p : Params) (key : Bool) (buf : RxFrame) (k : Nat) (s : State) : Option State :=
  if k = 0 ∨ k < buf.len then readWord key buf (k + 1) s else some (frameReceived p key buf s)

/-- One engine step of a reception (R120 to R123). A word is checked before any further ChanRead; a word that fails
ends the operation, and an accepted word is followed by the read of its response word if the bus interleaves them
(R121). -/
def rxStep (p : Params) (key : Bool) (buf : RxFrame) (k : Nat) (ph : RxPhase) (s : State) : Option State :=
  match ph with
  | .avail true => readWord key buf 0 (markPresent s)
  | .avail false => some (nothingPending key s)
  | .got =>
    if wordOk p k (buf.word k) then
      if p.rxAckInterleaved then (chanRead s).map fun e => e.2.goto (.rx key buf k .skipped)
      else nextWord p key buf k s
    else some (raise .framingError (fieldCode k) s)
  | .skipped => nextWord p key buf k s

/-- The ChanAvailable of FLUSHRX's loop (R127). -/
def flushTest (s : State) : State := s.goto (.flush (.avail (chanAvailable s)))

/-- One engine step of FLUSHRX (R127): test, read while a word is there, end otherwise. -/
def flushStep (ph : FlushPhase) (s : State) : Option State :=
  match ph with
  | .avail true => (chanRead s).map fun e => e.2.goto (.flush .read)
  | .avail false => some (finish s)
  | .read => some (flushTest s)

end Sys2Proof.Machine
end

