-- ==== Sys2Proof/Machine/Translate.lean ====
section
/-! DEFINITION. SETKBD, A2P and P2A (spec/43_translate.md): each is one engine step, its final one, with no channel
call (R13). -/

namespace Sys2Proof.Machine

/-- `KBD <- REQ.F` (R140). -/
def setKbd (layout : Bool) (s : State) : State := finish { s with kbd := layoutOf layout }

/-- `R_POS <- RomRead(FWD_US or FWD_ASCII, c)` (R141). -/
def asciiToPos (p : Params) (c : Byte) (s : State) : State := finish { s with rPos := fwdLookup p.rom s.kbd c }

/-- `R_ASCII <- RomRead(REV, p)`, or 0x00 outside the table (R143). -/
def posToAscii (p : Params) (pos : Byte) (s : State) : State := finish { s with rAscii := revLookup p.rom pos }

end Sys2Proof.Machine
end

