-- ==== Sys2Proof/Machine/Transmit.lean ====
section
/-! DEFINITION. The engine steps of SEND and WAITRDY (spec/41_transmit.md): command encoder, echo suppressor, ACK
checker, status poller. A step is a channel call with the computation that precedes it (R13; notes/assumptions/8.md).
-/

namespace Sys2Proof.Machine

/-- `ign`: ACK checking is off for SEND with IGN = 1 and for every poll of WAITRDY (R100, R101). -/
def TxCtx.ignoresAcks : TxCtx → Bool
  | .send ign => ign
  | .poll _ => true

/-- `ChanWrite(TXBUF[K])` (R100). -/
def sendWord (x : TxCtx) (f : TxFrame) (s : State) : State := (chanWrite (f.word f.k) s).goto (.tx x f .echo)

/-- TXBUF and TXN for an opcode o, with K at the first word (R100): the address word, the opcode word and the two data
words. -/
def loadFrame (a : BusAddr) (o d1 d2 : Byte) : TxFrame :=
  ⟨addrWord a, opcWord o, dataWord d1, dataWord d2, frameLen o + 1, 0⟩

/-- The body of SEND from `n <- LEN[o]` up to its first ChanWrite (R100). -/
def startFrame (x : TxCtx) (a : BusAddr) (o d1 d2 : Byte) (s : State) : State := sendWord x (loadFrame a o d1 d2) s

/-- `R_RESP <- r` (R100). -/
def setResp (r : Word9) (s : State) : State := { s with rResp := r }

/-- The first step of SEND (R100): R_RESP is cleared, an opcode above 0x0E is rejected with no channel step (R95,
R96), and otherwise the frame is loaded and its address word written. -/
def beginSend (a : BusAddr) (o d1 d2 : Byte) (ign : Bool) (s : State) : State :=
  if validOpcode o then startFrame (.send ign) a o d1 d2 (setResp 0 s)
  else raise .invalidOpcode .fOpc (setResp 0 s)

/-- A poll of WAITRDY: the body of SEND with a = BUS_ADDRESS, d1 = d2 = 0 and ign = 1 (R101). -/
def startPoll (p : Params) (o : Byte) (s : State) : State := startFrame (.poll o) p.busAddress o 0 0 s

/-- The first step of WAITRDY (R101): as SEND's, with the first poll. -/
def beginWaitrdy (p : Params) (o : Byte) (s : State) : State :=
  if validOpcode o then startPoll p o (setResp 0 s) else raise .invalidOpcode .fOpc (setResp 0 s)

/-- What follows a frame whose last response is in R_RESP: SEND ends, and WAITRDY ends if R_RESP is 0 and polls again
if not (R100, R101). -/
def frameSent (p : Params) (x : TxCtx) (s : State) : State :=
  match x with
  | .send _ => finish s
  | .poll o => if s.rResp = 0 then finish s else startPoll p o s

/-- The response word of frame word K is checked: not for the opcode word of a frame of length 1, whose response is the
command's result, and not with ign = 1 (R103). -/
def ackChecked (x : TxCtx) (f : TxFrame) : Bool := !x.ignoresAcks && !(f.txn - 1 == 1 && f.k == 1)

/-- The work on the response r of word K, with the channel call that follows it (R100, R103): R_RESP takes r, a
checked r that is not zero on all 9 bits ends the operation at once, and otherwise the next word goes out or the frame
is over. -/
def afterResponse (p : Params) (x : TxCtx) (f : TxFrame) (r : Word9) (s : State) : State :=
  if ackChecked x f && r != 0 then raise .ackMismatch (fieldCode f.k) (setResp r s)
  else if f.k + 1 < f.txn then sendWord x { f with k := f.k + 1 } (setResp r s)
  else frameSent p x (setResp r s)

/-- One engine step of a transmission: the echo is read and discarded without a look at it (R102), the response is
read, or the response is worked on. None: the engine holds. -/
def txStep (p : Params) (x : TxCtx) (f : TxFrame) (ph : TxPhase) (s : State) : Option State :=
  match ph with
  | .echo => (chanRead s).map fun e => e.2.goto (.tx x f .resp)
  | .resp => (chanRead s).map fun e => e.2.goto (.tx x f (.got e.1))
  | .got r => some (afterResponse p x f r s)

end Sys2Proof.Machine
end

