-- ==== Sys2Proof/Machine/Engine.lean ====
section
/-! DEFINITION. The engine agent: its single step (spec/00_scope.md R13), the steps a turn gives it, and the start of
a host operation (spec/10_state.md R23). Every meaning goes through `operate`. -/

namespace Sys2Proof.Machine

/-- The first engine step of an operation. -/
def beginJob (p : Params) (j : Job) (s : State) : Option State :=
  match j with
  | .send a o d1 d2 ign => some (beginSend a o d1 d2 ign s)
  | .waitrdy o => some (beginWaitrdy p o s)
  | .rdcmd blk => beginReceive false blk s
  | .rdkey blk => beginReceive true blk s
  | .flushrx => some (flushTest s)
  | .setkbd layout => some (setKbd layout s)
  | .a2p c => some (asciiToPos p c s)
  | .p2a pos => some (posToAscii p pos s)

/-- One step of the engine (R13): one channel call with the computation before it, or the final computation of an
operation. None while IDLE, and none at a ChanRead with RXQ empty, when the engine holds and takes no step at all
(R10, R13). -/
def engineStep (p : Params) (s : State) : Option State :=
  match s.engine with
  | .idle => none
  | .busy (.start j) => beginJob p j s
  | .busy (.tx x f ph) => txStep p x f ph s
  | .busy (.rx key buf k ph) => rxStep p key buf k ph s
  | .busy (.flush ph) => flushStep ph s

/-- At most n engine steps in a row, up to the end of the operation or a hold. -/
def settle (p : Params) : Nat → State → State
  | 0, s => s
  | n + 1, s =>
    match engineStep p s with
    | none => s
    | some t => settle p n t

/-- A number of engine steps after which an operation that no other agent disturbs has ended or holds: every step but a
write, a test or the last one consumes a word of RXQ. -/
def stepBound (s : State) : Nat := 2 * s.rxq.length + 2

/-- The engine's share of a machine step. With an engine turn next it takes one engine step (none if it holds). With
no turn left no other agent moves any more, and its remaining steps are taken together (notes/assumptions/2.md; safe).
With another agent's turn next it does not move. -/
def engineTurn (p : Params) (s : State) : State :=
  match s.turns.next with
  | none => settle p (stepBound s) s
  | some (.engine, ts) => (engineStep p (s.withTurns ts)).getD (s.withTurns ts)
  | some (.env _, _) | some (.host _, _) | some (.reset, _) => s

/-- A host operation is requested (R23): refused while STATE = BUSY; otherwise STATE becomes BUSY and the operation
starts. -/
def operate (p : Params) (j : Job) (s : State) : Host.Outcome State Fault Refusal :=
  match s.engine with
  | .idle => .next (engineTurn p (s.goto (.start j)))
  | .busy _ => .refused .requestWhileBusy

/-- SEND's algorithm with the given operands (R100): the template of spec/40_wire_commands.md. -/
def sendCommand (a : BusAddr) (o d1 d2 : Byte) (ign : Bool) (s : State) : Host.Outcome State Fault Refusal :=
  operate Config.params (.send a o d1 d2 ign) s

/-- An opcode operand that is never transmitted, met by the operation that reads it (R95, R96). SEND's other operands
have no effect then and are 0. -/
def rejectOpcode (u : OpcUser) (o : Byte) (s : State) : Host.Outcome State Fault Refusal :=
  match u with
  | .send => sendCommand 0 o 0 0 false s
  | .waitrdy => operate Config.params (.waitrdy o) s

end Sys2Proof.Machine
end

