-- ==== Sys2Proof/Machine/HostOps.lean ====
section
/-! DEFINITION. The meanings of the host requests (spec/30_encoding.md R71, R72): one per HOP value. -/

namespace Sys2Proof.Machine

/-- SEND (R100). -/
def execSend (a : BusAddr) (o d1 d2 : Byte) (ign : Bool) (s : State) : Host.Outcome State Fault Refusal :=
  sendCommand a o d1 d2 ign s

/-- WAITRDY (R101). -/
def execWaitrdy (o : Byte) (s : State) : Host.Outcome State Fault Refusal := operate Config.params (.waitrdy o) s

/-- RDCMD (R120). -/
def execRdcmd (blk : Bool) (s : State) : Host.Outcome State Fault Refusal := operate Config.params (.rdcmd blk) s

/-- RDKEY (R125). -/
def execRdkey (blk : Bool) (s : State) : Host.Outcome State Fault Refusal := operate Config.params (.rdkey blk) s

/-- FLUSHRX (R127). -/
def execFlushrx (s : State) : Host.Outcome State Fault Refusal := operate Config.params .flushrx s

/-- SETKBD (R140). -/
def execSetkbd (layout : Bool) (s : State) : Host.Outcome State Fault Refusal := operate Config.params (.setkbd layout) s

/-- A2P (R141). -/
def execA2p (c : Byte) (s : State) : Host.Outcome State Fault Refusal := operate Config.params (.a2p c) s

/-- P2A (R143). -/
def execP2a (pos : Byte) (s : State) : Host.Outcome State Fault Refusal := operate Config.params (.p2a pos) s

/-- A reserved HOP: refused, no operation starts and no register changes (R72; decision D20). -/
def execReservedHop (hop : BitVec 4) (_s : State) : Host.Outcome State Fault Refusal := .refused (.reservedOperation hop)

end Sys2Proof.Machine
end

