-- ==== Sys2Proof/Machine/Wire.lean ====
section
/-! DEFINITION. The meanings of the wire commands and of the invalid opcode operands (spec/40_wire_commands.md R80 to
R96). Each valid opcode o runs SEND's algorithm (R100) with that o. The device's own function is not modelled: the
spec gives it none but a status answer for 0x0B. -/

namespace Sys2Proof.Machine

/-- Opcode 0x00, LEN 1: the frame AW, OW (R80). -/
def execOpc00 (a : BusAddr) (d1 d2 : Byte) (ign : Bool) (s : State) : Host.Outcome State Fault Refusal :=
  sendCommand a 0x00 d1 d2 ign s

/-- Opcode 0x01, LEN 1: the frame AW, OW (R81). -/
def execOpc01 (a : BusAddr) (d1 d2 : Byte) (ign : Bool) (s : State) : Host.Outcome State Fault Refusal :=
  sendCommand a 0x01 d1 d2 ign s

/-- Opcode 0x02, LEN 3: the frame AW, OW, DW(d1), DW(d2) (R82). -/
def execOpc02 (a : BusAddr) (d1 d2 : Byte) (ign : Bool) (s : State) : Host.Outcome State Fault Refusal :=
  sendCommand a 0x02 d1 d2 ign s

/-- Opcode 0x03, LEN 3: the frame AW, OW, DW(d1), DW(d2) (R83). -/
def execOpc03 (a : BusAddr) (d1 d2 : Byte) (ign : Bool) (s : State) : Host.Outcome State Fault Refusal :=
  sendCommand a 0x03 d1 d2 ign s

/-- Opcode 0x04, LEN 3: the frame AW, OW, DW(d1), DW(d2) (R84). -/
def execOpc04 (a : BusAddr) (d1 d2 : Byte) (ign : Bool) (s : State) : Host.Outcome State Fault Refusal :=
  sendCommand a 0x04 d1 d2 ign s

/-- Opcode 0x05, LEN 2: the frame AW, OW, DW(d1) (R85). -/
def execOpc05 (a : BusAddr) (d1 d2 : Byte) (ign : Bool) (s : State) : Host.Outcome State Fault Refusal :=
  sendCommand a 0x05 d1 d2 ign s

/-- Opcode 0x06, LEN 3: the frame AW, OW, DW(d1), DW(d2) (R86). -/
def execOpc06 (a : BusAddr) (d1 d2 : Byte) (ign : Bool) (s : State) : Host.Outcome State Fault Refusal :=
  sendCommand a 0x06 d1 d2 ign s

/-- Opcode 0x07, LEN 1: the frame AW, OW (R87). -/
def execOpc07 (a : BusAddr) (d1 d2 : Byte) (ign : Bool) (s : State) : Host.Outcome State Fault Refusal :=
  sendCommand a 0x07 d1 d2 ign s

/-- Opcode 0x08, LEN 1: the frame AW, OW (R88). -/
def execOpc08 (a : BusAddr) (d1 d2 : Byte) (ign : Bool) (s : State) : Host.Outcome State Fault Refusal :=
  sendCommand a 0x08 d1 d2 ign s

/-- Opcode 0x09, LEN 2: the frame AW, OW, DW(d1) (R89). -/
def execOpc09 (a : BusAddr) (d1 d2 : Byte) (ign : Bool) (s : State) : Host.Outcome State Fault Refusal :=
  sendCommand a 0x09 d1 d2 ign s

/-- Opcode 0x0A, LEN 2: the frame AW, OW, DW(d1) (R90). -/
def execOpc0a (a : BusAddr) (d1 d2 : Byte) (ign : Bool) (s : State) : Host.Outcome State Fault Refusal :=
  sendCommand a 0x0A d1 d2 ign s

/-- QUERY_STATUS, opcode 0x0B, LEN 1: the frame AW, OW (R91). -/
def execQueryStatus (a : BusAddr) (d1 d2 : Byte) (ign : Bool) (s : State) : Host.Outcome State Fault Refusal :=
  sendCommand a 0x0B d1 d2 ign s

/-- Opcode 0x0C, LEN 3: the frame AW, OW, DW(d1), DW(d2) (R92). -/
def execOpc0c (a : BusAddr) (d1 d2 : Byte) (ign : Bool) (s : State) : Host.Outcome State Fault Refusal :=
  sendCommand a 0x0C d1 d2 ign s

/-- Opcode 0x0D, LEN 2: the frame AW, OW, DW(d1) (R93). -/
def execOpc0d (a : BusAddr) (d1 d2 : Byte) (ign : Bool) (s : State) : Host.Outcome State Fault Refusal :=
  sendCommand a 0x0D d1 d2 ign s

/-- Opcode 0x0E, LEN 2: the frame AW, OW, DW(d1) (R94). -/
def execOpc0e (a : BusAddr) (d1 d2 : Byte) (ign : Bool) (s : State) : Host.Outcome State Fault Refusal :=
  sendCommand a 0x0E d1 d2 ign s

/-- Opcode operand 0x0F (R95). -/
def execInvalidOpc0f (u : OpcUser) (s : State) : Host.Outcome State Fault Refusal := rejectOpcode u 0x0F s

/-- An opcode operand from 0x10 to 0x1F (R96). -/
def execInvalidOpc10_1f (u : OpcUser) (o : Byte) (s : State) : Host.Outcome State Fault Refusal := rejectOpcode u o s

/-- An opcode operand from 0x20 to 0x3F (R96). -/
def execInvalidOpc20_3f (u : OpcUser) (o : Byte) (s : State) : Host.Outcome State Fault Refusal := rejectOpcode u o s

/-- An opcode operand from 0x40 to 0x7F (R96). -/
def execInvalidOpc40_7f (u : OpcUser) (o : Byte) (s : State) : Host.Outcome State Fault Refusal := rejectOpcode u o s

/-- An opcode operand from 0x80 to 0xFF (R96). -/
def execInvalidOpc80_ff (u : OpcUser) (o : Byte) (s : State) : Host.Outcome State Fault Refusal := rejectOpcode u o s

end Sys2Proof.Machine
end

