-- ==== Sys2Proof/Machine/Dispatch.lean ====
section
/-! DEFINITION. One arm per constructor of Instr, each a direct call of the instruction's meaning. -/

namespace Sys2Proof.Machine

def exec (i : Instr) (s : State) : Host.Outcome State Fault Refusal :=
  match i with
  | .send a o d1 d2 ign => Sys2Proof.Machine.execSend a o d1 d2 ign s
  | .waitrdy o => Sys2Proof.Machine.execWaitrdy o s
  | .rdcmd blk => Sys2Proof.Machine.execRdcmd blk s
  | .rdkey blk => Sys2Proof.Machine.execRdkey blk s
  | .flushrx => Sys2Proof.Machine.execFlushrx s
  | .setkbd layout => Sys2Proof.Machine.execSetkbd layout s
  | .a2p c => Sys2Proof.Machine.execA2p c s
  | .p2a pos => Sys2Proof.Machine.execP2a pos s
  | .reservedHop hop => Sys2Proof.Machine.execReservedHop hop s
  | .opc00 a d1 d2 ign => Sys2Proof.Machine.execOpc00 a d1 d2 ign s
  | .opc01 a d1 d2 ign => Sys2Proof.Machine.execOpc01 a d1 d2 ign s
  | .opc02 a d1 d2 ign => Sys2Proof.Machine.execOpc02 a d1 d2 ign s
  | .opc03 a d1 d2 ign => Sys2Proof.Machine.execOpc03 a d1 d2 ign s
  | .opc04 a d1 d2 ign => Sys2Proof.Machine.execOpc04 a d1 d2 ign s
  | .opc05 a d1 d2 ign => Sys2Proof.Machine.execOpc05 a d1 d2 ign s
  | .opc06 a d1 d2 ign => Sys2Proof.Machine.execOpc06 a d1 d2 ign s
  | .opc07 a d1 d2 ign => Sys2Proof.Machine.execOpc07 a d1 d2 ign s
  | .opc08 a d1 d2 ign => Sys2Proof.Machine.execOpc08 a d1 d2 ign s
  | .opc09 a d1 d2 ign => Sys2Proof.Machine.execOpc09 a d1 d2 ign s
  | .opc0a a d1 d2 ign => Sys2Proof.Machine.execOpc0a a d1 d2 ign s
  | .queryStatus a d1 d2 ign => Sys2Proof.Machine.execQueryStatus a d1 d2 ign s
  | .opc0c a d1 d2 ign => Sys2Proof.Machine.execOpc0c a d1 d2 ign s
  | .opc0d a d1 d2 ign => Sys2Proof.Machine.execOpc0d a d1 d2 ign s
  | .opc0e a d1 d2 ign => Sys2Proof.Machine.execOpc0e a d1 d2 ign s
  | .invalidOpc0f u => Sys2Proof.Machine.execInvalidOpc0f u s
  | .invalidOpc10_1f u o => Sys2Proof.Machine.execInvalidOpc10_1f u o s
  | .invalidOpc20_3f u o => Sys2Proof.Machine.execInvalidOpc20_3f u o s
  | .invalidOpc40_7f u o => Sys2Proof.Machine.execInvalidOpc40_7f u o s
  | .invalidOpc80_ff u o => Sys2Proof.Machine.execInvalidOpc80_ff u o s

end Sys2Proof.Machine
end

