-- ==== Sys2Proof/Machine/Step.lean ====
section
/-! DEFINITION. One step of the machine: the next turn's agent moves (spec/00_scope.md R14). -/

namespace Sys2Proof.Machine

/-- One step of the machine. The host's turn writes REQ and the operation it selects is run (R22, R23); the
environment's turn appends a word to RXQ (R30); a reset turn resets the engine (R180). Otherwise the engine goes on
with the operation in progress (R13), and an IDLE engine waits for a request (R182). -/
def step (s : State) : Host.Outcome State Fault Refusal :=
  match s.turns.next with
  | some (.host r, ts) => exec (decodeReq r) (writeReq r (s.withTurns ts))
  | some (.env w, ts) => .next (envAppend w (s.withTurns ts))
  | some (.reset, ts) => .next (applyReset (s.withTurns ts))
  | some (.engine, _) | none => .next (engineTurn Config.params s)

/-- The state in which the host's next write of REQ is the request that carries the row's word: STATE is IDLE, so that
the write starts an operation, and the write is the next turn. A word that is no row's leaves the state as it is. -/
def State.withFetchWord (s : State) (nbits w : Nat) : State :=
  match tableRequest nbits w with
  | .ok (_, r) => { s with engine := .idle, turns := s.turns.after (.host r) }
  | .error _ => s

end Sys2Proof.Machine
end

