-- ==== Sys2Proof/Machine/Assembler.lean ====
section
/-! DEFINITION. Assembler lines and pseudo-operations (spec/30_encoding.md R73, R74): the text of a line, the line,
and the one host operation it stands for. -/

namespace Sys2Proof.Machine

/-- One line of assembler (R73), with the pseudo-operations of R74. An operand of SEND that may be omitted is an
option. -/
inductive AsmLine where
  | send (addr : BusAddr) (opc : Byte) (d1 d2 : Option Byte) (ign : Bool)
  | waitrdy (opc : Byte)
  | rdcmd (blk : Bool)
  | rdkey (blk : Bool)
  | flushrx
  | setkbd (layout : Bool)
  | a2p (ascii : Byte)
  | p2a (pos : Byte)
  | qstatus
  | waitidle
  | qraw (opc : Byte)
  deriving DecidableEq, Repr

/-- The one host operation a line expands to (R73, R74). An omitted d1 or d2 is 0. -/
def AsmLine.instr (p : Params) : AsmLine → Instr
  | .send a o d1 d2 ign => .send a o (d1.getD 0) (d2.getD 0) ign
  | .waitrdy o => .waitrdy o
  | .rdcmd blk => .rdcmd blk
  | .rdkey blk => .rdkey blk
  | .flushrx => .flushrx
  | .setkbd layout => .setkbd layout
  | .a2p c => .a2p c
  | .p2a pos => .p2a pos
  | .qstatus => .send p.busAddress 0x0B 0 0 false
  | .waitidle => .waitrdy 0x0B
  | .qraw o => .send p.busAddress o 0 0 true

/-- The request word of a line. -/
def AsmLine.assemble (p : Params) (l : AsmLine) : Req := encode (l.instr p)

/-! ### The text of a line -/

/-- A token: a word, or the comma between operands. -/
inductive Token where
  | word (cs : List Char)
  | comma
  deriving DecidableEq, Repr

/-- The words and commas of a text, split at blanks. -/
def lexLine : List Char → List Token
  | [] => []
  | ' ' :: cs => lexLine cs
  | ',' :: cs => .comma :: lexLine cs
  | c :: cs =>
    match cs, lexLine cs with
    | ' ' :: _, ts => .word [c] :: ts
    | _, .word w :: ts => .word (c :: w) :: ts
    | _, ts => .word [c] :: ts

/-- The value of a digit character, decimal or hexadecimal. -/
def digitVal (c : Char) : Nat :=
  let n := c.toNat
  if 48 ≤ n ∧ n ≤ 57 then n - 48
  else if 65 ≤ n ∧ n ≤ 70 then n - 55
  else if 97 ≤ n ∧ n ≤ 102 then n - 87
  else 16

/-- The number written by digits of a base, most significant first; none on an empty text or a digit out of the base. -/
def digits (base : Nat) (cs : List Char) : Option Nat :=
  if cs.isEmpty ∨ cs.any (fun c => base ≤ digitVal c) then none
  else some (cs.foldl (fun n c => n * base + digitVal c) 0)

/-- A number, hexadecimal `0x..` or decimal (R73). -/
def number : List Char → Option Nat
  | '0' :: 'x' :: cs => digits 16 cs
  | cs => digits 10 cs

/-- A number that fits in n bits (R73). -/
def numberBits (n : Nat) (cs : List Char) : Option (BitVec n) :=
  (number cs).bind fun v => if v < 2 ^ n then some (BitVec.ofNat n v) else none

/-- The operands of a line: words with a comma between each two. -/
def operandList : List Token → Option (List (List Char))
  | [] => some []
  | [.word w] => some [w]
  | .word w :: .comma :: .word v :: ts => (operandList (.word v :: ts)).map (w :: ·)
  | _ => none

/-- SEND's operands before the flag: two to four (R73). -/
def sendOperands (ign : Bool) : List (List Char) → Option AsmLine
  | [a, o] => do return .send (← numberBits 7 a) (← numberBits 8 o) none none ign
  | [a, o, d1] => do return .send (← numberBits 7 a) (← numberBits 8 o) (some (← numberBits 8 d1)) none ign
  | [a, o, d1, d2] => do
    return .send (← numberBits 7 a) (← numberBits 8 o) (some (← numberBits 8 d1)) (some (← numberBits 8 d2)) ign
  | _ => none

/-- The line with a mnemonic and operands (R73, R74). -/
def lineOf : List Char → List (List Char) → Option AsmLine
  | ['S', 'E', 'N', 'D'], ops =>
    if ops.getLast? = some ['I', 'G', 'N'] then sendOperands true ops.dropLast else sendOperands false ops
  | ['W', 'A', 'I', 'T', 'R', 'D', 'Y'], [o] => (numberBits 8 o).map .waitrdy
  | ['R', 'D', 'C', 'M', 'D'], [] => some (.rdcmd false)
  | ['R', 'D', 'C', 'M', 'D'], [['B', 'L', 'K']] => some (.rdcmd true)
  | ['R', 'D', 'K', 'E', 'Y'], [] => some (.rdkey false)
  | ['R', 'D', 'K', 'E', 'Y'], [['B', 'L', 'K']] => some (.rdkey true)
  | ['F', 'L', 'U', 'S', 'H', 'R', 'X'], [] => some .flushrx
  | ['S', 'E', 'T', 'K', 'B', 'D'], [['U', 'S']] => some (.setkbd false)
  | ['S', 'E', 'T', 'K', 'B', 'D'], [['A', 'S', 'C', 'I', 'I']] => some (.setkbd true)
  | ['A', '2', 'P'], [c] => (numberBits 8 c).map .a2p
  | ['P', '2', 'A'], [q] => (numberBits 8 q).map .p2a
  | ['Q', 'S', 'T', 'A', 'T', 'U', 'S'], [] => some .qstatus
  | ['W', 'A', 'I', 'T', 'I', 'D', 'L', 'E'], [] => some .waitidle
  | ['Q', 'R', 'A', 'W'], [o] => (numberBits 8 o).map .qraw
  | _, _ => none

/-- The line a text stands for, if it is one (R73; DESIGN CHOICE notes/assumptions/15.md; safe). -/
def parseLine (text : List Char) : Option AsmLine :=
  match lexLine text with
  | .word m :: ts => (operandList ts).bind (lineOf m)
  | _ => none

/-- The request word a text assembles to (R70, R73, R74). -/
def assembleText (p : Params) (text : List Char) : Option Req := (parseLine text).map (AsmLine.assemble p)

end Sys2Proof.Machine
end

