-- ==== Sys2Proof/Safety.lean ====
section
/-! DEFINITION. What claims about runs are stated in: a safe run, a hold, and the invariant of the machine. -/

namespace Sys2Proof.Safety

open Sys2Proof.Machine

/-- The first n steps from s are all taken: none is refused (R23, R72) or faults. -/
def SafeRun (n : Nat) (s : State) : Prop := ∃ t, Sys2Proof.core.run n s = .next t

/-- The engine holds: an operation is in progress and the engine has no step to take (R13). -/
def Holds (p : Params) (s : State) : Prop := s.isIdle = false ∧ engineStep p s = none

/-- A channel word as the engine transmits it: bit 7 of an address word is 0 (R61), and an opcode or data word has
marker 0 (R62, R65). -/
def SentWordOk (w : Word9) : Prop := w.marker = true → w.getLsbD 7 = false

/-- A frame in transmission is the frame of a valid opcode, and K is a word of it (R32, R100). A poll is addressed to
the bus with data operands 0 (R101). -/
def TxOk (p : Params) (x : TxCtx) (f : TxFrame) : Prop :=
  f.k < f.txn ∧
  ∃ a o d1 d2, validOpcode o = true ∧ f = { loadFrame a o d1 d2 with k := f.k } ∧
    match x with
    | .send _ => True
    | .poll po => a = p.busAddress ∧ po = o ∧ d1 = 0 ∧ d2 = 0

/-- A reception in progress: the registers it fills at its end are still clear, R_PRESENT says whether a word was
taken, and the words before word K, and K itself once it is skipped past, passed their checks (R120, R121, R125). -/
def RxOk (p : Params) (key : Bool) (buf : RxFrame) (k : Nat) (ph : RxPhase) (s : State) : Prop :=
  s.rOpc = 0 ∧ s.rD1 = 0 ∧ s.rD2 = 0 ∧ s.rLen = 0 ∧
  (key = true → s.rClass = .noKeypress ∧ s.rAscii = 0) ∧
  (∀ i < k, wordOk p i (buf.word i) = true) ∧ k ≤ 3 ∧ (2 ≤ k → k ≤ buf.len) ∧
  match ph with
  | .avail _ => s.rPresent = false ∧ k = 0
  | .got => s.rPresent = true
  | .skipped => s.rPresent = true ∧ p.rxAckInterleaved = true ∧ wordOk p k (buf.word k) = true

/-- What an IDLE engine's status registers say of the last operation: the last two columns of the table of R160. -/
def StatusOk (s : State) : Prop :=
  match s.rErr with
  | .noError => s.rField = .fNone
  | .invalidOpcode => s.rField = .fOpc ∧ s.rResp = 0
  | .ackMismatch => s.rField ≠ .fNone ∧ s.rResp ≠ 0
  | .framingError =>
    s.rField ≠ .fNone ∧ s.rPresent = true ∧ s.rOpc = 0 ∧ s.rD1 = 0 ∧ s.rD2 = 0 ∧ s.rLen = 0

/-- The internal state fits the point the engine has reached. -/
def EngineOk (p : Params) (s : State) : Prop :=
  match s.engine with
  | .idle => StatusOk s
  | .busy (.start _) => True
  | .busy (.tx x f _) => TxOk p x f
  | .busy (.rx key buf k ph) => RxOk p key buf k ph s
  | .busy (.flush _) => True

/-- The invariant of the machine: the engine's point and its registers agree, R_POS is a printwheel position (R7 (a),
R141), and every word in TXS is one the engine may send (R61, R62, R65). -/
structure Inv (s : State) : Prop where
  engineOk : EngineOk Config.params s
  posOk : s.rPos ≤ 0x60
  txsOk : ∀ w ∈ s.txs, SentWordOk w

/-! ### Words on the channel, as claims name them -/

/-- The words the receive path carries for exchanges, each an echo and a response (R67, R69). -/
def exchanged (xs : List (Word9 × Word9)) : List Word9 := xs.flatMap fun x => [x.1, x.2]

/-- The words of an inbound frame, each followed by the response word paired with it if the bus interleaves them (R5).
-/
def inbound (interleaved : Bool) (xs : List (Word9 × Word9)) : List Word9 :=
  if interleaved then exchanged xs else xs.map Prod.fst

/-- Every response of these exchanges that SEND checks is an ACK, for a frame of length n (R103). -/
def acked (n : Nat) (xs : List (Word9 × Word9)) : Prop := ∀ x ∈ (if n = 1 then xs.take 1 else xs), x.2 = 0

/-- The last response of these exchanges, 0 if there is none (R26). -/
def lastResponse (xs : List (Word9 × Word9)) : Word9 := (xs.getLast?.map Prod.snd).getD 0

/-- The wire commands with their opcodes (spec/40_wire_commands.md), by frame length. -/
def lengthOneCommands : List ((BusAddr → Byte → Byte → Bool → Instr) × Byte) :=
  [(.opc00, 0x00), (.opc01, 0x01), (.opc07, 0x07), (.opc08, 0x08), (.queryStatus, 0x0B)]

def lengthTwoCommands : List ((BusAddr → Byte → Byte → Bool → Instr) × Byte) :=
  [(.opc05, 0x05), (.opc09, 0x09), (.opc0a, 0x0A), (.opc0d, 0x0D), (.opc0e, 0x0E)]

def lengthThreeCommands : List ((BusAddr → Byte → Byte → Bool → Instr) × Byte) :=
  [(.opc02, 0x02), (.opc03, 0x03), (.opc04, 0x04), (.opc06, 0x06), (.opc0c, 0x0C)]

/-- The instructions that transmit or whose opcode is rejected: SEND, WAITRDY, the wire commands and the invalid
opcodes. -/
def transmits : Instr → Bool
  | .send _ _ _ _ _ | .waitrdy _ => true
  | .rdcmd _ | .rdkey _ | .flushrx | .setkbd _ | .a2p _ | .p2a _ | .reservedHop _ => false
  | .opc00 _ _ _ _ | .opc01 _ _ _ _ | .opc02 _ _ _ _ | .opc03 _ _ _ _ | .opc04 _ _ _ _ | .opc05 _ _ _ _ | .opc06 _ _ _ _
  | .opc07 _ _ _ _ | .opc08 _ _ _ _ | .opc09 _ _ _ _ | .opc0a _ _ _ _ | .queryStatus _ _ _ _ | .opc0c _ _ _ _
  | .opc0d _ _ _ _ | .opc0e _ _ _ _ | .invalidOpc0f _ | .invalidOpc10_1f _ _ | .invalidOpc20_3f _ _
  | .invalidOpc40_7f _ _ | .invalidOpc80_ff _ _ => true

/-- One turn of the engine, and then the given turns again and again without end. -/
def repeatedAfterOneStep (ts : List Turn) : Schedule :=
  match ts with
  | [] => ⟨[.engine], .quiet⟩
  | t :: rest => ⟨[.engine], .again t rest⟩

/-- The environment appends these words one after another. -/
def arrivals (ws : List Word9) : List Turn := ws.map .env

/-- Arrivals as fast as FLUSHRX reads: it tests, and then without end it reads, the word arrives, and it tests (R127).
-/
def endlessArrivals (w : Word9) : Schedule := repeatedAfterOneStep [.engine, .env w, .engine]

/-- A bus that answers every poll alike: the address word of a poll is out, and without end the echoes and responses
of a whole poll arrive and the engine takes the three steps of each of its words, of which the last starts the next
poll (R101). -/
def endlessAnswers (xs : List (Word9 × Word9)) : Schedule :=
  repeatedAfterOneStep (arrivals (exchanged xs) ++ List.replicate (3 * xs.length) .engine)

/-- From this state on the machine runs without end and STATE is BUSY all the time: the run R13 and R163 keep. -/
def NeverEnds (s : State) : Prop := ∀ n, ∃ t : State, Sys2Proof.core.run n s = .next t ∧ t.isIdle = false

/-- The next engine step is a ChanAvailable: the first of FLUSHRX and of a non-blocking RDCMD or RDKEY, and that of
FLUSHRX after a read (R13, R120, R127). -/
def TestsAvailable (s : State) : Prop :=
  s.engine = .busy (.start .flushrx) ∨ s.engine = .busy (.start (.rdcmd false)) ∨
  s.engine = .busy (.start (.rdkey false)) ∨ s.engine = .busy (.flush .read)

/-- The engine is IDLE and no other agent moves: an operation requested now runs undisturbed (notes/assumptions/2.md).
-/
def Alone (s : State) : Prop := s.isIdle = true ∧ s.turns.next = none

end Sys2Proof.Safety
end

