-- ==== Sys2Proof/Certificates/Slice0/Obligations.lean ====
section
/-! DEFINITION. The statements for the provers. An operation is said to run undisturbed when the engine is IDLE and no
other agent has a turn (`Alone`). That its engine steps then make one machine step is the model's choice
(notes/assumptions/2.md): `SingleStepsReachTheSameState` says that the single steps of R13 reach the same state. The
statements about single steps, refusals and write sets hold for every order of turns, ending or not. -/

open Sys2Proof Sys2Proof.Machine Sys2Proof.Safety

/-! ### Encoding -/

/-- Decoding the encoding of a well-formed instruction, at its layer, gives it back, with every operand at every value
(R70, R71, R72, R95, R96). -/
def Obligations.DecodeEncodeAgree : Prop :=
  ∀ i : Instr, i.wf = true → decodeAt i.level (encode i) = .ok i

/-- The fields of a request that its operation does not read, by the table of R71, are ignored: two REQ words with the
same HOP that agree in the fields the operation reads decode to the same instruction, and a reserved HOP reads no
field (R71, R72). -/
def Obligations.UnreadFieldsAreIgnored : Prop :=
  ∀ r r' : Req, reqHop r = reqHop r' →
    (reqHop r = 0x0 → reqAddr r = reqAddr r' ∧ reqOpc r = reqOpc r' ∧ reqD1 r = reqD1 r' ∧ reqD2 r = reqD2 r' ∧
      reqF r = reqF r') →
    (reqHop r = 0x1 → reqOpc r = reqOpc r') →
    (reqHop r = 0x2 ∨ reqHop r = 0x3 ∨ reqHop r = 0x5 → reqF r = reqF r') →
    (reqHop r = 0x6 ∨ reqHop r = 0x7 → reqD1 r = reqD1 r') →
    decodeReq r = decodeReq r' ∧ (0x8 ≤ reqHop r → decodeReq r = .reservedHop (reqHop r))

/-- Words of spec/95_test_vectors.md (E1, E2, V73 to V80) decode to the operations written beside them there. -/
def Obligations.SampleWordsDecode : Prop :=
  decodeReq 0x332A85A10 = .send 0x21 0x0B 0x55 0x66 false ∧
  decodeReq 0xFFFFFFFF0 = .send 0x7F 0xFF 0xFF 0xFF true ∧
  decodeReq 0x000005801 = .waitrdy 0x0B ∧
  decodeReq 0x800000002 = .rdcmd true ∧
  decodeReq 0x000000003 = .rdkey false ∧
  decodeReq 0x000000004 = .flushrx ∧
  decodeReq 0x800000005 = .setkbd true ∧
  decodeReq 0x003080006 = .a2p 0x61 ∧
  decodeReq 0x000800007 = .p2a 0x10 ∧
  decodeReq 0x000000008 = .reservedHop 0x8 ∧
  decodeCommand 0x696883210 = .ok (.opc06 0x21 0xD1 0xD2 false) ∧
  decodeCommand 0x696885A10 = .ok (.queryStatus 0x21 0xD1 0xD2 false) ∧
  decodeCommand 0x00000DA10 = .ok (.invalidOpc10_1f .send 0x1B) ∧
  decodeCommand 0x000007801 = .ok (.invalidOpc0f .waitrdy)

/-- The pseudo-operations stand for the host operations R74 gives them. -/
def Obligations.PseudoOperationsExpand : Prop :=
  ∀ (p : Params) (o : Byte),
    AsmLine.instr p .qstatus = .send p.busAddress 0x0B 0 0 false ∧
    AsmLine.instr p .waitidle = .waitrdy 0x0B ∧
    AsmLine.instr p (.qraw o) = .send p.busAddress o 0 0 true

/-! ### The step -/

/-- The host's turn runs the decoded request: step is exec of the instruction the REQ word decodes to, in the state
with REQ written and the turn taken (R22, R23). -/
def Obligations.StepRunsTheDecodedRequest : Prop :=
  ∀ (s : State) (r : Req) (ts : Schedule), s.turns.next = some (.host r, ts) →
    step s = exec (decodeReq r) { s with req := r, turns := ts }

/-- The word of an opcode-table row, placed by withFetchWord, is run by the next step as the instruction the decoder
reads from it, a wire command or invalid opcode among them (R70, R71; spec/40_wire_commands.md). That the rows share
one number space is the model's choice (notes/assumptions/14.md). -/
def Obligations.StepRunsTheTableWord : Prop :=
  ∀ (s : State) (nbits w : Nat) (i : Instr), decodeTableWord nbits w = some i →
    ∃ r, step (s.withFetchWord nbits w) = exec i { s with engine := .idle, req := r }

/-- A SEND of a valid opcode is the wire command of that opcode, which is one of the fifteen (R62, R63). -/
def Obligations.SendIsTheWireCommand : Prop :=
  ∀ (a : BusAddr) (o d1 d2 : Byte) (ign : Bool), validOpcode o = true →
    (∀ s, exec (.send a o d1 d2 ign) s = exec (wireCommand a o d1 d2 ign) s) ∧
    ∃ c ∈ lengthOneCommands ++ lengthTwoCommands ++ lengthThreeCommands,
      c.2 = o ∧ wireCommand a o d1 d2 ign = c.1 a d1 d2 ign

/-- An engine turn gives an operation in progress one engine step, and a hold none (R13). With no turn left the
operation in progress is taken to its end or to a hold, and the state it then has is the one that single engine turns
reach: that these steps are taken together is the model's choice (notes/assumptions/2.md). -/
def Obligations.StepContinuesTheOperation : Prop :=
  ∀ s : State,
    (∀ ts, s.turns.next = some (.engine, ts) →
      (∀ t, engineStep Config.params { s with turns := ts } = some t → step s = .next t) ∧
      (engineStep Config.params { s with turns := ts } = none → step s = .next { s with turns := ts })) ∧
    (s.turns.next = none →
      ∃ (t : State) (n : Nat), step s = .next t ∧
        Sys2Proof.core.run n { s with turns := ⟨List.replicate n .engine, .quiet⟩ } = .next t ∧
        (t.isIdle = true ∨ Holds Config.params t))

/-- The environment's turn appends its word to the tail of RXQ and changes nothing else (R14, R30). -/
def Obligations.EnvironmentAppendsToQueue : Prop :=
  ∀ (s : State) (w : Word9) (ts : Schedule), s.turns.next = some (.env w, ts) →
    step s = .next { s with rxq := s.rxq ++ [w], turns := ts }

/-- While the engine holds or is IDLE with no turn left, a step changes nothing: the engine takes no step until the
environment appends a word or the host writes a request. An engine turn during a hold is passed over. A hold is lifted
by the environment: with a word appended the engine has a step to take (R10, R13, R182). -/
def Obligations.HoldTakesNoStep : Prop :=
  ∀ s : State,
    (s.turns.next = none → (s.isIdle = true ∨ Holds Config.params s) → step s = .next s) ∧
    (∀ ts, s.turns.next = some (.engine, ts) → Holds Config.params s → step s = .next { s with turns := ts }) ∧
    (∀ w, Holds Config.params s → ∃ t, engineStep Config.params (envAppend w s) = some t)

/-- Words may arrive between any two engine steps, and the engine's behaviour depends only on the words RXQ delivers,
not on when they come: an engine step that is no ChanAvailable gives the same state whether a word is appended before
it or after it (R14, R49). -/
def Obligations.ArrivalsCommuteWithEngineSteps : Prop :=
  ∀ (p : Params) (s t : State) (w : Word9), ¬ TestsAvailable s → engineStep p s = some t →
    engineStep p (envAppend w s) = some (envAppend w t)

/-- One engine turn makes at most one channel call: it appends at most one word to TXS or takes at most one word from
the head of RXQ, and never both (R13, R47). -/
def Obligations.OneTurnMakesOneChannelCall : Prop :=
  ∀ (s t : State) (ts : Schedule), s.turns.next = some (.engine, ts) → step s = .next t →
    (t.txs = s.txs ∧ t.rxq = s.rxq) ∨
    (∃ w, t.txs = s.txs ++ [w] ∧ t.rxq = s.rxq) ∨
    (∃ w, t.txs = s.txs ∧ s.rxq = w :: t.rxq)

/-- Every step only appends to TXS, and takes words from the head of RXQ or appends one to its tail: words are never
reordered, changed or taken back, by a reset either (R30, R31, R49, R181). -/
def Obligations.ChannelsAreFirstInFirstOut : Prop :=
  ∀ s t : State, step s = .next t →
    (∃ sent, t.txs = s.txs ++ sent) ∧
    ((∃ taken, s.rxq = taken ++ t.rxq) ∨ (∃ w, t.rxq = s.rxq ++ [w]))

/-- An operation that runs undisturbed ends or holds, whatever RXQ holds (R13, R163). -/
def Obligations.UndisturbedOperationEndsOrHolds : Prop :=
  ∀ (i : Instr) (s t : State), Alone s → exec i s = .next t →
    t.turns = s.turns ∧ (t.isIdle = true ∨ (Holds Config.params t ∧ t.rxq = []))

/-- Enough engine turns, one engine step each, bring an operation to the very state it reaches when its steps are
taken together: the two granularities of the machine agree (R13), which is what the model's choice of taking them
together rests on (notes/assumptions/2.md). -/
def Obligations.SingleStepsReachTheSameState : Prop :=
  ∀ (i : Instr) (s t : State) (n : Nat), Alone s → exec i s = .next t → stepBound s ≤ n →
    ∃ u, exec i { s with turns := ⟨List.replicate (n + 1) .engine, .quiet⟩ } = .next u ∧ Sys2Proof.core.run n u = .next t

/-! ### Reset, refusals -/

/-- A reset turn (R180, R181): STATE is IDLE, every register has its reset value, an operation in progress is
abandoned with no error recorded, RXQ is unchanged and the words in TXS stay. (notes/assumptions/6.md: R34 calls TXS
empty at reset, as a record that starts there). -/
def Obligations.ResetTurnResets : Prop :=
  ∀ (s : State) (ts : Schedule), s.turns.next = some (.reset, ts) →
    ∃ t, step s = .next t ∧ t.isIdle = true ∧ t.kbd = .us ∧ t.rErr = .noError ∧ t.rField = .fNone ∧ t.rResp = 0 ∧
      t.rPresent = false ∧ t.rOpc = 0 ∧ t.rD1 = 0 ∧ t.rD2 = 0 ∧ t.rLen = 0 ∧ t.rClass = .noCommand ∧ t.rAscii = 0 ∧
      t.rPos = 0 ∧ t.rxq = s.rxq ∧ t.txs = s.txs ∧ t.turns = ts

/-- The state right after reset has every register at the reset value of R34, and TXS empty. RXQ and REQ are left out:
their values at reset are the model's choice (notes/assumptions/4.md, 5.md). -/
def Obligations.ResetStateValues : Prop :=
  State.reset.isIdle = true ∧ State.reset.kbd = .us ∧ State.reset.rErr = .noError ∧ State.reset.rField = .fNone ∧
  State.reset.rResp = 0 ∧ State.reset.rPresent = false ∧ State.reset.rOpc = 0 ∧ State.reset.rD1 = 0 ∧
  State.reset.rD2 = 0 ∧ State.reset.rLen = 0 ∧ State.reset.rClass = .noCommand ∧ State.reset.rAscii = 0 ∧
  State.reset.rPos = 0 ∧ State.reset.txs = []

/-- A request while STATE = BUSY is refused, whatever it is: as an instruction, and as a REQ the host writes (R23,
R51, R185). That a reserved HOP is then refused as a reserved operation, and not as a request while BUSY, is the
model's choice (notes/assumptions/17.md). -/
def Obligations.BusyEngineRefusesRequests : Prop :=
  ∀ s : State, s.isIdle = false →
    (∀ i : Instr, (∀ h, i ≠ .reservedHop h) → exec i s = .refused .requestWhileBusy) ∧
    (∀ h, exec (.reservedHop h) s = .refused (.reservedOperation h)) ∧
    (∀ r ts, s.turns.next = some (.host r, ts) → ∃ q, step s = .refused q)

/-- A REQ whose HOP is 0x8 to 0xF is refused in every state: the reserved operation has no meaning (R72, and R23 while
BUSY). That the refusal names the reserved operation while BUSY too is the model's choice (notes/assumptions/17.md).
-/
def Obligations.ReservedRequestIsRefused : Prop :=
  ∀ (s : State) (h : BitVec 4), exec (.reservedHop h) s = .refused (.reservedOperation h) ∧
    ∀ r ts, s.turns.next = some (.host r, ts) → 0x8 ≤ reqHop r → step s = .refused (.reservedOperation (reqHop r))

/-- What the host reads, in any state (R23 to R29): the result registers, and the codes of R_ERR, R_FIELD and R_CLASS
(R24, R25, R28, R126, R160, R161). That STATE reads as 0 for IDLE and 1 for BUSY is the model's choice
(notes/assumptions/13.md). -/
def Obligations.HostReadsTheRegisters : Prop :=
  ∀ s : State,
    s.hostRead .rResp = s.rResp.toNat ∧ s.hostRead .rOpc = s.rOpc.toNat ∧ s.hostRead .rD1 = s.rD1.toNat ∧
    s.hostRead .rD2 = s.rD2.toNat ∧ s.hostRead .rLen = s.rLen.toNat ∧ s.hostRead .rAscii = s.rAscii.toNat ∧
    s.hostRead .rPos = s.rPos.toNat ∧ s.hostRead .rPresent = (if s.rPresent then 1 else 0) ∧
    (s.rErr = .noError → s.hostRead .rErr = 0) ∧ (s.rErr = .invalidOpcode → s.hostRead .rErr = 1) ∧
    (s.rErr = .ackMismatch → s.hostRead .rErr = 2) ∧ (s.rErr = .framingError → s.hostRead .rErr = 3) ∧
    (s.rField = .fNone → s.hostRead .rField = 0) ∧ (s.rField = .fAddr → s.hostRead .rField = 1) ∧
    (s.rField = .fOpc → s.hostRead .rField = 2) ∧ (s.rField = .fD1 → s.hostRead .rField = 3) ∧
    (s.rField = .fD2 → s.hostRead .rField = 4) ∧
    (s.rClass = .noCommand → s.hostRead .rClass = 0) ∧ (s.rClass = .noKeypress → s.hostRead .rClass = 1) ∧
    (s.rClass = .character → s.hostRead .rClass = 2) ∧ (s.rClass = .carriageReturn → s.hostRead .rClass = 3) ∧
    (s.rClass = .space → s.hostRead .rClass = 4) ∧ (s.rClass = .backspace → s.hostRead .rClass = 5) ∧
    (s.isIdle = true → s.hostRead .state = 0) ∧ (s.isIdle = false → s.hostRead .state = 1)

/-! ### SEND and the wire commands -/

/-- SEND, undisturbed, with an echo and a response for every word, every checked response an ACK or ign set: it ends
without error, TXS gains the frame, each word's echo and response are taken, R_RESP is the last response, and nothing
else changes (R66, R69, R100, R103). -/
def Obligations.SendCompletes : Prop :=
  ∀ (a : BusAddr) (o d1 d2 : Byte) (ign : Bool) (s : State) (xs : List (Word9 × Word9)) (rest : List Word9),
    Alone s → validOpcode o = true → xs.length = frameLen o + 1 → (ign = true ∨ acked (frameLen o) xs) →
    s.rxq = exchanged xs ++ rest →
    exec (.send a o d1 d2 ign) s =
      .next { s with
        rErr := .noError, rField := .fNone, rResp := lastResponse xs, txs := s.txs ++ frame a o d1 d2, rxq := rest }

/-- The wire commands of length 1 (opcodes 0x00, 0x01, 0x07, 0x08, 0x0B), undisturbed. With the responses read they
send the address word and the opcode word and end with R_RESP the opcode's response, which is not checked. A non-zero
response to the address word aborts the frame with ACK_MISMATCH and F_ADDR unless ign is set. On a bus that falls
silent they hold. Data operands are not sent and have no effect (R80, R81, R87, R88, R91). -/
def Obligations.LengthOneCommandsRun : Prop :=
  ∀ c ∈ lengthOneCommands, ∀ (a : BusAddr) (d1 d2 : Byte) (ign : Bool) (s : State), Alone s →
    (∀ e0 r0 e1 r1 rest, s.rxq = e0 :: r0 :: e1 :: r1 :: rest → (ign = true ∨ r0 = 0) →
      exec (c.1 a d1 d2 ign) s =
        .next { s with
          rErr := .noError, rField := .fNone, rResp := r1, txs := s.txs ++ [addrWord a, opcWord c.2], rxq := rest }) ∧
    (∀ e0 r0 rest, s.rxq = e0 :: r0 :: rest → ign = false → r0 ≠ 0 →
      exec (c.1 a d1 d2 ign) s =
        .next { s with
          rErr := .ackMismatch, rField := .fAddr, rResp := r0, txs := s.txs ++ [addrWord a], rxq := rest }) ∧
    (s.rxq.length ≤ 1 →
      ∃ t, exec (c.1 a d1 d2 ign) s = .next t ∧ Holds Config.params t ∧ t.rxq = [] ∧ t.txs = s.txs ++ [addrWord a]) ∧
    (∀ e0 r0 tail, s.rxq = e0 :: r0 :: tail → tail.length ≤ 1 → (ign = true ∨ r0 = 0) →
      ∃ t, exec (c.1 a d1 d2 ign) s = .next t ∧ Holds Config.params t ∧ t.rxq = [] ∧
        t.txs = s.txs ++ [addrWord a, opcWord c.2])

/-- The wire commands of length 2 (opcodes 0x05, 0x09, 0x0A, 0x0D, 0x0E), undisturbed. With a response for every word,
each an ACK or ign set, they send the address word, the opcode word and the first data word, d2 not being sent, and
end with R_RESP the last response. With ign = 0 the first response that is not an ACK aborts the frame with
ACK_MISMATCH and the field of its word, R_RESP that response. On a bus that falls silent they hold (R85, R89, R90,
R93, R94). -/
def Obligations.LengthTwoCommandsRun : Prop :=
  ∀ c ∈ lengthTwoCommands, ∀ (a : BusAddr) (d1 d2 : Byte) (ign : Bool) (s : State), Alone s →
    (∀ e0 r0 e1 r1 e2 r2 rest, s.rxq = e0 :: r0 :: e1 :: r1 :: e2 :: r2 :: rest →
        (ign = true ∨ (r0 = 0 ∧ r1 = 0 ∧ r2 = 0)) →
      exec (c.1 a d1 d2 ign) s =
        .next { s with
          rErr := .noError, rField := .fNone, rResp := r2,
          txs := s.txs ++ [addrWord a, opcWord c.2, dataWord d1], rxq := rest }) ∧
    (∀ xs e r rest, s.rxq = exchanged xs ++ e :: r :: rest → xs.length ≤ 2 → (∀ x ∈ xs, x.2 = 0) → ign = false →
        r ≠ 0 →
      exec (c.1 a d1 d2 ign) s =
        .next { s with
          rErr := .ackMismatch, rField := fieldCode xs.length, rResp := r,
          txs := s.txs ++ [addrWord a, opcWord c.2, dataWord d1].take (xs.length + 1), rxq := rest }) ∧
    (∀ xs tail, s.rxq = exchanged xs ++ tail → xs.length ≤ 2 → tail.length ≤ 1 →
        (ign = true ∨ ∀ x ∈ xs, x.2 = 0) →
      ∃ t, exec (c.1 a d1 d2 ign) s = .next t ∧ Holds Config.params t ∧ t.rxq = [] ∧
        t.txs = s.txs ++ [addrWord a, opcWord c.2, dataWord d1].take (xs.length + 1))

/-- The wire commands of length 3 (opcodes 0x02, 0x03, 0x04, 0x06, 0x0C), undisturbed. With a response for every word,
each an ACK or ign set, they send the address word, the opcode word and both data words, even when zero, and end with
R_RESP the last response. With ign = 0 the first response that is not an ACK aborts the frame with ACK_MISMATCH and
the field of its word, R_RESP that response. On a bus that falls silent they hold (R82, R83, R84, R86, R92). -/
def Obligations.LengthThreeCommandsRun : Prop :=
  ∀ c ∈ lengthThreeCommands, ∀ (a : BusAddr) (d1 d2 : Byte) (ign : Bool) (s : State), Alone s →
    (∀ e0 r0 e1 r1 e2 r2 e3 r3 rest, s.rxq = e0 :: r0 :: e1 :: r1 :: e2 :: r2 :: e3 :: r3 :: rest →
        (ign = true ∨ (r0 = 0 ∧ r1 = 0 ∧ r2 = 0 ∧ r3 = 0)) →
      exec (c.1 a d1 d2 ign) s =
        .next { s with
          rErr := .noError, rField := .fNone, rResp := r3,
          txs := s.txs ++ [addrWord a, opcWord c.2, dataWord d1, dataWord d2], rxq := rest }) ∧
    (∀ xs e r rest, s.rxq = exchanged xs ++ e :: r :: rest → xs.length ≤ 3 → (∀ x ∈ xs, x.2 = 0) → ign = false →
        r ≠ 0 →
      exec (c.1 a d1 d2 ign) s =
        .next { s with
          rErr := .ackMismatch, rField := fieldCode xs.length, rResp := r,
          txs := s.txs ++ [addrWord a, opcWord c.2, dataWord d1, dataWord d2].take (xs.length + 1), rxq := rest }) ∧
    (∀ xs tail, s.rxq = exchanged xs ++ tail → xs.length ≤ 3 → tail.length ≤ 1 →
        (ign = true ∨ ∀ x ∈ xs, x.2 = 0) →
      ∃ t, exec (c.1 a d1 d2 ign) s = .next t ∧ Holds Config.params t ∧ t.rxq = [] ∧
        t.txs = s.txs ++ [addrWord a, opcWord c.2, dataWord d1, dataWord d2].take (xs.length + 1))

/-- The ACK checker, for SEND and every wire command, undisturbed, with ign = 0 (R103). After exchanges whose
responses are ACKs, a response r ≠ 0 to frame word K that is checked raises ACK_MISMATCH with the field of K at once:
no later word is written or read, the K + 1 words already in TXS stay, and R_RESP is r. The response to the opcode
word of a frame of length 1 is not checked and raises nothing. -/
def Obligations.AckMismatchAbortsTheFrame : Prop :=
  ∀ (a : BusAddr) (o d1 d2 : Byte) (s : State) (xs : List (Word9 × Word9)) (e r : Word9) (rest : List Word9),
    Alone s → validOpcode o = true → xs.length ≤ frameLen o → (∀ x ∈ xs, x.2 = 0) → r ≠ 0 →
    s.rxq = exchanged xs ++ e :: r :: rest →
    ∀ i ∈ [Instr.send a o d1 d2 false, wireCommand a o d1 d2 false],
      (¬ (frameLen o = 1 ∧ xs.length = 1) →
        exec i s =
          .next { s with
            rErr := .ackMismatch, rField := fieldCode xs.length, rResp := r,
            txs := s.txs ++ (frame a o d1 d2).take (xs.length + 1), rxq := rest }) ∧
      (frameLen o = 1 ∧ xs.length = 1 →
        ∃ t, exec i s = .next t ∧ t.isIdle = true ∧ t.rErr = .noError ∧ t.rResp = r ∧ t.rxq = rest)

/-- On a bus that falls silent SEND and every wire command hold: after K whole exchanges that raise nothing, and at
most the echo of the next word, the engine is BUSY at a ChanRead with RXQ empty, and TXS has gained K + 1 words of the
frame (R13, R48, R163). -/
def Obligations.SendHoldsOnASilentBus : Prop :=
  ∀ (a : BusAddr) (o d1 d2 : Byte) (ign : Bool) (s : State) (xs : List (Word9 × Word9)) (tail : List Word9),
    Alone s → validOpcode o = true → xs.length ≤ frameLen o → (ign = true ∨ ∀ x ∈ xs, x.2 = 0) → tail.length ≤ 1 →
    s.rxq = exchanged xs ++ tail →
    ∀ i ∈ [Instr.send a o d1 d2 ign, wireCommand a o d1 d2 ign],
      ∃ t, exec i s = .next t ∧ Holds Config.params t ∧ t.rxq = [] ∧
        t.txs = s.txs ++ (frame a o d1 d2).take (xs.length + 1)

/-- An opcode operand above 0x0E is rejected before any channel step, by SEND and by WAITRDY, tested on all 8 bits:
INVALID_OPCODE, F_OPC, R_RESP 0, and TXS, RXQ and every other register unchanged. The row of the operand does the
same. LEN of 0x0F is 0 (R95, R96). -/
def Obligations.InvalidOpcodesAreRejected : Prop :=
  frameLen 0x0F = 0 ∧ ∀ s : State, Alone s → ∀ (o : Byte), 0x0E < o →
    ∀ (a : BusAddr) (d1 d2 : Byte) (ign : Bool) (u : OpcUser),
    ∀ i ∈ [Instr.send a o d1 d2 ign, .waitrdy o, invalidOpcode u o],
      exec i s = .next { s with rErr := .invalidOpcode, rField := .fOpc, rResp := 0 }

/-- Each row of invalid operands, for every operand the row admits, rejects as R95 and R96 say. -/
def Obligations.InvalidOpcodeRowsReject : Prop :=
  ∀ s : State, Alone s → ∀ (u : OpcUser) (o : Byte),
    ∀ i ∈ [Instr.invalidOpc0f u, .invalidOpc10_1f u o, .invalidOpc20_3f u o, .invalidOpc40_7f u o, .invalidOpc80_ff u o],
      i.wf = true → exec i s = .next { s with rErr := .invalidOpcode, rField := .fOpc, rResp := 0 }

/-- The engine never looks at an echo: two runs of a SEND whose exchanges carry the same responses end in the same
state but for what is left in RXQ, whatever their echoes (R102). -/
def Obligations.EchoesAreIgnored : Prop :=
  ∀ (a : BusAddr) (o d1 d2 : Byte) (ign : Bool) (s : State) (xs ys : List (Word9 × Word9)) (rest : List Word9),
    Alone s → validOpcode o = true → xs.length = frameLen o + 1 → xs.map Prod.snd = ys.map Prod.snd →
    ∃ t u, exec (.send a o d1 d2 ign) { s with rxq := exchanged xs ++ rest } = .next t ∧
      exec (.send a o d1 d2 ign) { s with rxq := exchanged ys ++ rest } = .next u ∧
      t.rxq.length = u.rxq.length ∧ { t with rxq := [] } = { u with rxq := [] }

/-! ### WAITRDY -/

/-- WAITRDY, undisturbed, polls until the last response of a poll is 0: after any number of busy polls and one idle
one it ends without error with R_RESP 0, TXS has gained one whole frame to BUS_ADDRESS for each poll, and nothing else
changes. No response is ACK-checked (R101). -/
def Obligations.WaitrdyPollsUntilIdle : Prop :=
  ∀ (o : Byte) (s : State) (busy : List (List (Word9 × Word9))) (last : List (Word9 × Word9)) (rest : List Word9),
    Alone s → validOpcode o = true → (∀ xs ∈ busy, xs.length = frameLen o + 1 ∧ lastResponse xs ≠ 0) →
    last.length = frameLen o + 1 → lastResponse last = 0 →
    s.rxq = exchanged (busy.flatten ++ last) ++ rest →
    exec (.waitrdy o) s =
      .next { s with
        rErr := .noError, rField := .fNone, rResp := 0,
        txs := s.txs ++ (List.replicate (busy.length + 1) (frame Config.params.busAddress o 0 0)).flatten,
        rxq := rest }

/-- While every poll reports busy WAITRDY does not end: when the words run out it holds in the next poll, whose
address word is out (R101, R163, R186). -/
def Obligations.WaitrdyHoldsWhileBusy : Prop :=
  ∀ (o : Byte) (s : State) (busy : List (List (Word9 × Word9))),
    Alone s → validOpcode o = true → (∀ xs ∈ busy, xs.length = frameLen o + 1 ∧ lastResponse xs ≠ 0) →
    s.rxq = exchanged busy.flatten →
    ∃ t, exec (.waitrdy o) s = .next t ∧ Holds Config.params t ∧
      t.txs = s.txs ++ (List.replicate busy.length (frame Config.params.busAddress o 0 0)).flatten ++
        [addrWord Config.params.busAddress]

/-- On a bus that answers every poll with a status that is not 0 WAITRDY never ends: it runs without end, is BUSY all
the time, and sends one poll after another (R13, R101, R163). -/
def Obligations.WaitrdyNeverEndsOnABusyDevice : Prop :=
  ∀ (o : Byte) (s : State) (xs : List (Word9 × Word9)), s.isIdle = true → validOpcode o = true →
    xs.length = frameLen o + 1 → lastResponse xs ≠ 0 → s.rxq = [] → s.turns = endlessAnswers xs →
    ∃ t, exec (.waitrdy o) s = .next t ∧ NeverEnds t ∧
      ∀ m : Nat, ∃ (n : Nat) (u : State), Sys2Proof.core.run n t = .next u ∧
        u.txs = s.txs ++ (List.replicate m (frame Config.params.busAddress o 0 0)).flatten ++
          [addrWord Config.params.busAddress]

/-- R_RESP is 0 whenever WAITRDY ends without error, and it ends with no error but INVALID_OPCODE: in every state an
engine step of a poll can end in, whatever was read (R101). -/
def Obligations.WaitrdyEndsOnlyOnStatusZero : Prop :=
  ∀ (p : Params) (s t : State) (o : Byte) (f : TxFrame) (ph : TxPhase),
    s.engine = .busy (.tx (.poll o) f ph) → engineStep p s = some t → t.isIdle = true →
    t.rErr = .noError ∧ t.rField = .fNone ∧ t.rResp = 0

/-! ### RDCMD, RDKEY, FLUSHRX -/

/-- A non-blocking RDCMD or RDKEY, undisturbed, with RXQ empty ends at once: R_PRESENT and the frame registers are 0,
there is no error and no ChanRead, and RDKEY's class is NO_COMMAND with R_ASCII 0 (R120, R123, R125). -/
def Obligations.NothingPendingEndsAtOnce : Prop :=
  ∀ s : State, Alone s → s.rxq = [] →
    exec (.rdcmd false) s =
      .next { s with
        rErr := .noError, rField := .fNone, rPresent := false, rOpc := 0, rD1 := 0, rD2 := 0, rLen := 0 } ∧
    exec (.rdkey false) s =
      .next { s with
        rErr := .noError, rField := .fNone, rPresent := false, rOpc := 0, rD1 := 0, rD2 := 0, rLen := 0,
        rClass := .noCommand, rAscii := 0 }

/-- RDCMD, blocking or not, undisturbed, with a whole frame to the bus address in RXQ, interleaved with response words
or not as the bus has it: it takes exactly the frame's words, R_PRESENT is 1, the frame registers hold its opcode, its
data or 0, and its LEN, and nothing else changes (R120, R121). -/
def Obligations.RdcmdTakesOneFrame : Prop :=
  ∀ (blk : Bool) (o d1 d2 : Byte) (s : State) (xs : List (Word9 × Word9)) (rest : List Word9),
    Alone s → validOpcode o = true → xs.map Prod.fst = frame Config.params.busAddress o d1 d2 →
    s.rxq = inbound Config.params.rxAckInterleaved xs ++ rest →
    exec (.rdcmd blk) s =
      .next { s with
        rErr := .noError, rField := .fNone, rPresent := true, rOpc := o,
        rD1 := if 2 ≤ frameLen o then d1 else 0, rD2 := if frameLen o = 3 then d2 else 0,
        rLen := BitVec.ofNat 2 (frameLen o), rxq := rest }

/-- An inbound word that fails its check ends RDCMD and RDKEY with FRAMING_ERROR and the field of the word,
undisturbed. A first word other than the bus's address word, an opcode word with marker 1 or payload above 0x0E, and a
data word with marker 1 fail. The words before it and the word itself are consumed and no other; R_PRESENT is 1 and
the frame registers are 0; RDKEY's class is NO_KEYPRESS with R_ASCII 0 (R121, R122, R125, R160). -/
def Obligations.FramingErrorsStopTheFrame : Prop :=
  ∀ (blk : Bool) (o d1 d2 : Byte) (s : State) (xs : List (Word9 × Word9)) (w : Word9) (rest : List Word9),
    Alone s → validOpcode o = true → xs.length ≤ frameLen o →
    xs.map Prod.fst = (frame Config.params.busAddress o d1 d2).take xs.length →
    (xs.length = 0 → w ≠ addrWord Config.params.busAddress) →
    (xs.length = 1 → w.marker = true ∨ 0x0E < w.payload) →
    (2 ≤ xs.length → w.marker = true) →
    s.rxq = inbound Config.params.rxAckInterleaved xs ++ w :: rest →
    exec (.rdcmd blk) s =
      .next { s with
        rErr := .framingError, rField := fieldCode xs.length, rPresent := true, rOpc := 0, rD1 := 0, rD2 := 0,
        rLen := 0, rxq := rest } ∧
    exec (.rdkey blk) s =
      .next { s with
        rErr := .framingError, rField := fieldCode xs.length, rPresent := true, rOpc := 0, rD1 := 0, rD2 := 0,
        rLen := 0, rClass := .noKeypress, rAscii := 0, rxq := rest }

/-- A frame cut short after its first word holds RDCMD and RDKEY, blocking or not, with R_PRESENT 1, and a blocking
one holds on an empty RXQ too. Where the bus interleaves response words, a frame cut between an accepted word and its
response word, the last word's response among them, holds them as well. For every machine of the parameters (R5, R121,
R123, R163). -/
def Obligations.ReceptionHoldsOnACutFrame : Prop :=
  ∀ (p : Params) (key blk : Bool) (o d1 d2 : Byte) (s : State) (xs : List (Word9 × Word9)),
    Alone s → validOpcode o = true → xs.length ≤ frameLen o →
    xs.map Prod.fst = (frame p.busAddress o d1 d2).take xs.length →
    ((blk = true ∨ 1 ≤ xs.length) ∧ s.rxq = inbound p.rxAckInterleaved xs ∨
      p.rxAckInterleaved = true ∧
        ∃ w, (frame p.busAddress o d1 d2)[xs.length]? = some w ∧ s.rxq = inbound p.rxAckInterleaved xs ++ [w]) →
    ∃ t, operate p (if key then .rdkey blk else .rdcmd blk) s = .next t ∧
      (p = Config.params → exec (if key then .rdkey blk else .rdcmd blk) s = .next t) ∧
      Holds p t ∧ t.rxq = [] ∧ t.txs = s.txs ∧ (s.rxq ≠ [] → t.rPresent = true)

/-- RDKEY, undisturbed, with a whole frame in RXQ takes it as RDCMD does and classifies it: a type-and-advance frame is
CHARACTER with the REV entry of its position, or 0 above 0x60; a platen move is RETURN 0x0A with the up bit and
NO_KEYPRESS without; a carriage move is SPACE 0x20 to the right and BACKSPACE 0x08 to the left; any other opcode is
NO_KEYPRESS with ASCII 0 (R124, R125, R126). The spec marks the codes 0x0A and 0x20 as general knowledge
(notes/assumptions/20.md). -/
def Obligations.RdkeyClassifiesTheFrame : Prop :=
  ∀ (blk : Bool) (o d1 d2 : Byte) (s : State) (xs : List (Word9 × Word9)) (rest : List Word9),
    Alone s → validOpcode o = true → xs.map Prod.fst = frame Config.params.busAddress o d1 d2 →
    s.rxq = inbound Config.params.rxAckInterleaved xs ++ rest →
    ∃ t, exec (.rdkey blk) s = .next t ∧
      t = { s with
        rErr := .noError, rField := .fNone, rPresent := true, rOpc := o,
        rD1 := if 2 ≤ frameLen o then d1 else 0, rD2 := if frameLen o = 3 then d2 else 0,
        rLen := BitVec.ofNat 2 (frameLen o), rClass := t.rClass, rAscii := t.rAscii, rxq := rest } ∧
      (o = kpOpcode Config.params.kp.opcType → t.rClass = .character ∧
        (∀ q : Fin 97, (dataField Config.params.kp.charField d1 d2).toNat = q → t.rAscii = Config.params.rom.rev q) ∧
        (0x60 < dataField Config.params.kp.charField d1 d2 → t.rAscii = 0)) ∧
      (o = kpOpcode Config.params.kp.opcPlaten →
        if dataField Config.params.kp.platenUpField d1 d2 &&& Config.params.kp.platenUpMask ≠ 0 then
          t.rClass = .carriageReturn ∧ t.rAscii = 0x0A
        else t.rClass = .noKeypress ∧ t.rAscii = 0) ∧
      (o = kpOpcode Config.params.kp.opcCarriage →
        if (dataField Config.params.kp.carDirField d1 d2 &&& Config.params.kp.carDirMask ≠ 0) ↔
            Config.params.kp.carRightWhenSet = true then
          t.rClass = .space ∧ t.rAscii = 0x20
        else t.rClass = .backspace ∧ t.rAscii = 0x08) ∧
      (o ≠ kpOpcode Config.params.kp.opcType → o ≠ kpOpcode Config.params.kp.opcPlaten →
        o ≠ kpOpcode Config.params.kp.opcCarriage → t.rClass = .noKeypress ∧ t.rAscii = 0)

/-- FLUSHRX, undisturbed, empties RXQ, whatever it holds, and ends without error; nothing else changes (R127). -/
def Obligations.FlushrxEmptiesTheQueue : Prop :=
  ∀ s : State, Alone s → exec .flushrx s = .next { s with rErr := .noError, rField := .fNone, rxq := [] }

/-- While the environment appends a word before each test FLUSHRX never ends: it runs without end and is BUSY all the
time (R13, R127, R163). -/
def Obligations.FlushrxNeverEndsUnderArrivals : Prop :=
  ∀ (w : Word9) (s : State), s.isIdle = true → s.rxq = [w] → s.turns = endlessArrivals w →
    ∃ t, exec .flushrx s = .next t ∧ NeverEnds t

/-! ### Translation -/

/-- SETKBD, undisturbed, writes the layout into KBD, 0 for US and 1 for ASCII, and nothing else but the end of an
operation without error (R140). -/
def Obligations.SetkbdSelectsTheLayout : Prop :=
  ∀ s : State, Alone s →
    exec (.setkbd false) s = .next { s with rErr := .noError, rField := .fNone, kbd := .us } ∧
    exec (.setkbd true) s = .next { s with rErr := .noError, rField := .fNone, kbd := .ascii }

/-- A2P, undisturbed, reads exactly the forward table KBD selects, for every character, into R_POS; the result is at
most 0x60, and a result of 0 is no error (R141, R142). -/
def Obligations.A2pReadsTheSelectedTable : Prop :=
  ∀ (c : Byte) (s : State), Alone s →
    Config.params.rom.fwdUs c ≤ 0x60 ∧ Config.params.rom.fwdAscii c ≤ 0x60 ∧
    (s.kbd = .us →
      exec (.a2p c) s = .next { s with rErr := .noError, rField := .fNone, rPos := Config.params.rom.fwdUs c }) ∧
    (s.kbd = .ascii →
      exec (.a2p c) s = .next { s with rErr := .noError, rField := .fNone, rPos := Config.params.rom.fwdAscii c })

/-- P2A, undisturbed, reads REV into R_ASCII for a position up to 0x60, whatever KBD holds, and gives 0 above (R41,
R143). -/
def Obligations.P2aReadsTheReverseTable : Prop :=
  ∀ (pos : Byte) (s : State), Alone s →
    (∀ q : Fin 97, pos.toNat = q →
      exec (.p2a pos) s = .next { s with rErr := .noError, rField := .fNone, rAscii := Config.params.rom.rev q }) ∧
    (0x60 < pos → exec (.p2a pos) s = .next { s with rErr := .noError, rField := .fNone, rAscii := 0 })

/-- The round trip, for every machine of the parameters: from position 0x01 up, with KBD = 0, P2A p and then A2P of
the R_ASCII it leaves end with R_POS = p, unless p is a duplicate-mapping case (R144). -/
def Obligations.PositionsRoundTrip : Prop :=
  ∀ (p : Params) (q : Fin 97) (s : State), Alone s → s.kbd = .us → q ≠ 0 → ¬ p.rom.duplicate q →
    ∃ t u, operate p (.p2a (BitVec.ofNat 8 q)) s = .next t ∧ operate p (.a2p t.rAscii) t = .next u ∧ u.rPos.toNat = q

/-- The layout changes A2P's answer at punctuation characters only (R7 (c), R142). Which characters those are is
PRESUMED by the model (notes/assumptions/10.md). -/
def Obligations.LayoutMattersOnlyAtPunctuation : Prop :=
  ∀ (c : Byte) (s : State), Alone s → isPunctuation c = false →
    ∃ t u, exec (.a2p c) { s with kbd := .us } = .next t ∧ exec (.a2p c) { s with kbd := .ascii } = .next u ∧
      t.rPos = u.rPos ∧ t.rErr = .noError ∧ u.rErr = .noError

/-- KBD is read by A2P alone and written by SETKBD alone: under any turns, changing it changes nothing else that any
other instruction does, and no other instruction changes it (R21). -/
def Obligations.OnlyA2pReadsTheLayout : Prop :=
  ∀ (i : Instr) (s t : State) (k : Layout), (∀ c, i ≠ .a2p c) → (∀ l, i ≠ .setkbd l) → exec i s = .next t →
    t.kbd = s.kbd ∧ exec i { s with kbd := k } = .next { t with kbd := k }

/-! ### Write sets -/

/-- What SEND, WAITRDY, the wire commands and the rejected opcodes leave: REQ, KBD, the received-frame registers, the
keypress registers and R_POS; TXS is only appended to and RXQ only consumed from its head, under any turns (R33). -/
def Obligations.TransmitWriteSet : Prop :=
  ∀ (i : Instr) (s t : State), transmits i = true → exec i s = .next t →
    t.req = s.req ∧ t.kbd = s.kbd ∧ t.rPresent = s.rPresent ∧ t.rOpc = s.rOpc ∧ t.rD1 = s.rD1 ∧ t.rD2 = s.rD2 ∧
    t.rLen = s.rLen ∧ t.rClass = s.rClass ∧ t.rAscii = s.rAscii ∧ t.rPos = s.rPos ∧
    (∃ ws, t.txs = s.txs ++ ws) ∧ (∃ ws, s.rxq = ws ++ t.rxq)

/-- What the receive family leaves, under any turns (R33): REQ, KBD, R_RESP, R_POS and TXS; RXQ is only consumed from
its head. RDCMD leaves the keypress registers too, and FLUSHRX also the received-frame registers. -/
def Obligations.ReceiveWriteSet : Prop :=
  ∀ (i : Instr) (s t : State) (blk : Bool), i = .rdcmd blk ∨ i = .rdkey blk ∨ i = .flushrx → exec i s = .next t →
    t.req = s.req ∧ t.kbd = s.kbd ∧ t.rResp = s.rResp ∧ t.rPos = s.rPos ∧ t.txs = s.txs ∧ (∃ ws, s.rxq = ws ++ t.rxq) ∧
    (i ≠ .rdkey blk → t.rClass = s.rClass ∧ t.rAscii = s.rAscii) ∧
    (i = .flushrx → t.rPresent = s.rPresent ∧ t.rOpc = s.rOpc ∧ t.rD1 = s.rD1 ∧ t.rD2 = s.rD2 ∧ t.rLen = s.rLen)

/-- What the translation family leaves, under any turns (R33, R43): the channel, REQ, R_RESP, the received-frame
registers and R_CLASS. SETKBD leaves R_POS and R_ASCII, A2P leaves KBD and R_ASCII, P2A leaves KBD and R_POS. -/
def Obligations.TranslateWriteSet : Prop :=
  ∀ (i : Instr) (s t : State) (l : Bool) (c : Byte), i = .setkbd l ∨ i = .a2p c ∨ i = .p2a c → exec i s = .next t →
    t.rxq = s.rxq ∧ t.txs = s.txs ∧ t.req = s.req ∧ t.rResp = s.rResp ∧ t.rPresent = s.rPresent ∧ t.rOpc = s.rOpc ∧
    t.rD1 = s.rD1 ∧ t.rD2 = s.rD2 ∧ t.rLen = s.rLen ∧ t.rClass = s.rClass ∧
    (i = .setkbd l → t.rPos = s.rPos ∧ t.rAscii = s.rAscii) ∧
    (i = .a2p c → t.kbd = s.kbd ∧ t.rAscii = s.rAscii) ∧
    (i = .p2a c → t.kbd = s.kbd ∧ t.rPos = s.rPos)

/-- The write sets hold of every single engine step too, for each point an operation can have reached: SEND and
WAITRDY write none but R_ERR, R_FIELD, R_RESP and the channel; RDCMD none but R_ERR, R_FIELD, the received-frame
registers and RXQ, and RDKEY the keypress registers as well; FLUSHRX none but R_ERR, R_FIELD and RXQ; SETKBD, A2P and
P2A none but R_ERR, R_FIELD and their one register (R33). -/
def Obligations.EngineStepWriteSets : Prop :=
  ∀ (p : Params) (s t : State), engineStep p s = some t →
    (∀ a o d1 d2 ign, s.engine = .busy (.start (.send a o d1 d2 ign)) ∨ s.engine = .busy (.start (.waitrdy o)) →
      t = { s with engine := t.engine, rErr := t.rErr, rField := t.rField, rResp := t.rResp, txs := t.txs }) ∧
    (∀ blk, s.engine = .busy (.start (.rdcmd blk)) →
      t = { s with
        engine := t.engine, rPresent := t.rPresent, rOpc := t.rOpc, rD1 := t.rD1, rD2 := t.rD2, rLen := t.rLen,
        rxq := t.rxq }) ∧
    (∀ blk, s.engine = .busy (.start (.rdkey blk)) →
      t = { s with
        engine := t.engine, rPresent := t.rPresent, rOpc := t.rOpc, rD1 := t.rD1, rD2 := t.rD2, rLen := t.rLen,
        rxq := t.rxq, rClass := t.rClass, rAscii := t.rAscii }) ∧
    (s.engine = .busy (.start .flushrx) → t = { s with engine := t.engine }) ∧
    (∀ l, s.engine = .busy (.start (.setkbd l)) →
      t = { s with engine := .idle, rErr := .noError, rField := .fNone, kbd := t.kbd }) ∧
    (∀ c, s.engine = .busy (.start (.a2p c)) →
      t = { s with engine := .idle, rErr := .noError, rField := .fNone, rPos := t.rPos }) ∧
    (∀ c, s.engine = .busy (.start (.p2a c)) →
      t = { s with engine := .idle, rErr := .noError, rField := .fNone, rAscii := t.rAscii }) ∧
    (∀ x f ph, s.engine = .busy (.tx x f ph) →
      t = { s with
        engine := t.engine, rErr := t.rErr, rField := t.rField, rResp := t.rResp, rxq := t.rxq, txs := t.txs }) ∧
    (∀ key buf k ph, s.engine = .busy (.rx key buf k ph) →
      t = { s with
        engine := t.engine, rErr := t.rErr, rField := t.rField, rPresent := t.rPresent, rOpc := t.rOpc, rD1 := t.rD1,
        rD2 := t.rD2, rLen := t.rLen, rxq := t.rxq, rClass := t.rClass, rAscii := t.rAscii } ∧
      (key = false → t.rClass = s.rClass ∧ t.rAscii = s.rAscii)) ∧
    (∀ ph, s.engine = .busy (.flush ph) →
      t = { s with engine := t.engine, rErr := t.rErr, rField := t.rField, rxq := t.rxq })

/-! ### The whole machine -/

/-- The invariant holds of the state right after reset. -/
def Obligations.InvariantAtReset : Prop := Inv State.reset

/-- Every step keeps the invariant: the internal frame state fits the point the engine has reached, an IDLE engine's
R_ERR and R_FIELD agree with the values the table of R160 records beside them, R_POS is at most 0x60, and every word
in TXS is one the engine may send (R61, R62, R65, R160, R7 (a)). -/
def Obligations.StepKeepsTheInvariant : Prop :=
  ∀ s t : State, Inv s → step s = .next t → Inv t

/-- What the command encoder sends, the frame assembler takes back: if a SEND to the bus address ends without error,
undisturbed, then the words it appended to TXS, put into RXQ as an inbound frame, make RDCMD end without error with
the opcode, the LEN and the data operands the frame carries (R66, R68, R100, R120). -/
def Obligations.SentFramesAreReceived : Prop :=
  ∀ (o d1 d2 : Byte) (ign blk : Bool) (s t u : State) (xs : List (Word9 × Word9)) (rest : List Word9),
    Alone s → validOpcode o = true → exec (.send Config.params.busAddress o d1 d2 ign) s = .next t →
    t.isIdle = true → t.rErr = .noError → t.txs = s.txs ++ xs.map Prod.fst →
    Alone u → u.rxq = inbound Config.params.rxAckInterleaved xs ++ rest →
    ∃ v, exec (.rdcmd blk) u = .next v ∧ v.isIdle = true ∧ v.rErr = .noError ∧ v.rPresent = true ∧ v.rOpc = o ∧
      v.rLen.toNat = frameLen o ∧ (2 ≤ frameLen o → v.rD1 = d1) ∧ (frameLen o = 3 → v.rD2 = d2) ∧ v.rxq = rest
end

