-- ==== Sys2Proof/Laws/Decode.lean ====
section
/-! SUPPORT. The fields of a packed request, and the facts about opcodes, lengths and frames that proofs cite. -/

namespace Sys2Proof

variable (hop : BitVec 4) (a : BusAddr) (o d1 d2 : Byte) (f : Bool)

theorem reqHop_packReq : reqHop (packReq hop a o d1 d2 f) = hop := by
  apply BitVec.eq_of_getLsbD_eq
  intro i hi
  simp only [reqHop, packReq, BitVec.getLsbD_extractLsb', BitVec.getLsbD_append]
  simp [hi]

theorem reqAddr_packReq : reqAddr (packReq hop a o d1 d2 f) = a := by
  apply BitVec.eq_of_getLsbD_eq
  intro i hi
  simp only [reqAddr, packReq, BitVec.getLsbD_extractLsb', BitVec.getLsbD_append]
  have h : ¬ 4 + i < 4 := by omega
  have e : 4 + i - 4 = i := by omega
  simp [hi, e]

theorem reqOpc_packReq : reqOpc (packReq hop a o d1 d2 f) = o := by
  apply BitVec.eq_of_getLsbD_eq
  intro i hi
  simp only [reqOpc, packReq, BitVec.getLsbD_extractLsb', BitVec.getLsbD_append]
  have h0 : ¬ 11 + i < 4 := by omega
  have h1 : ¬ 11 + i - 4 < 7 := by omega
  have e : 11 + i - 4 - 7 = i := by omega
  simp [hi, h0, h1, e]

theorem reqD1_packReq : reqD1 (packReq hop a o d1 d2 f) = d1 := by
  apply BitVec.eq_of_getLsbD_eq
  intro i hi
  simp only [reqD1, packReq, BitVec.getLsbD_extractLsb', BitVec.getLsbD_append]
  have h0 : ¬ 19 + i < 4 := by omega
  have h1 : ¬ 19 + i - 4 < 7 := by omega
  have h2 : ¬ 19 + i - 4 - 7 < 8 := by omega
  have e : 19 + i - 4 - 7 - 8 = i := by omega
  simp [hi, h0, h1, h2, e]

theorem reqD2_packReq : reqD2 (packReq hop a o d1 d2 f) = d2 := by
  apply BitVec.eq_of_getLsbD_eq
  intro i hi
  simp only [reqD2, packReq, BitVec.getLsbD_extractLsb', BitVec.getLsbD_append]
  have h0 : ¬ 27 + i < 4 := by omega
  have h1 : ¬ 27 + i - 4 < 7 := by omega
  have h2 : ¬ 27 + i - 4 - 7 < 8 := by omega
  have h3 : ¬ 27 + i - 4 - 7 - 8 < 8 := by omega
  have e : 27 + i - 4 - 7 - 8 - 8 = i := by omega
  simp [hi, h0, h1, h2, h3, e]

theorem reqF_packReq : reqF (packReq hop a o d1 d2 f) = f := by
  simp only [reqF, packReq, BitVec.getLsbD_append]
  simp

/-- The fields of a request determine it. -/
theorem packReq_fields (r : Req) :
    packReq (reqHop r) (reqAddr r) (reqOpc r) (reqD1 r) (reqD2 r) (reqF r) = r := by
  apply BitVec.eq_of_getLsbD_eq
  intro i hi
  simp only [packReq, reqHop, reqAddr, reqOpc, reqD1, reqD2, reqF, BitVec.getLsbD_append, BitVec.getLsbD_extractLsb',
    BitVec.getLsbD_ofBool]
  repeat' split
  all_goals
    rw [decide_eq_true (by omega), Bool.true_and]
    congr 1
    omega

/-- A valid opcode is one of fifteen (R63). -/
theorem validOpcode_iff : validOpcode o = true ↔ o.toNat ≤ 14 := by
  simp [validOpcode, BitVec.le_def]

/-- LEN of a valid opcode is 1, 2 or 3 (R64). -/
theorem frameLen_of_valid (h : validOpcode o = true) : 1 ≤ frameLen o ∧ frameLen o ≤ 3 := by
  rw [validOpcode_iff] at h
  unfold frameLen
  interval_cases o.toNat <;> simp [lenTable]

/-- LEN is at most 3. -/
theorem frameLen_le : frameLen o ≤ 3 := by
  unfold frameLen
  by_cases h : o.toNat < 16
  · interval_cases o.toNat <;> simp [lenTable]
  · rw [List.getD_eq_default _ _ (by simp [lenTable]; omega)]; omega

/-- The payload and marker of the three kinds of word (R61, R62, R65). -/
@[simp] theorem addrWord_marker : (addrWord a).marker = true := by
  simp [addrWord, Word9.marker]

@[simp] theorem opcWord_marker : (opcWord o).marker = false := by
  simp [opcWord, Word9.marker]

@[simp] theorem dataWord_marker : (dataWord o).marker = false := by
  simp [dataWord, Word9.marker]

@[simp] theorem opcWord_payload : (opcWord o).payload = o := by
  simp [opcWord, Word9.payload]

@[simp] theorem dataWord_payload : (dataWord o).payload = o := by
  simp [dataWord, Word9.payload]

theorem addrWord_bit7 : (addrWord a).getLsbD 7 = false := by
  simp [addrWord, BitVec.getLsbD_of_ge]

end Sys2Proof
end

