-- ==== Sys2Proof/Laws/State.lean ====
section
/-! SUPPORT. One lemma per field per update: what each update writes, and what it leaves. -/

namespace Sys2Proof.Machine

@[simp] theorem chanWrite_engine (w : Word9) (s : State) : (chanWrite w s).engine = s.engine := rfl
@[simp] theorem chanWrite_kbd (w : Word9) (s : State) : (chanWrite w s).kbd = s.kbd := rfl
@[simp] theorem chanWrite_req (w : Word9) (s : State) : (chanWrite w s).req = s.req := rfl
@[simp] theorem chanWrite_rErr (w : Word9) (s : State) : (chanWrite w s).rErr = s.rErr := rfl
@[simp] theorem chanWrite_rField (w : Word9) (s : State) : (chanWrite w s).rField = s.rField := rfl
@[simp] theorem chanWrite_rResp (w : Word9) (s : State) : (chanWrite w s).rResp = s.rResp := rfl
@[simp] theorem chanWrite_rPresent (w : Word9) (s : State) : (chanWrite w s).rPresent = s.rPresent := rfl
@[simp] theorem chanWrite_rOpc (w : Word9) (s : State) : (chanWrite w s).rOpc = s.rOpc := rfl
@[simp] theorem chanWrite_rD1 (w : Word9) (s : State) : (chanWrite w s).rD1 = s.rD1 := rfl
@[simp] theorem chanWrite_rD2 (w : Word9) (s : State) : (chanWrite w s).rD2 = s.rD2 := rfl
@[simp] theorem chanWrite_rLen (w : Word9) (s : State) : (chanWrite w s).rLen = s.rLen := rfl
@[simp] theorem chanWrite_rClass (w : Word9) (s : State) : (chanWrite w s).rClass = s.rClass := rfl
@[simp] theorem chanWrite_rAscii (w : Word9) (s : State) : (chanWrite w s).rAscii = s.rAscii := rfl
@[simp] theorem chanWrite_rPos (w : Word9) (s : State) : (chanWrite w s).rPos = s.rPos := rfl
@[simp] theorem chanWrite_rxq (w : Word9) (s : State) : (chanWrite w s).rxq = s.rxq := rfl
@[simp] theorem chanWrite_txs (w : Word9) (s : State) : (chanWrite w s).txs = s.txs ++ [w] := rfl
@[simp] theorem chanWrite_turns (w : Word9) (s : State) : (chanWrite w s).turns = s.turns := rfl

@[simp] theorem goto_engine (a : Activity) (s : State) : (s.goto a).engine = .busy a := rfl
@[simp] theorem goto_kbd (a : Activity) (s : State) : (s.goto a).kbd = s.kbd := rfl
@[simp] theorem goto_req (a : Activity) (s : State) : (s.goto a).req = s.req := rfl
@[simp] theorem goto_rErr (a : Activity) (s : State) : (s.goto a).rErr = s.rErr := rfl
@[simp] theorem goto_rField (a : Activity) (s : State) : (s.goto a).rField = s.rField := rfl
@[simp] theorem goto_rResp (a : Activity) (s : State) : (s.goto a).rResp = s.rResp := rfl
@[simp] theorem goto_rPresent (a : Activity) (s : State) : (s.goto a).rPresent = s.rPresent := rfl
@[simp] theorem goto_rOpc (a : Activity) (s : State) : (s.goto a).rOpc = s.rOpc := rfl
@[simp] theorem goto_rD1 (a : Activity) (s : State) : (s.goto a).rD1 = s.rD1 := rfl
@[simp] theorem goto_rD2 (a : Activity) (s : State) : (s.goto a).rD2 = s.rD2 := rfl
@[simp] theorem goto_rLen (a : Activity) (s : State) : (s.goto a).rLen = s.rLen := rfl
@[simp] theorem goto_rClass (a : Activity) (s : State) : (s.goto a).rClass = s.rClass := rfl
@[simp] theorem goto_rAscii (a : Activity) (s : State) : (s.goto a).rAscii = s.rAscii := rfl
@[simp] theorem goto_rPos (a : Activity) (s : State) : (s.goto a).rPos = s.rPos := rfl
@[simp] theorem goto_rxq (a : Activity) (s : State) : (s.goto a).rxq = s.rxq := rfl
@[simp] theorem goto_txs (a : Activity) (s : State) : (s.goto a).txs = s.txs := rfl
@[simp] theorem goto_turns (a : Activity) (s : State) : (s.goto a).turns = s.turns := rfl

@[simp] theorem endOp_engine (e : ErrCode) (f : FieldCode) (s : State) : (s.endOp e f).engine = .idle := rfl
@[simp] theorem endOp_kbd (e : ErrCode) (f : FieldCode) (s : State) : (s.endOp e f).kbd = s.kbd := rfl
@[simp] theorem endOp_req (e : ErrCode) (f : FieldCode) (s : State) : (s.endOp e f).req = s.req := rfl
@[simp] theorem endOp_rErr (e : ErrCode) (f : FieldCode) (s : State) : (s.endOp e f).rErr = e := rfl
@[simp] theorem endOp_rField (e : ErrCode) (f : FieldCode) (s : State) : (s.endOp e f).rField = f := rfl
@[simp] theorem endOp_rResp (e : ErrCode) (f : FieldCode) (s : State) : (s.endOp e f).rResp = s.rResp := rfl
@[simp] theorem endOp_rPresent (e : ErrCode) (f : FieldCode) (s : State) : (s.endOp e f).rPresent = s.rPresent := rfl
@[simp] theorem endOp_rOpc (e : ErrCode) (f : FieldCode) (s : State) : (s.endOp e f).rOpc = s.rOpc := rfl
@[simp] theorem endOp_rD1 (e : ErrCode) (f : FieldCode) (s : State) : (s.endOp e f).rD1 = s.rD1 := rfl
@[simp] theorem endOp_rD2 (e : ErrCode) (f : FieldCode) (s : State) : (s.endOp e f).rD2 = s.rD2 := rfl
@[simp] theorem endOp_rLen (e : ErrCode) (f : FieldCode) (s : State) : (s.endOp e f).rLen = s.rLen := rfl
@[simp] theorem endOp_rClass (e : ErrCode) (f : FieldCode) (s : State) : (s.endOp e f).rClass = s.rClass := rfl
@[simp] theorem endOp_rAscii (e : ErrCode) (f : FieldCode) (s : State) : (s.endOp e f).rAscii = s.rAscii := rfl
@[simp] theorem endOp_rPos (e : ErrCode) (f : FieldCode) (s : State) : (s.endOp e f).rPos = s.rPos := rfl
@[simp] theorem endOp_rxq (e : ErrCode) (f : FieldCode) (s : State) : (s.endOp e f).rxq = s.rxq := rfl
@[simp] theorem endOp_txs (e : ErrCode) (f : FieldCode) (s : State) : (s.endOp e f).txs = s.txs := rfl
@[simp] theorem endOp_turns (e : ErrCode) (f : FieldCode) (s : State) : (s.endOp e f).turns = s.turns := rfl

@[simp] theorem raise_engine (e : ErrCode) (f : FieldCode) (s : State) : (raise e f s).engine = .idle := rfl
@[simp] theorem raise_kbd (e : ErrCode) (f : FieldCode) (s : State) : (raise e f s).kbd = s.kbd := rfl
@[simp] theorem raise_req (e : ErrCode) (f : FieldCode) (s : State) : (raise e f s).req = s.req := rfl
@[simp] theorem raise_rErr (e : ErrCode) (f : FieldCode) (s : State) : (raise e f s).rErr = e := rfl
@[simp] theorem raise_rField (e : ErrCode) (f : FieldCode) (s : State) : (raise e f s).rField = f := rfl
@[simp] theorem raise_rResp (e : ErrCode) (f : FieldCode) (s : State) : (raise e f s).rResp = s.rResp := rfl
@[simp] theorem raise_rPresent (e : ErrCode) (f : FieldCode) (s : State) : (raise e f s).rPresent = s.rPresent := rfl
@[simp] theorem raise_rOpc (e : ErrCode) (f : FieldCode) (s : State) : (raise e f s).rOpc = s.rOpc := rfl
@[simp] theorem raise_rD1 (e : ErrCode) (f : FieldCode) (s : State) : (raise e f s).rD1 = s.rD1 := rfl
@[simp] theorem raise_rD2 (e : ErrCode) (f : FieldCode) (s : State) : (raise e f s).rD2 = s.rD2 := rfl
@[simp] theorem raise_rLen (e : ErrCode) (f : FieldCode) (s : State) : (raise e f s).rLen = s.rLen := rfl
@[simp] theorem raise_rClass (e : ErrCode) (f : FieldCode) (s : State) : (raise e f s).rClass = s.rClass := rfl
@[simp] theorem raise_rAscii (e : ErrCode) (f : FieldCode) (s : State) : (raise e f s).rAscii = s.rAscii := rfl
@[simp] theorem raise_rPos (e : ErrCode) (f : FieldCode) (s : State) : (raise e f s).rPos = s.rPos := rfl
@[simp] theorem raise_rxq (e : ErrCode) (f : FieldCode) (s : State) : (raise e f s).rxq = s.rxq := rfl
@[simp] theorem raise_txs (e : ErrCode) (f : FieldCode) (s : State) : (raise e f s).txs = s.txs := rfl
@[simp] theorem raise_turns (e : ErrCode) (f : FieldCode) (s : State) : (raise e f s).turns = s.turns := rfl

@[simp] theorem finish_engine (s : State) : (finish s).engine = .idle := rfl
@[simp] theorem finish_kbd (s : State) : (finish s).kbd = s.kbd := rfl
@[simp] theorem finish_req (s : State) : (finish s).req = s.req := rfl
@[simp] theorem finish_rErr (s : State) : (finish s).rErr = .noError := rfl
@[simp] theorem finish_rField (s : State) : (finish s).rField = .fNone := rfl
@[simp] theorem finish_rResp (s : State) : (finish s).rResp = s.rResp := rfl
@[simp] theorem finish_rPresent (s : State) : (finish s).rPresent = s.rPresent := rfl
@[simp] theorem finish_rOpc (s : State) : (finish s).rOpc = s.rOpc := rfl
@[simp] theorem finish_rD1 (s : State) : (finish s).rD1 = s.rD1 := rfl
@[simp] theorem finish_rD2 (s : State) : (finish s).rD2 = s.rD2 := rfl
@[simp] theorem finish_rLen (s : State) : (finish s).rLen = s.rLen := rfl
@[simp] theorem finish_rClass (s : State) : (finish s).rClass = s.rClass := rfl
@[simp] theorem finish_rAscii (s : State) : (finish s).rAscii = s.rAscii := rfl
@[simp] theorem finish_rPos (s : State) : (finish s).rPos = s.rPos := rfl
@[simp] theorem finish_rxq (s : State) : (finish s).rxq = s.rxq := rfl
@[simp] theorem finish_txs (s : State) : (finish s).txs = s.txs := rfl
@[simp] theorem finish_turns (s : State) : (finish s).turns = s.turns := rfl

@[simp] theorem envAppend_engine (w : Word9) (s : State) : (envAppend w s).engine = s.engine := rfl
@[simp] theorem envAppend_kbd (w : Word9) (s : State) : (envAppend w s).kbd = s.kbd := rfl
@[simp] theorem envAppend_req (w : Word9) (s : State) : (envAppend w s).req = s.req := rfl
@[simp] theorem envAppend_rErr (w : Word9) (s : State) : (envAppend w s).rErr = s.rErr := rfl
@[simp] theorem envAppend_rField (w : Word9) (s : State) : (envAppend w s).rField = s.rField := rfl
@[simp] theorem envAppend_rResp (w : Word9) (s : State) : (envAppend w s).rResp = s.rResp := rfl
@[simp] theorem envAppend_rPresent (w : Word9) (s : State) : (envAppend w s).rPresent = s.rPresent := rfl
@[simp] theorem envAppend_rOpc (w : Word9) (s : State) : (envAppend w s).rOpc = s.rOpc := rfl
@[simp] theorem envAppend_rD1 (w : Word9) (s : State) : (envAppend w s).rD1 = s.rD1 := rfl
@[simp] theorem envAppend_rD2 (w : Word9) (s : State) : (envAppend w s).rD2 = s.rD2 := rfl
@[simp] theorem envAppend_rLen (w : Word9) (s : State) : (envAppend w s).rLen = s.rLen := rfl
@[simp] theorem envAppend_rClass (w : Word9) (s : State) : (envAppend w s).rClass = s.rClass := rfl
@[simp] theorem envAppend_rAscii (w : Word9) (s : State) : (envAppend w s).rAscii = s.rAscii := rfl
@[simp] theorem envAppend_rPos (w : Word9) (s : State) : (envAppend w s).rPos = s.rPos := rfl
@[simp] theorem envAppend_rxq (w : Word9) (s : State) : (envAppend w s).rxq = s.rxq ++ [w] := rfl
@[simp] theorem envAppend_txs (w : Word9) (s : State) : (envAppend w s).txs = s.txs := rfl
@[simp] theorem envAppend_turns (w : Word9) (s : State) : (envAppend w s).turns = s.turns := rfl

@[simp] theorem writeReq_engine (r : Req) (s : State) : (writeReq r s).engine = s.engine := rfl
@[simp] theorem writeReq_kbd (r : Req) (s : State) : (writeReq r s).kbd = s.kbd := rfl
@[simp] theorem writeReq_req (r : Req) (s : State) : (writeReq r s).req = r := rfl
@[simp] theorem writeReq_rErr (r : Req) (s : State) : (writeReq r s).rErr = s.rErr := rfl
@[simp] theorem writeReq_rField (r : Req) (s : State) : (writeReq r s).rField = s.rField := rfl
@[simp] theorem writeReq_rResp (r : Req) (s : State) : (writeReq r s).rResp = s.rResp := rfl
@[simp] theorem writeReq_rPresent (r : Req) (s : State) : (writeReq r s).rPresent = s.rPresent := rfl
@[simp] theorem writeReq_rOpc (r : Req) (s : State) : (writeReq r s).rOpc = s.rOpc := rfl
@[simp] theorem writeReq_rD1 (r : Req) (s : State) : (writeReq r s).rD1 = s.rD1 := rfl
@[simp] theorem writeReq_rD2 (r : Req) (s : State) : (writeReq r s).rD2 = s.rD2 := rfl
@[simp] theorem writeReq_rLen (r : Req) (s : State) : (writeReq r s).rLen = s.rLen := rfl
@[simp] theorem writeReq_rClass (r : Req) (s : State) : (writeReq r s).rClass = s.rClass := rfl
@[simp] theorem writeReq_rAscii (r : Req) (s : State) : (writeReq r s).rAscii = s.rAscii := rfl
@[simp] theorem writeReq_rPos (r : Req) (s : State) : (writeReq r s).rPos = s.rPos := rfl
@[simp] theorem writeReq_rxq (r : Req) (s : State) : (writeReq r s).rxq = s.rxq := rfl
@[simp] theorem writeReq_txs (r : Req) (s : State) : (writeReq r s).txs = s.txs := rfl
@[simp] theorem writeReq_turns (r : Req) (s : State) : (writeReq r s).turns = s.turns := rfl

@[simp] theorem withTurns_engine (ts : Schedule) (s : State) : (s.withTurns ts).engine = s.engine := rfl
@[simp] theorem withTurns_kbd (ts : Schedule) (s : State) : (s.withTurns ts).kbd = s.kbd := rfl
@[simp] theorem withTurns_req (ts : Schedule) (s : State) : (s.withTurns ts).req = s.req := rfl
@[simp] theorem withTurns_rErr (ts : Schedule) (s : State) : (s.withTurns ts).rErr = s.rErr := rfl
@[simp] theorem withTurns_rField (ts : Schedule) (s : State) : (s.withTurns ts).rField = s.rField := rfl
@[simp] theorem withTurns_rResp (ts : Schedule) (s : State) : (s.withTurns ts).rResp = s.rResp := rfl
@[simp] theorem withTurns_rPresent (ts : Schedule) (s : State) : (s.withTurns ts).rPresent = s.rPresent := rfl
@[simp] theorem withTurns_rOpc (ts : Schedule) (s : State) : (s.withTurns ts).rOpc = s.rOpc := rfl
@[simp] theorem withTurns_rD1 (ts : Schedule) (s : State) : (s.withTurns ts).rD1 = s.rD1 := rfl
@[simp] theorem withTurns_rD2 (ts : Schedule) (s : State) : (s.withTurns ts).rD2 = s.rD2 := rfl
@[simp] theorem withTurns_rLen (ts : Schedule) (s : State) : (s.withTurns ts).rLen = s.rLen := rfl
@[simp] theorem withTurns_rClass (ts : Schedule) (s : State) : (s.withTurns ts).rClass = s.rClass := rfl
@[simp] theorem withTurns_rAscii (ts : Schedule) (s : State) : (s.withTurns ts).rAscii = s.rAscii := rfl
@[simp] theorem withTurns_rPos (ts : Schedule) (s : State) : (s.withTurns ts).rPos = s.rPos := rfl
@[simp] theorem withTurns_rxq (ts : Schedule) (s : State) : (s.withTurns ts).rxq = s.rxq := rfl
@[simp] theorem withTurns_txs (ts : Schedule) (s : State) : (s.withTurns ts).txs = s.txs := rfl
@[simp] theorem withTurns_turns (ts : Schedule) (s : State) : (s.withTurns ts).turns = ts := rfl

@[simp] theorem setResp_engine (r : Word9) (s : State) : (setResp r s).engine = s.engine := rfl
@[simp] theorem setResp_kbd (r : Word9) (s : State) : (setResp r s).kbd = s.kbd := rfl
@[simp] theorem setResp_req (r : Word9) (s : State) : (setResp r s).req = s.req := rfl
@[simp] theorem setResp_rErr (r : Word9) (s : State) : (setResp r s).rErr = s.rErr := rfl
@[simp] theorem setResp_rField (r : Word9) (s : State) : (setResp r s).rField = s.rField := rfl
@[simp] theorem setResp_rResp (r : Word9) (s : State) : (setResp r s).rResp = r := rfl
@[simp] theorem setResp_rPresent (r : Word9) (s : State) : (setResp r s).rPresent = s.rPresent := rfl
@[simp] theorem setResp_rOpc (r : Word9) (s : State) : (setResp r s).rOpc = s.rOpc := rfl
@[simp] theorem setResp_rD1 (r : Word9) (s : State) : (setResp r s).rD1 = s.rD1 := rfl
@[simp] theorem setResp_rD2 (r : Word9) (s : State) : (setResp r s).rD2 = s.rD2 := rfl
@[simp] theorem setResp_rLen (r : Word9) (s : State) : (setResp r s).rLen = s.rLen := rfl
@[simp] theorem setResp_rClass (r : Word9) (s : State) : (setResp r s).rClass = s.rClass := rfl
@[simp] theorem setResp_rAscii (r : Word9) (s : State) : (setResp r s).rAscii = s.rAscii := rfl
@[simp] theorem setResp_rPos (r : Word9) (s : State) : (setResp r s).rPos = s.rPos := rfl
@[simp] theorem setResp_rxq (r : Word9) (s : State) : (setResp r s).rxq = s.rxq := rfl
@[simp] theorem setResp_txs (r : Word9) (s : State) : (setResp r s).txs = s.txs := rfl
@[simp] theorem setResp_turns (r : Word9) (s : State) : (setResp r s).turns = s.turns := rfl

@[simp] theorem clearReceived_engine (s : State) : (clearReceived s).engine = s.engine := rfl
@[simp] theorem clearReceived_kbd (s : State) : (clearReceived s).kbd = s.kbd := rfl
@[simp] theorem clearReceived_req (s : State) : (clearReceived s).req = s.req := rfl
@[simp] theorem clearReceived_rErr (s : State) : (clearReceived s).rErr = s.rErr := rfl
@[simp] theorem clearReceived_rField (s : State) : (clearReceived s).rField = s.rField := rfl
@[simp] theorem clearReceived_rResp (s : State) : (clearReceived s).rResp = s.rResp := rfl
@[simp] theorem clearReceived_rPresent (s : State) : (clearReceived s).rPresent = false := rfl
@[simp] theorem clearReceived_rOpc (s : State) : (clearReceived s).rOpc = 0 := rfl
@[simp] theorem clearReceived_rD1 (s : State) : (clearReceived s).rD1 = 0 := rfl
@[simp] theorem clearReceived_rD2 (s : State) : (clearReceived s).rD2 = 0 := rfl
@[simp] theorem clearReceived_rLen (s : State) : (clearReceived s).rLen = 0 := rfl
@[simp] theorem clearReceived_rClass (s : State) : (clearReceived s).rClass = s.rClass := rfl
@[simp] theorem clearReceived_rAscii (s : State) : (clearReceived s).rAscii = s.rAscii := rfl
@[simp] theorem clearReceived_rPos (s : State) : (clearReceived s).rPos = s.rPos := rfl
@[simp] theorem clearReceived_rxq (s : State) : (clearReceived s).rxq = s.rxq := rfl
@[simp] theorem clearReceived_txs (s : State) : (clearReceived s).txs = s.txs := rfl
@[simp] theorem clearReceived_turns (s : State) : (clearReceived s).turns = s.turns := rfl

@[simp] theorem markPresent_engine (s : State) : (markPresent s).engine = s.engine := rfl
@[simp] theorem markPresent_kbd (s : State) : (markPresent s).kbd = s.kbd := rfl
@[simp] theorem markPresent_req (s : State) : (markPresent s).req = s.req := rfl
@[simp] theorem markPresent_rErr (s : State) : (markPresent s).rErr = s.rErr := rfl
@[simp] theorem markPresent_rField (s : State) : (markPresent s).rField = s.rField := rfl
@[simp] theorem markPresent_rResp (s : State) : (markPresent s).rResp = s.rResp := rfl
@[simp] theorem markPresent_rPresent (s : State) : (markPresent s).rPresent = true := rfl
@[simp] theorem markPresent_rOpc (s : State) : (markPresent s).rOpc = s.rOpc := rfl
@[simp] theorem markPresent_rD1 (s : State) : (markPresent s).rD1 = s.rD1 := rfl
@[simp] theorem markPresent_rD2 (s : State) : (markPresent s).rD2 = s.rD2 := rfl
@[simp] theorem markPresent_rLen (s : State) : (markPresent s).rLen = s.rLen := rfl
@[simp] theorem markPresent_rClass (s : State) : (markPresent s).rClass = s.rClass := rfl
@[simp] theorem markPresent_rAscii (s : State) : (markPresent s).rAscii = s.rAscii := rfl
@[simp] theorem markPresent_rPos (s : State) : (markPresent s).rPos = s.rPos := rfl
@[simp] theorem markPresent_rxq (s : State) : (markPresent s).rxq = s.rxq := rfl
@[simp] theorem markPresent_txs (s : State) : (markPresent s).txs = s.txs := rfl
@[simp] theorem markPresent_turns (s : State) : (markPresent s).turns = s.turns := rfl

@[simp] theorem setKey_engine (c : KeyClass) (a : Byte) (s : State) : (setKey c a s).engine = s.engine := rfl
@[simp] theorem setKey_kbd (c : KeyClass) (a : Byte) (s : State) : (setKey c a s).kbd = s.kbd := rfl
@[simp] theorem setKey_req (c : KeyClass) (a : Byte) (s : State) : (setKey c a s).req = s.req := rfl
@[simp] theorem setKey_rErr (c : KeyClass) (a : Byte) (s : State) : (setKey c a s).rErr = s.rErr := rfl
@[simp] theorem setKey_rField (c : KeyClass) (a : Byte) (s : State) : (setKey c a s).rField = s.rField := rfl
@[simp] theorem setKey_rResp (c : KeyClass) (a : Byte) (s : State) : (setKey c a s).rResp = s.rResp := rfl
@[simp] theorem setKey_rPresent (c : KeyClass) (a : Byte) (s : State) : (setKey c a s).rPresent = s.rPresent := rfl
@[simp] theorem setKey_rOpc (c : KeyClass) (a : Byte) (s : State) : (setKey c a s).rOpc = s.rOpc := rfl
@[simp] theorem setKey_rD1 (c : KeyClass) (a : Byte) (s : State) : (setKey c a s).rD1 = s.rD1 := rfl
@[simp] theorem setKey_rD2 (c : KeyClass) (a : Byte) (s : State) : (setKey c a s).rD2 = s.rD2 := rfl
@[simp] theorem setKey_rLen (c : KeyClass) (a : Byte) (s : State) : (setKey c a s).rLen = s.rLen := rfl
@[simp] theorem setKey_rClass (c : KeyClass) (a : Byte) (s : State) : (setKey c a s).rClass = c := rfl
@[simp] theorem setKey_rAscii (c : KeyClass) (a : Byte) (s : State) : (setKey c a s).rAscii = a := rfl
@[simp] theorem setKey_rPos (c : KeyClass) (a : Byte) (s : State) : (setKey c a s).rPos = s.rPos := rfl
@[simp] theorem setKey_rxq (c : KeyClass) (a : Byte) (s : State) : (setKey c a s).rxq = s.rxq := rfl
@[simp] theorem setKey_txs (c : KeyClass) (a : Byte) (s : State) : (setKey c a s).txs = s.txs := rfl
@[simp] theorem setKey_turns (c : KeyClass) (a : Byte) (s : State) : (setKey c a s).turns = s.turns := rfl

@[simp] theorem storeFrame_engine (b : RxFrame) (s : State) : (storeFrame b s).engine = s.engine := rfl
@[simp] theorem storeFrame_kbd (b : RxFrame) (s : State) : (storeFrame b s).kbd = s.kbd := rfl
@[simp] theorem storeFrame_req (b : RxFrame) (s : State) : (storeFrame b s).req = s.req := rfl
@[simp] theorem storeFrame_rErr (b : RxFrame) (s : State) : (storeFrame b s).rErr = s.rErr := rfl
@[simp] theorem storeFrame_rField (b : RxFrame) (s : State) : (storeFrame b s).rField = s.rField := rfl
@[simp] theorem storeFrame_rResp (b : RxFrame) (s : State) : (storeFrame b s).rResp = s.rResp := rfl
@[simp] theorem storeFrame_rPresent (b : RxFrame) (s : State) : (storeFrame b s).rPresent = s.rPresent := rfl
@[simp] theorem storeFrame_rOpc (b : RxFrame) (s : State) : (storeFrame b s).rOpc = b.w1.payload := rfl
@[simp] theorem storeFrame_rD1 (b : RxFrame) (s : State) : (storeFrame b s).rD1 = if 2 ≤ b.len then b.w2.payload else 0 := rfl
@[simp] theorem storeFrame_rD2 (b : RxFrame) (s : State) : (storeFrame b s).rD2 = if b.len = 3 then b.w3.payload else 0 := rfl
@[simp] theorem storeFrame_rLen (b : RxFrame) (s : State) : (storeFrame b s).rLen = BitVec.ofNat 2 b.len := rfl
@[simp] theorem storeFrame_rClass (b : RxFrame) (s : State) : (storeFrame b s).rClass = s.rClass := rfl
@[simp] theorem storeFrame_rAscii (b : RxFrame) (s : State) : (storeFrame b s).rAscii = s.rAscii := rfl
@[simp] theorem storeFrame_rPos (b : RxFrame) (s : State) : (storeFrame b s).rPos = s.rPos := rfl
@[simp] theorem storeFrame_rxq (b : RxFrame) (s : State) : (storeFrame b s).rxq = s.rxq := rfl
@[simp] theorem storeFrame_txs (b : RxFrame) (s : State) : (storeFrame b s).txs = s.txs := rfl
@[simp] theorem storeFrame_turns (b : RxFrame) (s : State) : (storeFrame b s).turns = s.turns := rfl

@[simp] theorem setKbd_engine (l : Bool) (s : State) : (setKbd l s).engine = .idle := rfl
@[simp] theorem setKbd_kbd (l : Bool) (s : State) : (setKbd l s).kbd = layoutOf l := rfl
@[simp] theorem setKbd_req (l : Bool) (s : State) : (setKbd l s).req = s.req := rfl
@[simp] theorem setKbd_rErr (l : Bool) (s : State) : (setKbd l s).rErr = .noError := rfl
@[simp] theorem setKbd_rField (l : Bool) (s : State) : (setKbd l s).rField = .fNone := rfl
@[simp] theorem setKbd_rResp (l : Bool) (s : State) : (setKbd l s).rResp = s.rResp := rfl
@[simp] theorem setKbd_rPresent (l : Bool) (s : State) : (setKbd l s).rPresent = s.rPresent := rfl
@[simp] theorem setKbd_rOpc (l : Bool) (s : State) : (setKbd l s).rOpc = s.rOpc := rfl
@[simp] theorem setKbd_rD1 (l : Bool) (s : State) : (setKbd l s).rD1 = s.rD1 := rfl
@[simp] theorem setKbd_rD2 (l : Bool) (s : State) : (setKbd l s).rD2 = s.rD2 := rfl
@[simp] theorem setKbd_rLen (l : Bool) (s : State) : (setKbd l s).rLen = s.rLen := rfl
@[simp] theorem setKbd_rClass (l : Bool) (s : State) : (setKbd l s).rClass = s.rClass := rfl
@[simp] theorem setKbd_rAscii (l : Bool) (s : State) : (setKbd l s).rAscii = s.rAscii := rfl
@[simp] theorem setKbd_rPos (l : Bool) (s : State) : (setKbd l s).rPos = s.rPos := rfl
@[simp] theorem setKbd_rxq (l : Bool) (s : State) : (setKbd l s).rxq = s.rxq := rfl
@[simp] theorem setKbd_txs (l : Bool) (s : State) : (setKbd l s).txs = s.txs := rfl
@[simp] theorem setKbd_turns (l : Bool) (s : State) : (setKbd l s).turns = s.turns := rfl

@[simp] theorem asciiToPos_engine (p : Params) (c : Byte) (s : State) : (asciiToPos p c s).engine = .idle := rfl
@[simp] theorem asciiToPos_kbd (p : Params) (c : Byte) (s : State) : (asciiToPos p c s).kbd = s.kbd := rfl
@[simp] theorem asciiToPos_req (p : Params) (c : Byte) (s : State) : (asciiToPos p c s).req = s.req := rfl
@[simp] theorem asciiToPos_rErr (p : Params) (c : Byte) (s : State) : (asciiToPos p c s).rErr = .noError := rfl
@[simp] theorem asciiToPos_rField (p : Params) (c : Byte) (s : State) : (asciiToPos p c s).rField = .fNone := rfl
@[simp] theorem asciiToPos_rResp (p : Params) (c : Byte) (s : State) : (asciiToPos p c s).rResp = s.rResp := rfl
@[simp] theorem asciiToPos_rPresent (p : Params) (c : Byte) (s : State) : (asciiToPos p c s).rPresent = s.rPresent := rfl
@[simp] theorem asciiToPos_rOpc (p : Params) (c : Byte) (s : State) : (asciiToPos p c s).rOpc = s.rOpc := rfl
@[simp] theorem asciiToPos_rD1 (p : Params) (c : Byte) (s : State) : (asciiToPos p c s).rD1 = s.rD1 := rfl
@[simp] theorem asciiToPos_rD2 (p : Params) (c : Byte) (s : State) : (asciiToPos p c s).rD2 = s.rD2 := rfl
@[simp] theorem asciiToPos_rLen (p : Params) (c : Byte) (s : State) : (asciiToPos p c s).rLen = s.rLen := rfl
@[simp] theorem asciiToPos_rClass (p : Params) (c : Byte) (s : State) : (asciiToPos p c s).rClass = s.rClass := rfl
@[simp] theorem asciiToPos_rAscii (p : Params) (c : Byte) (s : State) : (asciiToPos p c s).rAscii = s.rAscii := rfl
@[simp] theorem asciiToPos_rPos (p : Params) (c : Byte) (s : State) : (asciiToPos p c s).rPos = fwdLookup p.rom s.kbd c := rfl
@[simp] theorem asciiToPos_rxq (p : Params) (c : Byte) (s : State) : (asciiToPos p c s).rxq = s.rxq := rfl
@[simp] theorem asciiToPos_txs (p : Params) (c : Byte) (s : State) : (asciiToPos p c s).txs = s.txs := rfl
@[simp] theorem asciiToPos_turns (p : Params) (c : Byte) (s : State) : (asciiToPos p c s).turns = s.turns := rfl

@[simp] theorem posToAscii_engine (p : Params) (q : Byte) (s : State) : (posToAscii p q s).engine = .idle := rfl
@[simp] theorem posToAscii_kbd (p : Params) (q : Byte) (s : State) : (posToAscii p q s).kbd = s.kbd := rfl
@[simp] theorem posToAscii_req (p : Params) (q : Byte) (s : State) : (posToAscii p q s).req = s.req := rfl
@[simp] theorem posToAscii_rErr (p : Params) (q : Byte) (s : State) : (posToAscii p q s).rErr = .noError := rfl
@[simp] theorem posToAscii_rField (p : Params) (q : Byte) (s : State) : (posToAscii p q s).rField = .fNone := rfl
@[simp] theorem posToAscii_rResp (p : Params) (q : Byte) (s : State) : (posToAscii p q s).rResp = s.rResp := rfl
@[simp] theorem posToAscii_rPresent (p : Params) (q : Byte) (s : State) : (posToAscii p q s).rPresent = s.rPresent := rfl
@[simp] theorem posToAscii_rOpc (p : Params) (q : Byte) (s : State) : (posToAscii p q s).rOpc = s.rOpc := rfl
@[simp] theorem posToAscii_rD1 (p : Params) (q : Byte) (s : State) : (posToAscii p q s).rD1 = s.rD1 := rfl
@[simp] theorem posToAscii_rD2 (p : Params) (q : Byte) (s : State) : (posToAscii p q s).rD2 = s.rD2 := rfl
@[simp] theorem posToAscii_rLen (p : Params) (q : Byte) (s : State) : (posToAscii p q s).rLen = s.rLen := rfl
@[simp] theorem posToAscii_rClass (p : Params) (q : Byte) (s : State) : (posToAscii p q s).rClass = s.rClass := rfl
@[simp] theorem posToAscii_rAscii (p : Params) (q : Byte) (s : State) : (posToAscii p q s).rAscii = revLookup p.rom q := rfl
@[simp] theorem posToAscii_rPos (p : Params) (q : Byte) (s : State) : (posToAscii p q s).rPos = s.rPos := rfl
@[simp] theorem posToAscii_rxq (p : Params) (q : Byte) (s : State) : (posToAscii p q s).rxq = s.rxq := rfl
@[simp] theorem posToAscii_txs (p : Params) (q : Byte) (s : State) : (posToAscii p q s).txs = s.txs := rfl
@[simp] theorem posToAscii_turns (p : Params) (q : Byte) (s : State) : (posToAscii p q s).turns = s.turns := rfl

@[simp] theorem sendWord_engine (x : TxCtx) (f : TxFrame) (s : State) : (sendWord x f s).engine = .busy (.tx x f .echo) := rfl
@[simp] theorem sendWord_kbd (x : TxCtx) (f : TxFrame) (s : State) : (sendWord x f s).kbd = s.kbd := rfl
@[simp] theorem sendWord_req (x : TxCtx) (f : TxFrame) (s : State) : (sendWord x f s).req = s.req := rfl
@[simp] theorem sendWord_rErr (x : TxCtx) (f : TxFrame) (s : State) : (sendWord x f s).rErr = s.rErr := rfl
@[simp] theorem sendWord_rField (x : TxCtx) (f : TxFrame) (s : State) : (sendWord x f s).rField = s.rField := rfl
@[simp] theorem sendWord_rResp (x : TxCtx) (f : TxFrame) (s : State) : (sendWord x f s).rResp = s.rResp := rfl
@[simp] theorem sendWord_rPresent (x : TxCtx) (f : TxFrame) (s : State) : (sendWord x f s).rPresent = s.rPresent := rfl
@[simp] theorem sendWord_rOpc (x : TxCtx) (f : TxFrame) (s : State) : (sendWord x f s).rOpc = s.rOpc := rfl
@[simp] theorem sendWord_rD1 (x : TxCtx) (f : TxFrame) (s : State) : (sendWord x f s).rD1 = s.rD1 := rfl
@[simp] theorem sendWord_rD2 (x : TxCtx) (f : TxFrame) (s : State) : (sendWord x f s).rD2 = s.rD2 := rfl
@[simp] theorem sendWord_rLen (x : TxCtx) (f : TxFrame) (s : State) : (sendWord x f s).rLen = s.rLen := rfl
@[simp] theorem sendWord_rClass (x : TxCtx) (f : TxFrame) (s : State) : (sendWord x f s).rClass = s.rClass := rfl
@[simp] theorem sendWord_rAscii (x : TxCtx) (f : TxFrame) (s : State) : (sendWord x f s).rAscii = s.rAscii := rfl
@[simp] theorem sendWord_rPos (x : TxCtx) (f : TxFrame) (s : State) : (sendWord x f s).rPos = s.rPos := rfl
@[simp] theorem sendWord_rxq (x : TxCtx) (f : TxFrame) (s : State) : (sendWord x f s).rxq = s.rxq := rfl
@[simp] theorem sendWord_txs (x : TxCtx) (f : TxFrame) (s : State) : (sendWord x f s).txs = s.txs ++ [f.word f.k] := rfl
@[simp] theorem sendWord_turns (x : TxCtx) (f : TxFrame) (s : State) : (sendWord x f s).turns = s.turns := rfl

@[simp] theorem applyReset_engine (s : State) : (applyReset s).engine = .idle := rfl
@[simp] theorem applyReset_kbd (s : State) : (applyReset s).kbd = .us := rfl
@[simp] theorem applyReset_req (s : State) : (applyReset s).req = s.req := rfl
@[simp] theorem applyReset_rErr (s : State) : (applyReset s).rErr = .noError := rfl
@[simp] theorem applyReset_rField (s : State) : (applyReset s).rField = .fNone := rfl
@[simp] theorem applyReset_rResp (s : State) : (applyReset s).rResp = 0 := rfl
@[simp] theorem applyReset_rPresent (s : State) : (applyReset s).rPresent = false := rfl
@[simp] theorem applyReset_rOpc (s : State) : (applyReset s).rOpc = 0 := rfl
@[simp] theorem applyReset_rD1 (s : State) : (applyReset s).rD1 = 0 := rfl
@[simp] theorem applyReset_rD2 (s : State) : (applyReset s).rD2 = 0 := rfl
@[simp] theorem applyReset_rLen (s : State) : (applyReset s).rLen = 0 := rfl
@[simp] theorem applyReset_rClass (s : State) : (applyReset s).rClass = .noCommand := rfl
@[simp] theorem applyReset_rAscii (s : State) : (applyReset s).rAscii = 0 := rfl
@[simp] theorem applyReset_rPos (s : State) : (applyReset s).rPos = 0 := rfl
@[simp] theorem applyReset_rxq (s : State) : (applyReset s).rxq = s.rxq := rfl
@[simp] theorem applyReset_txs (s : State) : (applyReset s).txs = s.txs := rfl
@[simp] theorem applyReset_turns (s : State) : (applyReset s).turns = s.turns := rfl

/-- The last `withTurns` counts. -/
@[simp] theorem withTurns_withTurns (ts us : Schedule) (s : State) : (s.withTurns ts).withTurns us = s.withTurns us := rfl

/-! ### The next turn -/

@[simp] theorem next_listed (t : Turn) (ts : List Turn) (l : Later) :
    (Schedule.mk (t :: ts) l).next = some (t, ⟨ts, l⟩) := by cases l <;> rfl
@[simp] theorem next_quiet : (Schedule.mk [] .quiet).next = none := rfl
@[simp] theorem next_again (t : Turn) (ts : List Turn) :
    (Schedule.mk [] (.again t ts)).next = some (t, ⟨ts, .again t ts⟩) := rfl
@[simp] theorem next_free (n : Nat) :
    (Schedule.mk [] (.free n)).next = some (Config.turnAt n, ⟨[], .free (n + 1)⟩) := rfl
@[simp] theorem next_after (t : Turn) (ts : Schedule) : (ts.after t).next = some (t, ts) := next_listed t _ _

/-- No turn is left only when none is listed and no other agent moves later. -/
theorem next_eq_none {ts : Schedule} : ts.next = none ↔ ts = ⟨[], .quiet⟩ := by
  rcases ts with ⟨_ | ⟨t, ts⟩, _ | _ | _⟩ <;> simp [Schedule.next]

end Sys2Proof.Machine
end

