-- ==== Sys2Proof/Laws/Engine.lean ====
section
/-! SUPPORT. What an engine step can do, said once: the channel calls, the number of steps an operation can take on
the words it has, and the state it comes to rest in. Proofs cite these and do not unfold `settle`. -/

namespace Sys2Proof.Machine

variable {p : Params} {s t : State}

theorem chanRead_eq_none : chanRead s = none ↔ s.rxq = [] := by
  unfold chanRead; split <;> simp_all

theorem chanRead_cons {w : Word9} {q : List Word9} (h : s.rxq = w :: q) : chanRead s = some (w, { s with rxq := q }) := by
  simp [chanRead, h]

/-- A ChanRead that returns takes the head of RXQ and changes nothing else (R10). -/
theorem chanRead_eq_some {e : Word9 × State} (h : chanRead s = some e) :
    ∃ q, s.rxq = e.1 :: q ∧ e.2 = { s with rxq := q } := by
  unfold chanRead at h
  split at h
  · cases h
  · next w q hq => cases h; exact ⟨q, hq, rfl⟩

theorem chanAvailable_iff : chanAvailable s = true ↔ s.rxq ≠ [] := by
  simp [chanAvailable]

/-- The channel calls one engine step can make (R13): none, one ChanWrite, or one ChanRead. -/
inductive ChannelCall (s t : State) : Prop where
  | quiet (htx : t.txs = s.txs) (hrx : t.rxq = s.rxq)
  | write (w : Word9) (htx : t.txs = s.txs ++ [w]) (hrx : t.rxq = s.rxq)
  | read (w : Word9) (htx : t.txs = s.txs) (hrx : s.rxq = w :: t.rxq)

/-- The weight of a point of an operation, so that every engine step lowers `stepsLeft`. -/
def Activity.weight : Activity → Nat
  | .start _ => 2
  | .tx _ _ (.got _) => 2
  | .tx _ _ _ => 1
  | .rx _ _ _ _ => 1
  | .flush .read => 2
  | .flush _ => 1

/-- No more engine steps than this are left before the operation ends or holds, if no other agent moves. -/
def stepsLeft (s : State) : Nat :=
  match s.engine with
  | .idle => 0
  | .busy a => 2 * s.rxq.length + a.weight

theorem stepsLeft_of_idle (h : s.engine = .idle) : stepsLeft s = 0 := by simp [stepsLeft, h]

theorem stepsLeft_of_busy {a : Activity} (h : s.engine = .busy a) : stepsLeft s = 2 * s.rxq.length + a.weight := by
  simp [stepsLeft, h]

theorem weight_pos (a : Activity) : 0 < a.weight := by
  rcases a with _ | ⟨_, _, _ | _ | _⟩ | _ | ⟨_ | _⟩ <;> simp [Activity.weight]

theorem stepsLeft_le_stepBound (s : State) : stepsLeft s ≤ stepBound s := by
  unfold stepsLeft stepBound
  split
  · omega
  · next a _ => rcases a with _ | ⟨_, _, _ | _ | _⟩ | _ | ⟨_ | _⟩ <;> simp [Activity.weight]

theorem chanRead_goto {a : Activity} (h : (chanRead s).map (fun e => e.2.goto a) = some t) :
    ∃ w q, s.rxq = w :: q ∧ t = ({ s with rxq := q } : State).goto a := by
  rcases hc : chanRead s with _ | e
  · simp [hc] at h
  · obtain ⟨q, hq, he⟩ := chanRead_eq_some hc
    simp only [hc, Option.map_some, Option.some.injEq] at h
    exact ⟨e.1, q, hq, by rw [← h, he]⟩

theorem readWord_eq_some {key : Bool} {buf : RxFrame} {k : Nat} (h : readWord key buf k s = some t) :
    ∃ w q, s.rxq = w :: q ∧ t = ({ s with rxq := q } : State).goto (.rx key (buf.set k w) k .got) := by
  unfold readWord at h
  rcases hc : chanRead s with _ | e
  · simp [hc] at h
  · obtain ⟨q, hq, he⟩ := chanRead_eq_some hc
    simp only [hc, Option.map_some, Option.some.injEq] at h
    exact ⟨e.1, q, hq, by rw [← h, he]⟩

theorem readWord_cons {key : Bool} {buf : RxFrame} {k : Nat} {w : Word9} {q : List Word9} (h : s.rxq = w :: q) :
    readWord key buf k s = some (({ s with rxq := q } : State).goto (.rx key (buf.set k w) k .got)) := by
  simp [readWord, chanRead_cons h]

theorem readWord_eq_none {key : Bool} {buf : RxFrame} {k : Nat} : readWord key buf k s = none ↔ s.rxq = [] := by
  simp [readWord, chanRead_eq_none]

/-- What an engine step does to a transmission once its response is worked on: a ChanWrite that goes on, or the end. -/
theorem afterResponse_cases (p : Params) (x : TxCtx) (f : TxFrame) (r : Word9) (s : State) :
    ((afterResponse p x f r s).engine = .idle ∧ (afterResponse p x f r s).txs = s.txs ∧
      (afterResponse p x f r s).rxq = s.rxq) ∨
    ∃ x' f', (afterResponse p x f r s).engine = .busy (.tx x' f' .echo) ∧
      (afterResponse p x f r s).txs = s.txs ++ [f'.word f'.k] ∧ (afterResponse p x f r s).rxq = s.rxq := by
  unfold afterResponse
  split
  · left; simp
  · split
    · right; exact ⟨x, { f with k := f.k + 1 }, by simp⟩
    · unfold frameSent
      split
      · left; simp
      · split
        · left; simp
        · right; exact ⟨_, loadFrame p.busAddress _ 0 0, rfl, by simp [startPoll, startFrame], by simp [startPoll, startFrame]⟩

/-- A read of a frame word is one ChanRead. -/
theorem readWord_call {key : Bool} {buf : RxFrame} {k : Nat} {u v : State} (h : readWord key buf k u = some v) :
    ChannelCall u v ∧ stepsLeft v < 2 * u.rxq.length + 1 := by
  obtain ⟨w, q, hq, rfl⟩ := readWord_eq_some h
  exact ⟨.read w (by simp) (by simpa using hq), by simp [stepsLeft, Activity.weight, hq]⟩

/-- The first step of a reception makes one channel call. -/
theorem beginReceive_call {key blk : Bool} {s t : State} (h : beginReceive key blk s = some t) :
    ChannelCall s t ∧ stepsLeft t < 2 * s.rxq.length + 2 := by
  unfold beginReceive at h
  dsimp only at h
  split at h
  · obtain ⟨hc, hl⟩ := readWord_call h
    have e1 : (markPresent (clearReceived (clearKey key s))).txs = s.txs := by cases key <;> simp [clearKey]
    have e2 : (markPresent (clearReceived (clearKey key s))).rxq = s.rxq := by cases key <;> simp [clearKey]
    rw [e2] at hl
    refine ⟨?_, by omega⟩
    cases hc with
    | quiet htx hrx => exact .quiet (htx.trans e1) (hrx.trans e2)
    | write w htx hrx => exact .write w (by rw [htx, e1]) (hrx.trans e2)
    | read w htx hrx => exact .read w (htx.trans e1) (by rw [← e2, hrx])
  · cases h
    cases key <;> exact ⟨.quiet (by simp [clearKey]) (by simp [clearKey]), by simp [clearKey, stepsLeft, Activity.weight]⟩

/-- The step to the next word makes one ChanRead or ends the operation. -/
theorem nextWord_call {p : Params} {key : Bool} {buf : RxFrame} {k : Nat} {s t : State} (h : nextWord p key buf k s = some t) :
    ChannelCall s t ∧ stepsLeft t < 2 * s.rxq.length + 1 := by
  unfold nextWord at h
  split at h
  · exact readWord_call h
  · cases h
    cases key <;> exact ⟨.quiet (by simp [frameReceived, classify]) (by simp [frameReceived, classify]),
      by simp [frameReceived, stepsLeft]⟩

/-- A step of a reception makes at most one channel call. -/
theorem rxStep_call {p : Params} {key : Bool} {buf : RxFrame} {k : Nat} {ph : RxPhase} {s t : State}
    (h : rxStep p key buf k ph s = some t) :
    ChannelCall s t ∧ stepsLeft t < 2 * s.rxq.length + 1 := by
  unfold rxStep at h
  split at h
  · obtain ⟨hc, hl⟩ := readWord_call h
    refine ⟨?_, by simpa using hl⟩
    cases hc with
    | quiet htx hrx => exact .quiet (by simpa using htx) (by simpa using hrx)
    | write w htx hrx => exact .write w (by simpa using htx) (by simpa using hrx)
    | read w htx hrx => exact .read w (by simpa using htx) (by simpa using hrx)
  · cases h
    cases key <;> exact ⟨.quiet (by simp [nothingPending]) (by simp [nothingPending]), by simp [nothingPending, stepsLeft]⟩
  · split at h
    · split at h
      · obtain ⟨w, q, hq, rfl⟩ := chanRead_goto h
        exact ⟨.read w (by simp) (by simpa using hq), by simp [stepsLeft, Activity.weight, hq]⟩
      · exact nextWord_call h
    · cases h
      exact ⟨.quiet (by simp) (by simp), by simp [stepsLeft]⟩
  · exact nextWord_call h

/-- A step that is an engine's last leaves the channel alone, and any other either lowers `stepsLeft` with one channel
call. -/
theorem engineStep_call (h : engineStep p s = some t) : ChannelCall s t ∧ stepsLeft t < stepsLeft s := by
  unfold engineStep at h
  split at h
  · cases h
  · next j hj =>
    rw [stepsLeft_of_busy hj]
    unfold beginJob at h
    split at h
    · cases h
      unfold beginSend
      split
      · exact ⟨.write _ rfl rfl, by simp [startFrame, stepsLeft, Activity.weight]⟩
      · exact ⟨.quiet (by simp) (by simp), by simp [stepsLeft, Activity.weight]⟩
    · cases h
      unfold beginWaitrdy
      split
      · exact ⟨.write _ rfl rfl, by simp [startPoll, startFrame, stepsLeft, Activity.weight]⟩
      · exact ⟨.quiet (by simp) (by simp), by simp [stepsLeft, Activity.weight]⟩
    · exact beginReceive_call h
    · exact beginReceive_call h
    · cases h
      exact ⟨.quiet (by simp [flushTest]) (by simp [flushTest]), by simp [flushTest, stepsLeft, Activity.weight]⟩
    · cases h; exact ⟨.quiet (by simp) (by simp), by simp [stepsLeft, Activity.weight]⟩
    · cases h; exact ⟨.quiet (by simp) (by simp), by simp [stepsLeft, Activity.weight]⟩
    · cases h; exact ⟨.quiet (by simp) (by simp), by simp [stepsLeft, Activity.weight]⟩
  · next x f ph hj =>
    rw [stepsLeft_of_busy hj]
    unfold txStep at h
    split at h
    · obtain ⟨w, q, hq, rfl⟩ := chanRead_goto h
      exact ⟨.read w (by simp) (by simpa using hq), by simp [stepsLeft, Activity.weight, hq]⟩
    · simp only [Option.map_eq_some_iff] at h
      obtain ⟨e, hc, rfl⟩ := h
      obtain ⟨q, hq, he⟩ := chanRead_eq_some hc
      exact ⟨.read e.1 (by simp [he]) (by simpa [he] using hq), by simp [stepsLeft, Activity.weight, he, hq]; omega⟩
    · cases h
      rcases afterResponse_cases p x f ‹_› s with ⟨he, ht, hr⟩ | ⟨x', f', he, ht, hr⟩
      · exact ⟨.quiet ht hr, by simp [stepsLeft, he, Activity.weight]⟩
      · exact ⟨.write _ ht hr, by simp [stepsLeft, he, hr, Activity.weight]⟩
  · next key buf k ph hj =>
    rw [stepsLeft_of_busy hj]
    exact rxStep_call h
  · next ph hj =>
    rw [stepsLeft_of_busy hj]
    unfold flushStep at h
    split at h
    · obtain ⟨w, q, hq, rfl⟩ := chanRead_goto h
      exact ⟨.read w (by simp) (by simpa using hq), by simp [stepsLeft, Activity.weight, hq]; omega⟩
    · cases h
      exact ⟨.quiet (by simp) (by simp), by simp [stepsLeft, Activity.weight]⟩
    · cases h
      exact ⟨.quiet (by simp [flushTest]) (by simp [flushTest]), by simp [flushTest, stepsLeft, Activity.weight]⟩

/-- An engine step lowers `stepsLeft`. -/
theorem engineStep_lowers (h : engineStep p s = some t) : stepsLeft t < stepsLeft s := (engineStep_call h).2

/-- An idle engine has no step (R13). -/
theorem engineStep_idle (h : s.engine = .idle) : engineStep p s = none := by simp [engineStep, h]

/-- The state an undisturbed operation comes to rest in: ended, or at a hold. -/
def rest (p : Params) (s : State) : State := settle p (stepsLeft s) s

theorem settle_of_none (h : engineStep p s = none) (n : Nat) : settle p n s = s := by
  cases n <;> simp [settle, h]

/-- More steps than are left change nothing. -/
theorem settle_eq_rest (p : Params) : ∀ (n : Nat) (s : State), stepsLeft s ≤ n → settle p n s = rest p s := by
  intro n
  induction n using Nat.strongRecOn with
  | ind n ih =>
    intro s hn
    unfold rest
    rcases hs : engineStep p s with _ | t
    · rw [settle_of_none hs, settle_of_none hs]
    · have hl := engineStep_lowers hs
      obtain ⟨m, rfl⟩ : ∃ m, n = m + 1 := ⟨n - 1, by omega⟩
      obtain ⟨l, hl'⟩ : ∃ l, stepsLeft s = l + 1 := ⟨stepsLeft s - 1, by omega⟩
      rw [hl']
      simp only [settle, hs]
      rw [ih m (by omega) t (by omega)]
      by_cases hml : l = m
      · subst hml
        rw [ih l (by omega) t (by omega)]
      · rw [ih l (by omega) t (by omega)]

/-- Rest after one engine step is the same rest: how proofs run an operation forward. -/
theorem rest_step (h : engineStep p s = some t) : rest p s = rest p t := by
  have hl := engineStep_lowers h
  rw [← settle_eq_rest p (stepsLeft s) s (le_refl _)]
  obtain ⟨l, hl'⟩ : ∃ l, stepsLeft s = l + 1 := ⟨stepsLeft s - 1, by omega⟩
  rw [hl']
  simp only [settle, h]
  exact settle_eq_rest p l t (by omega)

/-- A state without an engine step is at rest. -/
theorem rest_of_none (h : engineStep p s = none) : rest p s = s := settle_of_none h _

/-- An ended operation is at rest. -/
theorem rest_of_idle (h : s.engine = .idle) : rest p s = s := rest_of_none (engineStep_idle h)

/-- The state of rest has no engine step. -/
theorem engineStep_rest (p : Params) (s : State) : engineStep p (rest p s) = none := by
  suffices H : ∀ n s, stepsLeft s ≤ n → engineStep p (rest p s) = none from H _ s (le_refl _)
  intro n
  induction n with
  | zero =>
    intro s hs
    rcases h : engineStep p s with _ | t
    · rw [rest_of_none h, h]
    · have := engineStep_lowers h; omega
  | succ n ih =>
    intro s hs
    rcases h : engineStep p s with _ | t
    · rw [rest_of_none h, h]
    · rw [rest_step h]
      exact ih t (by have := engineStep_lowers h; omega)

/-- A property every engine step keeps holds at rest. -/
theorem rest_induction {P : State → Prop} (hstep : ∀ u v, engineStep p u = some v → P u → P v) :
    ∀ s, P s → P (rest p s) := by
  suffices H : ∀ n s, stepsLeft s ≤ n → P s → P (rest p s) from fun s => H _ s (le_refl _)
  intro n
  induction n with
  | zero =>
    intro s hs hp
    rcases h : engineStep p s with _ | t
    · rwa [rest_of_none h]
    · have := engineStep_lowers h; omega
  | succ n ih =>
    intro s hs hp
    rcases h : engineStep p s with _ | t
    · rwa [rest_of_none h]
    · rw [rest_step h]
      exact ih t (by have := engineStep_lowers h; omega) (hstep s t h hp)

/-- With no turn left, the engine's share of a step brings its operation to rest. -/
theorem engineTurn_alone (h : s.turns.next = none) : engineTurn p s = rest p s := by
  simp only [engineTurn, h]
  exact settle_eq_rest p _ s (stepsLeft_le_stepBound s)

/-- What the engine's share of a step can be: rest, one engine step, or nothing. -/
theorem engineTurn_cases (p : Params) (s : State) :
    (s.turns.next = none ∧ engineTurn p s = rest p s) ∨
    (∃ ts, s.turns.next = some (.engine, ts) ∧ engineTurn p s = (engineStep p (s.withTurns ts)).getD (s.withTurns ts)) ∨
    engineTurn p s = s := by
  rcases h : s.turns.next with _ | ⟨_ | w | r | _, ts⟩
  · exact .inl ⟨rfl, engineTurn_alone h⟩
  · exact .inr (.inl ⟨ts, rfl, by simp [engineTurn, h]⟩)
  all_goals exact .inr (.inr (by simp [engineTurn, h]))

/-- A property that every engine step and every change of the turns keeps is kept by the engine's share of a step. -/
theorem engineTurn_induction {P : State → Prop} (hstep : ∀ u v, engineStep p u = some v → P u → P v)
    (hturns : ∀ u ts, P u → P (u.withTurns ts)) (hs : P s) : P (engineTurn p s) := by
  rcases engineTurn_cases p s with ⟨_, h⟩ | ⟨ts, _, h⟩ | h
  · rw [h]; exact rest_induction hstep s hs
  · rw [h]
    rcases he : engineStep p (s.withTurns ts) with _ | t
    · exact hturns s ts hs
    · exact hstep _ t he (hturns s ts hs)
  · rwa [h]

/-- A request while an operation runs is refused (R23). -/
theorem operate_busy {j : Job} {a : Activity} (h : s.engine = .busy a) : operate p j s = .refused .requestWhileBusy := by
  simp [operate, h]

/-- A request while IDLE starts its operation (R23). -/
theorem operate_idle {j : Job} (h : s.engine = .idle) : operate p j s = .next (engineTurn p (s.goto (.start j))) := by
  simp [operate, h]

/-- An operation that no other agent disturbs comes to rest in one machine step. -/
theorem operate_alone {j : Job} (h : s.engine = .idle) (ht : s.turns.next = none) :
    operate p j s = .next (rest p (s.goto (.start j))) := by
  rw [operate_idle h, engineTurn_alone (by simpa using ht)]

/-- What a request that is not refused answers. -/
theorem operate_eq_next {j : Job} (h : operate p j s = .next t) :
    s.engine = .idle ∧ t = engineTurn p (s.goto (.start j)) := by
  unfold operate at h
  split at h
  · next hi => cases h; exact ⟨hi, rfl⟩
  · cases h

/-! ### One engine step, by the point reached -/

theorem engineStep_start {j : Job} (s : State) : engineStep p (s.goto (.start j)) = beginJob p j (s.goto (.start j)) := rfl

theorem engineStep_tx {x : TxCtx} {f : TxFrame} {ph : TxPhase} (s : State) :
    engineStep p (s.goto (.tx x f ph)) = txStep p x f ph (s.goto (.tx x f ph)) := rfl

theorem engineStep_rx {key : Bool} {buf : RxFrame} {k : Nat} {ph : RxPhase} (s : State) :
    engineStep p (s.goto (.rx key buf k ph)) = rxStep p key buf k ph (s.goto (.rx key buf k ph)) := rfl

theorem engineStep_flush {ph : FlushPhase} (s : State) :
    engineStep p (s.goto (.flush ph)) = flushStep ph (s.goto (.flush ph)) := rfl

/-- The last `goto` counts. -/
@[simp] theorem goto_goto (s : State) (a b : Activity) : (s.goto a).goto b = s.goto b := rfl

/-- A word sent, its echo and its response read: three engine steps, after which the response is worked on (R100,
R102). -/
theorem rest_exchange {x : TxCtx} {f : TxFrame} {e r : Word9} {q : List Word9} (h : s.rxq = e :: r :: q) :
    rest p (sendWord x f s) =
      rest p (afterResponse p x f r
        (({ s with rxq := q, txs := s.txs ++ [f.word f.k] } : State).goto (.tx x f (.got r)))) := by
  have h1 : engineStep p (sendWord x f s) =
      some (({ s with rxq := r :: q, txs := s.txs ++ [f.word f.k] } : State).goto (.tx x f .resp)) := by
    simp [sendWord, engineStep, txStep, chanRead, chanWrite, State.goto, h]
  have h2 : engineStep p (({ s with rxq := r :: q, txs := s.txs ++ [f.word f.k] } : State).goto (.tx x f .resp)) =
      some (({ s with rxq := q, txs := s.txs ++ [f.word f.k] } : State).goto (.tx x f (.got r))) := by
    simp [engineStep, txStep, chanRead, State.goto]
  rw [rest_step h1, rest_step h2]
  exact rest_step rfl

/-- The step to the next word holds only at a ChanRead with RXQ empty. -/
theorem nextWord_none {p : Params} {key : Bool} {buf : RxFrame} {k : Nat} {s : State} (h : nextWord p key buf k s = none) :
    s.rxq = [] := by
  unfold nextWord at h
  split at h
  · exact readWord_eq_none.mp h
  · cases h

/-- An engine holds only at a ChanRead with RXQ empty (R10, R13). -/
theorem rxq_nil_of_hold {a : Activity} (hb : s.engine = .busy a) (h : engineStep p s = none) : s.rxq = [] := by
  unfold engineStep at h
  split at h
  · simp_all
  · unfold beginJob at h
    split at h <;> try cases h
    all_goals
      unfold beginReceive at h
      dsimp only at h
      split at h
      · rw [readWord_eq_none] at h; simpa [clearKey] using h
      · cases h
  · unfold txStep at h
    split at h
    · simpa [chanRead_eq_none] using h
    · simpa [chanRead_eq_none] using h
    · cases h
  · unfold rxStep at h
    split at h
    · rw [readWord_eq_none] at h; simpa using h
    · cases h
    · split at h
      · split at h
        · simpa [chanRead_eq_none] using h
        · exact nextWord_none h
      · cases h
    · exact nextWord_none h
  · unfold flushStep at h
    split at h
    · simpa [chanRead_eq_none] using h
    · cases h
    · cases h

theorem isIdle_iff : s.isIdle = true ↔ s.engine = .idle := by
  unfold State.isIdle
  split <;> simp_all

/-- An operation requested of an engine that runs alone comes to rest in one machine step. -/
theorem operate_of_alone {j : Job} (h : Safety.Alone s) : operate p j s = .next (rest p (s.goto (.start j))) :=
  operate_alone (isIdle_iff.mp h.1) h.2

/-! ### The engine does not look at the turns -/

theorem chanRead_withTurns (ts : Schedule) (g : Word9 → Activity) (s : State) :
    ((chanRead (s.withTurns ts)).map fun e => e.2.goto (g e.1)) =
      ((chanRead s).map fun e => e.2.goto (g e.1)).map (·.withTurns ts) := by
  unfold chanRead
  rw [withTurns_rxq]
  rcases s.rxq with _ | ⟨w, q⟩ <;> rfl

theorem readWord_withTurns (ts : Schedule) (key : Bool) (buf : RxFrame) (k : Nat) (s : State) :
    readWord key buf k (s.withTurns ts) = (readWord key buf k s).map (·.withTurns ts) :=
  chanRead_withTurns ts (fun w => .rx key (buf.set k w) k .got) s

theorem nextWord_withTurns (ts : Schedule) (key : Bool) (buf : RxFrame) (k : Nat) (s : State) :
    nextWord p key buf k (s.withTurns ts) = (nextWord p key buf k s).map (·.withTurns ts) := by
  unfold nextWord
  split
  · exact readWord_withTurns ts key buf _ s
  · cases key <;> rfl

theorem afterResponse_withTurns (ts : Schedule) (x : TxCtx) (f : TxFrame) (r : Word9) (s : State) :
    afterResponse p x f r (s.withTurns ts) = (afterResponse p x f r s).withTurns ts := by
  unfold afterResponse frameSent
  split
  · rfl
  split
  · rfl
  cases x
  · rfl
  by_cases h : r = 0 <;> simp only [setResp_rResp, h, if_true, if_false] <;> rfl

/-- The engine's step is the same whatever turns remain (R13). -/
theorem engineStep_withTurns (ts : Schedule) (s : State) :
    engineStep p (s.withTurns ts) = (engineStep p s).map (·.withTurns ts) := by
  unfold engineStep
  rw [withTurns_engine]
  rcases s.engine with _ | ⟨j | ⟨x, f, ph⟩ | ⟨key, buf, k, ph⟩ | ph⟩
  · rfl
  · cases j
    case send => simp only [beginJob, beginSend]; split <;> rfl
    case waitrdy => simp only [beginJob, beginWaitrdy]; split <;> rfl
    case rdcmd blk => cases blk; rfl; exact readWord_withTurns ts _ _ _ (markPresent (clearReceived (clearKey false s)))
    case rdkey blk => cases blk; rfl; exact readWord_withTurns ts _ _ _ (markPresent (clearReceived (clearKey true s)))
    all_goals rfl
  · cases ph
    · exact chanRead_withTurns ts (fun _ => .tx x f .resp) s
    · exact chanRead_withTurns ts (fun w => .tx x f (.got w)) s
    · exact congrArg some (afterResponse_withTurns ts x f _ s)
  · simp only [rxStep]
    split
    · exact readWord_withTurns ts _ _ _ (markPresent s)
    · cases key <;> rfl
    · split
      · split
        · exact chanRead_withTurns ts (fun _ => .rx key buf k .skipped) s
        · exact nextWord_withTurns ts _ _ _ _
      · rfl
    · exact nextWord_withTurns ts _ _ _ _
  · simp only [flushStep]
    split
    · exact chanRead_withTurns ts (fun _ => .flush .read) s
    · rfl
    · rfl

end Sys2Proof.Machine
end

