-- ==== Sys2Proof/Laws/PerInstr.lean ====
section
/-! SUPPORT. Facts about every instruction as syntax, one lemma per constructor. -/

namespace Sys2Proof.Laws

/-- The field of an instruction's request that its row of spec/opcode_table.json fixes bits of: HOP for a request (R71),
the opcode operand for the rest (R63). -/
def rowField (i : Instr) : Byte :=
  match i.level with
  | .request => (reqHop (encode i)).setWidth 8
  | .command => reqOpc (encode i)

/-- The mask and match of an instruction's row. -/
def row : Instr → Byte × Byte
  | .send _ _ _ _ _ => (0x0F, 0x0)
  | .waitrdy _ => (0x0F, 0x1)
  | .rdcmd _ => (0x0F, 0x2)
  | .rdkey _ => (0x0F, 0x3)
  | .flushrx => (0x0F, 0x4)
  | .setkbd _ => (0x0F, 0x5)
  | .a2p _ => (0x0F, 0x6)
  | .p2a _ => (0x0F, 0x7)
  | .reservedHop _ => (0x08, 0x8)
  | .opc00 _ _ _ _ => (0xFF, 0x00)
  | .opc01 _ _ _ _ => (0xFF, 0x01)
  | .opc02 _ _ _ _ => (0xFF, 0x02)
  | .opc03 _ _ _ _ => (0xFF, 0x03)
  | .opc04 _ _ _ _ => (0xFF, 0x04)
  | .opc05 _ _ _ _ => (0xFF, 0x05)
  | .opc06 _ _ _ _ => (0xFF, 0x06)
  | .opc07 _ _ _ _ => (0xFF, 0x07)
  | .opc08 _ _ _ _ => (0xFF, 0x08)
  | .opc09 _ _ _ _ => (0xFF, 0x09)
  | .opc0a _ _ _ _ => (0xFF, 0x0A)
  | .queryStatus _ _ _ _ => (0xFF, 0x0B)
  | .opc0c _ _ _ _ => (0xFF, 0x0C)
  | .opc0d _ _ _ _ => (0xFF, 0x0D)
  | .opc0e _ _ _ _ => (0xFF, 0x0E)
  | .invalidOpc0f _ => (0xFF, 0x0F)
  | .invalidOpc10_1f _ _ => (0xF0, 0x10)
  | .invalidOpc20_3f _ _ => (0xE0, 0x20)
  | .invalidOpc40_7f _ _ => (0xC0, 0x40)
  | .invalidOpc80_ff _ _ => (0x80, 0x80)

namespace WordInRow

/-- A well-formed instruction's word has the bits its row fixes. -/
def Statement (i : Instr) : Prop := i.wf = true → rowField i &&& (row i).1 = (row i).2

variable (a : BusAddr) (o d1 d2 : Byte) (b : Bool) (u : OpcUser)

theorem send : Statement (.send a o d1 d2 b) := fun _ => by
  simp [rowField, row, Instr.level, encode, reqHop_packReq]

theorem waitrdy : Statement (.waitrdy o) := fun _ => by
  simp [rowField, row, Instr.level, encode, reqHop_packReq]

theorem rdcmd : Statement (.rdcmd b) := fun _ => by
  simp [rowField, row, Instr.level, encode, reqHop_packReq]

theorem rdkey : Statement (.rdkey b) := fun _ => by
  simp [rowField, row, Instr.level, encode, reqHop_packReq]

theorem flushrx : Statement .flushrx := fun _ => by
  simp [rowField, row, Instr.level, encode, reqHop_packReq]

theorem setkbd : Statement (.setkbd b) := fun _ => by
  simp [rowField, row, Instr.level, encode, reqHop_packReq]

theorem a2p : Statement (.a2p o) := fun _ => by
  simp [rowField, row, Instr.level, encode, reqHop_packReq]

theorem p2a : Statement (.p2a o) := fun _ => by
  simp [rowField, row, Instr.level, encode, reqHop_packReq]

theorem reservedHop (hop : BitVec 4) : Statement (.reservedHop hop) := fun h => by
  simp only [Instr.wf, beq_iff_eq] at h
  revert h
  simp only [rowField, row, Instr.level, encode, reqHop_packReq]
  revert hop
  decide

theorem opc00 : Statement (.opc00 a d1 d2 b) := fun _ => by
  simp [rowField, row, Instr.level, encode, reqOpc_packReq]

theorem opc01 : Statement (.opc01 a d1 d2 b) := fun _ => by
  simp [rowField, row, Instr.level, encode, reqOpc_packReq]

theorem opc02 : Statement (.opc02 a d1 d2 b) := fun _ => by
  simp [rowField, row, Instr.level, encode, reqOpc_packReq]

theorem opc03 : Statement (.opc03 a d1 d2 b) := fun _ => by
  simp [rowField, row, Instr.level, encode, reqOpc_packReq]

theorem opc04 : Statement (.opc04 a d1 d2 b) := fun _ => by
  simp [rowField, row, Instr.level, encode, reqOpc_packReq]

theorem opc05 : Statement (.opc05 a d1 d2 b) := fun _ => by
  simp [rowField, row, Instr.level, encode, reqOpc_packReq]

theorem opc06 : Statement (.opc06 a d1 d2 b) := fun _ => by
  simp [rowField, row, Instr.level, encode, reqOpc_packReq]

theorem opc07 : Statement (.opc07 a d1 d2 b) := fun _ => by
  simp [rowField, row, Instr.level, encode, reqOpc_packReq]

theorem opc08 : Statement (.opc08 a d1 d2 b) := fun _ => by
  simp [rowField, row, Instr.level, encode, reqOpc_packReq]

theorem opc09 : Statement (.opc09 a d1 d2 b) := fun _ => by
  simp [rowField, row, Instr.level, encode, reqOpc_packReq]

theorem opc0a : Statement (.opc0a a d1 d2 b) := fun _ => by
  simp [rowField, row, Instr.level, encode, reqOpc_packReq]

theorem queryStatus : Statement (.queryStatus a d1 d2 b) := fun _ => by
  simp [rowField, row, Instr.level, encode, reqOpc_packReq]

theorem opc0c : Statement (.opc0c a d1 d2 b) := fun _ => by
  simp [rowField, row, Instr.level, encode, reqOpc_packReq]

theorem opc0d : Statement (.opc0d a d1 d2 b) := fun _ => by
  simp [rowField, row, Instr.level, encode, reqOpc_packReq]

theorem opc0e : Statement (.opc0e a d1 d2 b) := fun _ => by
  simp [rowField, row, Instr.level, encode, reqOpc_packReq]

theorem invalidOpc0f : Statement (.invalidOpc0f u) := fun _ => by
  simp [rowField, row, Instr.level, encode, reqOpc_packReq]

theorem invalidOpc10_1f : Statement (.invalidOpc10_1f u o) := fun h => by
  simpa [rowField, row, Instr.level, encode, reqOpc_packReq, Instr.wf] using h

theorem invalidOpc20_3f : Statement (.invalidOpc20_3f u o) := fun h => by
  simpa [rowField, row, Instr.level, encode, reqOpc_packReq, Instr.wf] using h

theorem invalidOpc40_7f : Statement (.invalidOpc40_7f u o) := fun h => by
  simpa [rowField, row, Instr.level, encode, reqOpc_packReq, Instr.wf] using h

theorem invalidOpc80_ff : Statement (.invalidOpc80_ff u o) := fun h => by
  simpa [rowField, row, Instr.level, encode, reqOpc_packReq, Instr.wf] using h

end WordInRow

end Sys2Proof.Laws
end

