-- ==== Sys2Proof/Laws/Receive.lean ====
section
/-! SUPPORT. What a reception does with the words of RXQ, one word at a time, and what a flush does with all of them. -/

namespace Sys2Proof.Machine

open Sys2Proof.Safety

variable {p : Params} {key : Bool} {buf : RxFrame} {k : Nat} {s t : State} {q q' : List Word9}

/-- The state of a reception that has just read word K, with q left in RXQ. -/
def gotWord (key : Bool) (buf : RxFrame) (k : Nat) (s : State) (q : List Word9) : State :=
  ({ s with rxq := q } : State).goto (.rx key buf k .got)

theorem readWord_gotWord {w : Word9} (h : s.rxq = w :: q) : readWord key buf k s = some (gotWord key (buf.set k w) k s q) :=
  readWord_cons h

/-- A read of a word forgets the point the engine was at. -/
theorem readWord_goto {a : Activity} : readWord key buf k (s.goto a) = readWord key buf k s := by
  unfold readWord chanRead
  rcases h : s.rxq with _ | ⟨w, q⟩ <;> simp [h, State.goto]

/-- The end of a reception forgets the point the engine was at. -/
theorem frameReceived_goto {a : Activity} : frameReceived p key buf (s.goto a) = frameReceived p key buf s := by
  cases key <;> rfl

/-- The step after an accepted word forgets the point the engine was at. -/
theorem nextWord_goto {a : Activity} : nextWord p key buf k (s.goto a) = nextWord p key buf k s := by
  unfold nextWord
  rw [readWord_goto, frameReceived_goto]

/-- A word that fails its check ends the operation; the words before it and the word itself are gone from RXQ (R121,
R122). -/
theorem rest_gotWord_failed (h : wordOk p k (buf.word k) = false) :
    rest p (gotWord key buf k s q) = raise .framingError (fieldCode k) { s with rxq := q } := by
  rw [rest_step (t := raise .framingError (fieldCode k) (gotWord key buf k s q))
    (by simp [gotWord, engineStep, rxStep, State.goto, h])]
  exact rest_of_idle rfl

/-- An accepted word is followed on RXQ by q, and by a response word first if the bus interleaves them (R121 (e)). -/
def Follows (p : Params) (q' q : List Word9) : Prop :=
  if p.rxAckInterleaved then ∃ skip, q' = skip :: q else q' = q

/-- The words of an inbound frame, taken one at a time. -/
theorem follows_inbound (x : Word9 × Word9) (xs : List (Word9 × Word9)) (q : List Word9) :
    ∃ q', inbound p.rxAckInterleaved (x :: xs) ++ q = x.1 :: q' ∧ Follows p q' (inbound p.rxAckInterleaved xs ++ q) := by
  unfold Follows inbound
  split
  · exact ⟨x.2 :: (exchanged xs ++ q), by simp [exchanged], _, rfl⟩
  · exact ⟨xs.map Prod.fst ++ q, by simp, rfl⟩

/-- After an accepted word, and its response word if there is one, the reception goes on as `nextWord` says (R120). -/
theorem rest_gotWord_accepted (h : wordOk p k (buf.word k) = true) (hq : Follows p q' q)
    (hn : nextWord p key buf k { s with rxq := q } = some t) : rest p (gotWord key buf k s q') = rest p t := by
  unfold Follows at hq
  split at hq
  · next hi =>
    obtain ⟨skip, rfl⟩ := hq
    rw [rest_step (t := ({ s with rxq := q } : State).goto (.rx key buf k .skipped))
      (by simp [gotWord, engineStep, rxStep, State.goto, h, hi, chanRead])]
    apply rest_step
    rw [engineStep_rx]
    simp only [rxStep]
    rw [nextWord_goto, hn]
  · next hi =>
    subst hq
    apply rest_step
    rw [gotWord, engineStep_rx]
    simp only [rxStep, h, if_true, hi, Bool.false_eq_true, if_false]
    rw [nextWord_goto, hn]

/-- After an accepted word of a frame that goes on, an empty RXQ holds the reception (R123). -/
theorem rest_gotWord_holds (h : wordOk p k (buf.word k) = true) (hq : Follows p q' []) (hk : k = 0 ∨ k < buf.len) :
    ∃ ph, rest p (gotWord key buf k s q') = ({ s with rxq := [] } : State).goto (.rx key buf k ph) ∧
      engineStep p (rest p (gotWord key buf k s q')) = none := by
  unfold Follows at hq
  split at hq
  · next hi =>
    obtain ⟨skip, rfl⟩ := hq
    refine ⟨.skipped, ?_, engineStep_rest _ _⟩
    rw [rest_step (t := ({ s with rxq := [] } : State).goto (.rx key buf k .skipped))
      (by simp [gotWord, engineStep, rxStep, State.goto, h, hi, chanRead])]
    exact rest_of_none (by simp [engineStep, rxStep, State.goto, nextWord, hk, readWord, chanRead])
  · next hi =>
    subst hq
    refine ⟨.got, ?_, engineStep_rest _ _⟩
    exact rest_of_none (by simp [gotWord, engineStep, rxStep, State.goto, h, hi, nextWord, hk, readWord, chanRead])

/-- An accepted word of a frame that goes on is followed by the read of the next. -/
theorem nextWord_more {w : Word9} (hk : k = 0 ∨ k < buf.len) (hq : s.rxq = w :: q) :
    nextWord p key buf k s = some (gotWord key (buf.set (k + 1) w) (k + 1) s q) := by
  rw [nextWord, if_pos hk, readWord_gotWord hq]

/-- The last word of a frame completes it. -/
theorem nextWord_last (h0 : k ≠ 0) (hk : ¬ k < buf.len) : nextWord p key buf k s = some (frameReceived p key buf s) := by
  rw [nextWord, if_neg (by simp [h0, hk])]

/-- The first steps of RDCMD and RDKEY with a word in RXQ bring it into RXBUF[0], blocking or not (R120, R123). -/
theorem rest_beginReceive {blk : Bool} {w : Word9} {j : Job} (hj : j = if key then .rdkey blk else .rdcmd blk)
    (hq : s.rxq = w :: q) :
    rest p (s.goto (.start j)) =
      rest p (gotWord key (RxFrame.empty.set 0 w) 0 (markPresent (clearReceived (clearKey key s))) q) := by
  subst hj
  cases blk
  · rw [rest_step (t := (clearReceived (clearKey key s)).goto (.rx key .empty 0 (.avail true)))
      (by cases key <;> simp [engineStep, beginJob, beginReceive, State.goto, chanAvailable, clearReceived, clearKey, setKey,
        hq])]
    apply rest_step
    cases key <;>
      simp [engineStep, rxStep, readWord, chanRead, gotWord, State.goto, clearReceived, clearKey, setKey, markPresent, hq]
  · apply rest_step
    cases key <;>
      simp [engineStep, beginJob, beginReceive, readWord, chanRead, gotWord, State.goto, clearReceived, clearKey, setKey,
        markPresent, hq]

/-- LEN of the opcode word received (R120). -/
theorem len_of_opcWord {o : Byte} (ho : validOpcode o = true) (h : buf.w1 = opcWord o) : buf.len = frameLen o := by
  rw [validOpcode_iff] at ho
  unfold RxFrame.len
  congr 1
  rw [h]
  apply BitVec.eq_of_toNat_eq
  simp [opcWord, BitVec.extractLsb'_toNat]
  omega

/-- Word k of the frame of an opcode and two data bytes to the bus address. -/
def busWord (p : Params) (o d1 d2 : Byte) (k : Nat) : Word9 :=
  [addrWord p.busAddress, opcWord o, dataWord d1, dataWord d2].getD k 0

/-- Every word of a frame to the bus address passes its check (R121). -/
theorem wordOk_busWord {o d1 d2 : Byte} (ho : validOpcode o = true) (hk : k < 4) (h : buf.word k = busWord p o d1 d2 k) :
    wordOk p k (buf.word k) = true := by
  rw [h]
  unfold busWord
  interval_cases k <;> simp [wordOk, ho]

theorem word_set_self (w : Word9) (hk : k ≤ 3) : (buf.set k w).word k = w := by
  interval_cases k <;> rfl

theorem word_set_of_lt {i : Nat} (w : Word9) (hk : k ≤ 3) (hi : i < k) : (buf.set k w).word i = buf.word i := by
  interval_cases k <;> interval_cases i <;> rfl

/-- Good words after word k bring the reception to the last of them, whatever response words lie between (R120, R121).
-/
theorem rest_gotWord_words {o d1 d2 : Byte} (ho : validOpcode o = true) (tail : List Word9) (s : State) :
    ∀ (xs : List (Word9 × Word9)) (k : Nat) (buf : RxFrame) (q' : List Word9),
      (∀ i ≤ k, buf.word i = busWord p o d1 d2 i) → k + xs.length ≤ frameLen o →
      (∀ i (h : i < xs.length), xs[i].1 = busWord p o d1 d2 (k + 1 + i)) →
      Follows p q' (inbound p.rxAckInterleaved xs ++ tail) →
      ∃ (buf' : RxFrame) (q'' : List Word9), (∀ i ≤ k + xs.length, buf'.word i = busWord p o d1 d2 i) ∧
        Follows p q'' tail ∧ rest p (gotWord key buf k s q') = rest p (gotWord key buf' (k + xs.length) s q'') := by
  intro xs
  induction xs with
  | nil =>
    intro k buf q' hb _ _ hq
    exact ⟨buf, q', hb, by simpa [inbound, exchanged] using hq, rfl⟩
  | cons x xs ih =>
    intro k buf q' hb hk hx hq
    simp only [List.length_cons] at hk hx
    have hfl := frameLen_of_valid o ho
    obtain ⟨q1, h1, h2⟩ := follows_inbound (p := p) x xs tail
    have hx0 : x.1 = busWord p o d1 d2 (k + 1) := hx 0 (by omega)
    obtain ⟨buf', q'', hb', hq'', hr⟩ := ih (k + 1) (buf.set (k + 1) x.1) q1
      (fun i hi => by
        rcases Nat.lt_or_ge i (k + 1) with h | h
        · rw [word_set_of_lt _ (by omega) h, hb i (by omega)]
        · obtain rfl : i = k + 1 := by omega
          rw [word_set_self _ (by omega), hx0])
      (by omega)
      (fun i hi => by
        have := hx (i + 1) (by omega)
        rw [List.getElem_cons_succ] at this
        rw [this]
        congr 1
        omega)
      h2
    refine ⟨buf', q'', fun i hi => hb' i (by simp only [List.length_cons] at hi; omega), hq'', ?_⟩
    have hn : nextWord p key buf k { s with rxq := inbound p.rxAckInterleaved (x :: xs) ++ tail } =
        some (gotWord key (buf.set (k + 1) x.1) (k + 1) s q1) := by
      rw [h1]
      refine nextWord_more ?_ rfl
      rcases Nat.eq_zero_or_pos k with h | h
      · exact .inl h
      · have hw : buf.w1 = opcWord o := hb 1 h
        rw [len_of_opcWord ho hw]
        exact .inr (by omega)
    rw [rest_gotWord_accepted (wordOk_busWord ho (by omega) (hb k (Nat.le_refl k))) hq hn, hr, List.length_cons,
      show k + 1 + xs.length = k + (xs.length + 1) by omega]

/-- FLUSHRX, once it has tested, empties RXQ and ends (R127). -/
theorem rest_flushTest (p : Params) : ∀ (q : List Word9) (s : State), s.rxq = q →
    rest p (flushTest s) = finish { s with rxq := [] } := by
  intro q
  induction q with
  | nil =>
    intro s hq
    rw [rest_step (t := finish (flushTest s)) (by simp [engineStep, flushTest, State.goto, flushStep, chanAvailable, hq])]
    rw [rest_of_idle rfl]
    simp [finish, State.endOp, flushTest, State.goto, ← hq]
  | cons w q ih =>
    intro s hq
    rw [rest_step (t := ({ s with rxq := q } : State).goto (.flush .read))
      (by simp [engineStep, flushTest, State.goto, flushStep, chanAvailable, chanRead, hq])]
    rw [rest_step (t := flushTest { s with rxq := q })
      (by simp [engineStep, flushTest, State.goto, flushStep, chanAvailable])]
    rw [ih _ rfl]

end Sys2Proof.Machine
end

