-- ==== Sys2Proof/Laws/Transmit.lean ====
section
/-! SUPPORT. What a transmission does with the words of RXQ: one lemma for the exchanges that let the frame go on, and
one for each way it can then stop. -/

namespace Sys2Proof.Machine

open Sys2Proof.Safety

variable {p : Params} {x : TxCtx}

/-- The state of a transmission that has read exchanges: R_RESP is the last response if there was one, RXQ is q, and
TXS has gained ws. -/
def exchangedState (s : State) (xs : List (Word9 × Word9)) (q ws : List Word9) : State :=
  { s with rResp := (xs.getLast?.map Prod.snd).getD s.rResp, rxq := q, txs := s.txs ++ ws }

/-- The responses of exchanges with the words of f from K on that are checked are ACKs. -/
def Passes (x : TxCtx) (f : TxFrame) (xs : List (Word9 × Word9)) : Prop :=
  ∀ i (h : i < xs.length), ackChecked x { f with k := f.k + i } = true → xs[i].2 = 0

/-- The n words of f from K on. -/
def TxFrame.wordsFrom (f : TxFrame) (n : Nat) : List Word9 := (List.range' f.k n).map f.word

theorem passes_cons {f : TxFrame} {y : Word9 × Word9} {ys : List (Word9 × Word9)} (h : Passes x f (y :: ys)) :
    (ackChecked x f = true → y.2 = 0) ∧ Passes x { f with k := f.k + 1 } ys := by
  refine ⟨fun hc => h 0 (by simp) (by simpa using hc), fun i hi hc => ?_⟩
  have := h (i + 1) (by simpa using hi)
  simp only [List.getElem_cons_succ] at this
  exact this (by rw [show f.k + (i + 1) = f.k + 1 + i by omega]; exact hc)

/-- The exchange of one word that raises nothing: the next word goes out, or the frame is over (R100). -/
theorem rest_exchange_passed {f : TxFrame} {e r : Word9} {q : List Word9} {s : State} (hq : s.rxq = e :: r :: q)
    (hp : ackChecked x f = true → r = 0) :
    rest p (sendWord x f s) =
      if f.k + 1 < f.txn then rest p (sendWord x { f with k := f.k + 1 } (exchangedState s [(e, r)] q [f.word f.k]))
      else rest p (frameSent p x ((exchangedState s [(e, r)] q [f.word f.k]).goto (.tx x f (.got r)))) := by
  rw [rest_exchange hq]
  unfold afterResponse
  rw [if_neg (by simp only [Bool.and_eq_true, bne_iff_ne, ne_eq, not_and, not_not]; exact hp)]
  split <;> rfl

/-- Exchanges that raise nothing bring the transmission to a later word (R100, R103). -/
theorem rest_sendWord_passed (q : List Word9) : ∀ (xs : List (Word9 × Word9)) (f : TxFrame) (s : State),
    f.k + xs.length < f.txn → Passes x f xs → s.rxq = exchanged xs ++ q →
    rest p (sendWord x f s) =
      rest p (sendWord x { f with k := f.k + xs.length } (exchangedState s xs q (f.wordsFrom xs.length))) := by
  intro xs
  induction xs with
  | nil =>
    intro f s _ _ hq
    simp only [exchanged, List.flatMap_nil, List.nil_append] at hq
    congr 2
    simp [exchangedState, TxFrame.wordsFrom, ← hq]
  | cons y ys ih =>
    intro f s hk hp hq
    obtain ⟨e, r⟩ := y
    obtain ⟨h0, hp'⟩ := passes_cons hp
    simp only [List.length_cons] at hk ⊢
    rw [rest_exchange_passed (q := exchanged ys ++ q) (by simpa [exchanged] using hq) h0, if_pos (by omega)]
    rw [ih { f with k := f.k + 1 } _ (by simp only; omega) hp' rfl]
    congr 2
    · simp only [TxFrame.mk.injEq, true_and]; omega
    · rcases ys.eq_nil_or_concat with rfl | ⟨zs, z, rfl⟩ <;>
        simp [exchangedState, TxFrame.wordsFrom, List.range'_succ, TxFrame.word, List.getLast?_cons]

/-- A frame whose responses raise nothing is sent whole (R66, R100). -/
theorem rest_sendWord_sent {xs : List (Word9 × Word9)} {f : TxFrame} {s : State} {q : List Word9}
    (hk : f.k + xs.length = f.txn) (hne : xs ≠ []) (hp : Passes x f xs) (hq : s.rxq = exchanged xs ++ q) :
    rest p (sendWord x f s) =
      rest p (frameSent p x ((exchangedState s xs q (f.wordsFrom xs.length)).goto
        (.tx x { f with k := f.txn - 1 } (.got (lastResponse xs))))) := by
  obtain ⟨ys, ⟨e, r⟩, rfl⟩ := (List.eq_nil_or_concat xs).resolve_left hne
  simp only [List.length_append, List.length_cons, List.length_nil, List.concat_eq_append] at *
  rw [rest_sendWord_passed (e :: r :: q) ys f s (by omega)
    (fun i hi hc => by have := hp i (by simp; omega) hc; rwa [List.getElem_append_left hi] at this)
    (by simpa [exchanged] using hq)]
  rw [rest_exchange_passed rfl (fun hc => by
    have := hp ys.length (by simp) hc
    simpa using this)]
  simp only
  rw [if_neg (by omega)]
  have hk' : f.k + ys.length = f.txn - 1 := by omega
  simp [exchangedState, TxFrame.wordsFrom, lastResponse, hk', List.range'_1_concat, TxFrame.word]

/-- A checked response that is not zero, after responses that raise nothing, ends the operation at once (R103). -/
theorem rest_sendWord_mismatch {xs : List (Word9 × Word9)} {f : TxFrame} {s : State} {e r : Word9} {q : List Word9}
    (hk : f.k + xs.length < f.txn) (hp : Passes x f xs) (hq : s.rxq = exchanged xs ++ e :: r :: q)
    (hc : ackChecked x { f with k := f.k + xs.length } = true) (hr : r ≠ 0) :
    rest p (sendWord x f s) =
      raise .ackMismatch (fieldCode (f.k + xs.length))
        { s with rResp := r, rxq := q, txs := s.txs ++ f.wordsFrom (xs.length + 1) } := by
  rw [rest_sendWord_passed (e :: r :: q) xs f s hk hp hq, rest_exchange rfl]
  unfold afterResponse
  rw [if_pos (by simpa [hc] using hr)]
  rw [rest_of_idle rfl]
  simp [exchangedState, TxFrame.wordsFrom, raise, State.endOp, setResp, State.goto, List.range'_1_concat, TxFrame.word]

/-- A bus that falls silent holds the transmission (R13, R163). -/
theorem rest_sendWord_silent {xs : List (Word9 × Word9)} {f : TxFrame} {s : State} {tail : List Word9}
    (hk : f.k + xs.length < f.txn) (hp : Passes x f xs) (hq : s.rxq = exchanged xs ++ tail) (ht : tail.length ≤ 1) :
    ∃ ph, rest p (sendWord x f s) =
      ({ s with
        rResp := (xs.getLast?.map Prod.snd).getD s.rResp, rxq := [],
        txs := s.txs ++ f.wordsFrom (xs.length + 1) } : State).goto (.tx x { f with k := f.k + xs.length } ph) ∧
      (ph = .echo ∨ ph = .resp) := by
  rw [rest_sendWord_passed tail xs f s hk hp hq]
  match tail, ht with
  | [], _ =>
    refine ⟨.echo, ?_, .inl rfl⟩
    rw [rest_of_none (by simp [sendWord, engineStep, txStep, chanRead, chanWrite, exchangedState, State.goto])]
    simp [sendWord, chanWrite, exchangedState, State.goto, TxFrame.wordsFrom, List.range'_1_concat, TxFrame.word]
  | [e], _ =>
    refine ⟨.resp, ?_, .inr rfl⟩
    rw [rest_step (t := ({ s with
        rResp := (xs.getLast?.map Prod.snd).getD s.rResp, rxq := [],
        txs := s.txs ++ f.wordsFrom (xs.length + 1) } : State).goto (.tx x { f with k := f.k + xs.length } .resp))
      (by simp [sendWord, engineStep, txStep, chanRead, chanWrite, exchangedState, State.goto, TxFrame.wordsFrom,
        List.range'_1_concat, TxFrame.word])]
    rw [rest_of_none (by simp [engineStep, txStep, chanRead, State.goto])]

/-- The first n words of a loaded frame. -/
theorem wordsFrom_loadFrame (a : BusAddr) (o d1 d2 : Byte) {n : Nat} (hn : n ≤ 4) :
    (loadFrame a o d1 d2).wordsFrom n = [addrWord a, opcWord o, dataWord d1, dataWord d2].take n := by
  unfold TxFrame.wordsFrom loadFrame
  interval_cases n <;> simp [List.range', TxFrame.word]

/-- A SEND whose checked responses are ACKs, or with IGN set, passes (R103). -/
theorem passes_loadFrame {a : BusAddr} {o d1 d2 : Byte} {ign : Bool} {xs : List (Word9 × Word9)}
    (hl : xs.length ≤ frameLen o + 1) (h : ign = true ∨ acked (frameLen o) xs) : Passes (.send ign) (loadFrame a o d1 d2) xs := by
  intro i hi hc
  simp only [ackChecked, TxCtx.ignoresAcks, loadFrame, Nat.zero_add, Nat.add_sub_cancel, Bool.and_eq_true,
    Bool.not_eq_true', Bool.and_eq_false_iff, beq_eq_false_iff_ne] at hc
  rcases h with h | h
  · simp [h] at hc
  unfold acked at h
  split at h
  · next hn =>
    obtain rfl : i = 0 := by
      rcases hc.2 with h1 | h1
      · exact absurd hn h1
      · omega
    apply h
    rcases xs with _ | ⟨y, ys⟩
    · simp at hi
    · simp
  · exact h _ (List.getElem_mem _)

/-- The first step of a SEND of a valid opcode writes the address word (R100). -/
theorem rest_startSend {a : BusAddr} {o d1 d2 : Byte} {ign : Bool} {s : State} (ho : validOpcode o = true) :
    rest p (s.goto (.start (.send a o d1 d2 ign))) =
      rest p (sendWord (.send ign) (loadFrame a o d1 d2) (setResp 0 s)) := by
  apply rest_step
  simp [engineStep, beginJob, beginSend, ho, startFrame, sendWord, chanWrite, setResp, State.goto]

/-- The first step of a WAITRDY of a valid opcode starts the first poll (R101). -/
theorem rest_startWaitrdy {o : Byte} {s : State} (ho : validOpcode o = true) :
    rest p (s.goto (.start (.waitrdy o))) = rest p (startPoll p o (setResp 0 s)) := by
  apply rest_step
  simp [engineStep, beginJob, beginWaitrdy, ho, startPoll, startFrame, sendWord, chanWrite, setResp, State.goto]

end Sys2Proof.Machine
end

