-- ==== Sys2Proof/Laws/Run.lean ====
section
/-! SUPPORT. Runs of the machine: one turn at a time, arrivals and engine turns that are listed, and what it takes for a run to
have no end. -/

namespace Sys2Proof.Machine

open Sys2Proof.Safety

variable {s t : State}

/-- A run goes on from the state its first step answers. -/
theorem run_succ {n : Nat} (h : step s = .next t) : Sys2Proof.core.run (n + 1) s = Sys2Proof.core.run n t := by
  have h' : Sys2Proof.core.step s = .next t := h
  simp only [Host.Core.run, h']

/-- Runs can be put together. -/
theorem run_add {m n : Nat} (h : Sys2Proof.core.run m s = .next t) :
    Sys2Proof.core.run (m + n) s = Sys2Proof.core.run n t := by
  induction m generalizing s with
  | zero =>
    cases h
    rw [Nat.zero_add]
  | succ m ih =>
    rw [Nat.succ_add]
    simp only [Host.Core.run] at h ⊢
    split at h
    · exact ih h
    · cases h
    · cases h

/-- A run that is taken has taken each of its beginnings. -/
theorem run_beginning {m n : Nat} (h : Sys2Proof.core.run m s = .next t) (hn : n ≤ m) :
    ∃ u, Sys2Proof.core.run n s = .next u ∧ Sys2Proof.core.run (m - n) u = .next t := by
  induction n generalizing s m with
  | zero => exact ⟨s, rfl, h⟩
  | succ n ih =>
    obtain ⟨m, rfl⟩ : ∃ k, m = k + 1 := ⟨m - 1, by omega⟩
    rw [Nat.add_sub_add_right]
    simp only [Host.Core.run] at h ⊢
    split at h
    · exact ih h (by omega)
    · cases h
    · cases h

/-- An engine turn takes the engine's step. -/
theorem step_engine {ts : Schedule} (hs : s.turns.next = some (.engine, ts)) (h : engineStep Config.params s = some t) :
    step s = .next (t.withTurns ts) := by
  simp only [step, hs, engineTurn]
  rw [engineStep_withTurns, h]
  rfl

/-- Listed arrivals are appended to RXQ one after another. -/
theorem run_arrivals (rest : List Turn) (l : Later) : ∀ (ws : List Word9) (s : State),
    s.turns = ⟨arrivals ws ++ rest, l⟩ →
    Sys2Proof.core.run ws.length s = .next { s with rxq := s.rxq ++ ws, turns := ⟨rest, l⟩ } := by
  intro ws
  induction ws with
  | nil =>
    intro s hs
    have hs' : s.turns = ⟨rest, l⟩ := hs
    simp only [List.length_nil, Host.Core.run, List.append_nil, ← hs']
  | cons w ws ih =>
    intro s hs
    have hn : s.turns.next = some (.env w, ⟨arrivals ws ++ rest, l⟩) := by
      rw [hs]
      exact next_listed _ _ _
    rw [List.length_cons, run_succ (t := envAppend w (s.withTurns ⟨arrivals ws ++ rest, l⟩)) (by simp only [step, hn])]
    rw [ih _ rfl]
    simp [envAppend, State.withTurns]

/-- No turn of the host is listed or comes later. -/
def HostIsSilent (ts : Schedule) : Prop :=
  (∀ t ∈ ts.listed, ∀ r, t ≠ .host r) ∧
  match ts.later with
  | .quiet => True
  | .again t rest => ∀ u ∈ t :: rest, ∀ r, u ≠ .host r
  | .free n => ∀ k, n ≤ k → ∀ r, Config.turnAt k ≠ .host r

/-- A silent host stays silent. -/
theorem hostIsSilent_next {ts us : Schedule} {t : Turn} (h : HostIsSilent ts) (hn : ts.next = some (t, us)) :
    (∀ r, t ≠ .host r) ∧ HostIsSilent us := by
  rcases ts with ⟨_ | ⟨u, rest⟩, l⟩
  · cases l with
    | quiet => cases hn
    | again u rest =>
      cases hn
      exact ⟨h.2 _ (.head _), fun v hv => h.2 v (.tail _ hv), h.2⟩
    | free n =>
      cases hn
      exact ⟨h.2 n (Nat.le_refl n), fun v hv => absurd hv List.not_mem_nil, fun k hk => h.2 k (Nat.le_of_succ_le hk)⟩
  · rw [next_listed] at hn
    cases hn
    exact ⟨h.1 _ (.head _), fun v hv => h.1 v (.tail _ hv), h.2⟩

/-- The engine leaves the turns as they are. -/
theorem engineStep_turns {p : Params} (h : engineStep p s = some t) : t.turns = s.turns := by
  have := engineStep_withTurns (p := p) s.turns s
  rw [show s.withTurns s.turns = s from rfl, h, Option.map_some, Option.some.injEq] at this
  rw [this]
  rfl

/-- A silent host stays silent in every step. -/
theorem step_hostIsSilent (hh : HostIsSilent s.turns) (h : step s = .next t) : HostIsSilent t.turns := by
  rcases hn : s.turns.next with _ | ⟨_ | w | r | _, us⟩
  · simp only [step, hn, Host.Outcome.next.injEq] at h
    rw [← h, engineTurn_alone hn]
    exact rest_induction (P := fun u => HostIsSilent u.turns) (fun u v hu hs => by rw [engineStep_turns hu]; exact hs) s hh
  all_goals have hs := hostIsSilent_next hh hn
  · simp only [step, hn, Host.Outcome.next.injEq, engineTurn] at h
    rw [← h]
    rcases he : engineStep Config.params (s.withTurns us) with _ | v
    · exact hs.2
    · rw [Option.getD_some, engineStep_turns he]
      exact hs.2
  · simp only [step, hn, Host.Outcome.next.injEq] at h
    rw [← h]
    exact hs.2
  · exact absurd rfl (hs.1 r)
  · simp only [step, hn, Host.Outcome.next.injEq] at h
    rw [← h]
    exact hs.2

/-- A silent host stays silent for the whole run. -/
theorem run_hostIsSilent {n : Nat} (hh : HostIsSilent s.turns) (h : Sys2Proof.core.run n s = .next t) :
    HostIsSilent t.turns := by
  induction n generalizing s with
  | zero => cases h; exact hh
  | succ n ih =>
    obtain ⟨u, hu, hr⟩ := run_beginning h (Nat.le_add_left 1 n)
    have hu' : step s = .next u := by
      simp only [Host.Core.run] at hu
      split at hu
      · next v hv => cases hu; exact hv
      · cases hu
      · cases hu
    exact ih (step_hostIsSilent hh hu') hr

/-- Without a request an IDLE engine stays IDLE. -/
theorem step_idle (hi : s.engine = .idle) (hh : HostIsSilent s.turns) :
    ∃ u, step s = .next u ∧ u.engine = .idle ∧ HostIsSilent u.turns := by
  rcases hn : s.turns.next with _ | ⟨_ | w | r | _, us⟩
  · refine ⟨s, ?_, hi, hh⟩
    simp only [step, hn]
    rw [engineTurn_alone hn, rest_of_idle hi]
  all_goals have hs := hostIsSilent_next hh hn
  · refine ⟨s.withTurns us, ?_, hi, hs.2⟩
    simp only [step, hn, engineTurn]
    rw [engineStep_withTurns, engineStep_idle hi]
    rfl
  · exact ⟨envAppend w (s.withTurns us), by simp only [step, hn], hi, hs.2⟩
  · exact absurd rfl (hs.1 r)
  · exact ⟨applyReset (s.withTurns us), by simp only [step, hn], rfl, hs.2⟩

/-- Without a request an IDLE engine is IDLE for the whole run. -/
theorem run_idle {n : Nat} (hi : s.engine = .idle) (hh : HostIsSilent s.turns) (h : Sys2Proof.core.run n s = .next t) :
    t.engine = .idle := by
  induction n generalizing s with
  | zero => cases h; exact hi
  | succ n ih =>
    obtain ⟨u, hu, hi', hh'⟩ := step_idle hi hh
    rw [run_succ hu] at h
    exact ih hi' hh' h

/-- A run without a request that comes back again and again to a BUSY point has no end and is BUSY all the time. -/
theorem neverEnds_of_returns {P : State → Prop} (hP : ∀ u, P u → u.isIdle = false)
    (hret : ∀ u, P u → ∃ k v, 0 < k ∧ Sys2Proof.core.run k u = .next v ∧ P v)
    (hh : HostIsSilent s.turns) (hs : P s) : NeverEnds s := by
  have long : ∀ n, ∃ m v, n ≤ m ∧ Sys2Proof.core.run m s = .next v ∧ P v := by
    intro n
    induction n with
    | zero => exact ⟨0, s, Nat.le_refl 0, rfl, hs⟩
    | succ n ih =>
      obtain ⟨m, v, hm, hr, hv⟩ := ih
      obtain ⟨k, w, hk, hr', hw⟩ := hret v hv
      exact ⟨m + k, w, by omega, by rw [run_add hr, hr'], hw⟩
  intro n
  obtain ⟨m, v, hm, hr, hv⟩ := long n
  obtain ⟨u, hu, hr'⟩ := run_beginning hr hm
  refine ⟨u, hu, ?_⟩
  by_contra hb
  have hi : u.engine = .idle := isIdle_iff.mp (by simpa using hb)
  have := hP v hv
  rw [isIdle_iff.mpr (run_idle hi (run_hostIsSilent hh hu) hr')] at this
  cases this

end Sys2Proof.Machine
end

