-- ==== Sys2Proof/Tests/Slice0.lean ====
section
/-! SUPPORT. The model's own tests. Expected results are those of spec/95_test_vectors.md (the vector is named beside
each test) or worked by hand from the rule named. Witnesses show that the hypotheses of the statements can be met. -/

namespace Sys2Proof.Tests

open Sys2Proof.Machine Sys2Proof.Safety

/-! ### The test parameters (spec/95_test_vectors.md section 0) -/

/-- The test ROM: 0 everywhere but at three characters and their positions. -/
def testRom : Rom where
  fwdUs c := if c = 0x61 then 0x01 else if c = 0x6E then 0x02 else if c = 0x2C then 0x10 else 0
  fwdAscii c := if c = 0x61 then 0x01 else if c = 0x6E then 0x02 else if c = 0x2C then 0x11 else 0
  rev i := if i = 1 then 0x61 else if i = 2 then 0x6E else if i = 0x10 then 0x2C else 0

theorem testRom_inRange : testRom.InRange := by
  intro c
  simp only [testRom]
  constructor
  · split_ifs <;> decide
  · split_ifs <;> decide

theorem testRom_punctuation : testRom.DifferOnlyInPunctuation := by
  intro c h
  by_cases hc : c = 0x2C
  · subst hc; decide
  · have hc' : ¬ c = 44#8 := hc
    exact absurd (by simp [testRom, hc']) h

theorem testRom_roundTrips : testRom.RoundTrips := by
  intro c h0 hd
  by_cases h1 : c = 1
  · subst h1; decide
  by_cases h2 : c = 2
  · subst h2; decide
  by_cases h3 : c = 0x10
  · subst h3; decide
  · exact absurd ⟨0, fun h => h0 h.symm, by simp [testRom, h1, h2, h3]⟩ hd

/-- The test parameters, not interleaved or interleaved. -/
def testParams (interleaved : Bool) : Params where
  busAddress := 0x21
  rxAckInterleaved := interleaved
  rom := testRom
  romInRange := testRom_inRange
  romPunctuation := testRom_punctuation
  romRoundTrips := testRom_roundTrips

/-- The reset state with words in RXQ. -/
def withRxq (q : List Word9) : State := State.resetWith 0 q [] ⟨[], .quiet⟩

/-- A field of the state an operation leaves, run under the test parameters. -/
def after {α : Type} (interleaved : Bool) (j : Job) (s : State) (f : State → α) : Option α :=
  match operate (testParams interleaved) j s with
  | .next t => some (f t)
  | .fault _ | .refused _ => none

/-! ### Well-formedness: each check refuses an ill-formed term -/

theorem test_wf_reservedHop : (Instr.reservedHop 0x7).wf = false := by decide
theorem test_wf_10_1f : (Instr.invalidOpc10_1f .send 0x20).wf = false := by decide
theorem test_wf_20_3f : (Instr.invalidOpc20_3f .send 0x1F).wf = false := by decide
theorem test_wf_40_7f : (Instr.invalidOpc40_7f .waitrdy 0x80).wf = false := by decide
theorem test_wf_80_ff : (Instr.invalidOpc80_ff .waitrdy 0x7F).wf = false := by decide

/-! ### Decoding: words written out from R70 (F D2 D1 OPC ADDR HOP) and R62 -/

theorem test_decode_send :
    decodeReq 0b1_10111011_10101010_00000010_0100001_0000 = .send 0x21 0x02 0xAA 0xBB true := by decide
theorem test_decode_waitrdy : decodeReq 0b0_00000000_00000000_00001011_0000000_0001 = .waitrdy 0x0B := by decide
theorem test_decode_rdcmd : decodeReq 0b1_00000000_00000000_00000000_0000000_0010 = .rdcmd true := by decide
theorem test_decode_rdkey : decodeReq 0b0_00000000_00000000_00000000_0000000_0011 = .rdkey false := by decide
theorem test_decode_flushrx : decodeReq 0b0_00000000_00000000_00000000_0000000_0100 = .flushrx := by decide
theorem test_decode_setkbd : decodeReq 0b1_00000000_00000000_00000000_0000000_0101 = .setkbd true := by decide
theorem test_decode_a2p : decodeReq 0b0_00000000_01100001_00000000_0000000_0110 = .a2p 0x61 := by decide
theorem test_decode_p2a : decodeReq 0b0_00000000_00010000_00000000_0000000_0111 = .p2a 0x10 := by decide
/-- V64: a reserved HOP with every other field set. -/
theorem test_decode_reserved : decodeReq 0xFFFFFFFFF = .reservedHop 0xF := by decide
theorem test_decode_opc00 : decodeTableWord 16 0b000000000 = some (.opc00 0 0 0 false) := by decide
theorem test_decode_opc01 : decodeTableWord 16 0b000000001 = some (.opc01 0 0 0 false) := by decide
theorem test_decode_opc02 : decodeTableWord 16 0b000000010 = some (.opc02 0 0 0 false) := by decide
theorem test_decode_opc03 : decodeTableWord 16 0b000000011 = some (.opc03 0 0 0 false) := by decide
theorem test_decode_opc04 : decodeTableWord 16 0b000000100 = some (.opc04 0 0 0 false) := by decide
theorem test_decode_opc05 : decodeTableWord 16 0b000000101 = some (.opc05 0 0 0 false) := by decide
theorem test_decode_opc06 : decodeTableWord 16 0b000000110 = some (.opc06 0 0 0 false) := by decide
theorem test_decode_opc07 : decodeTableWord 16 0b000000111 = some (.opc07 0 0 0 false) := by decide
theorem test_decode_opc08 : decodeTableWord 16 0b000001000 = some (.opc08 0 0 0 false) := by decide
theorem test_decode_opc09 : decodeTableWord 16 0b000001001 = some (.opc09 0 0 0 false) := by decide
theorem test_decode_opc0a : decodeTableWord 16 0b000001010 = some (.opc0a 0 0 0 false) := by decide
theorem test_decode_queryStatus : decodeTableWord 16 0b000001011 = some (.queryStatus 0 0 0 false) := by decide
theorem test_decode_opc0c : decodeTableWord 16 0b000001100 = some (.opc0c 0 0 0 false) := by decide
theorem test_decode_opc0d : decodeTableWord 16 0b000001101 = some (.opc0d 0 0 0 false) := by decide
theorem test_decode_opc0e : decodeTableWord 16 0b000001110 = some (.opc0e 0 0 0 false) := by decide
theorem test_decode_notAnOpcodeWord : decodeTable 16 0x00F = .error (.notAnOpcodeWord 0x00F) := by decide
theorem test_decode_addressWord : decodeTable 16 0x10B = .error (.notAnOpcodeWord 0x10B) := by decide
theorem test_decode_invalid_0f : decodeTableWord 8 0b00001111 = some (.invalidOpc0f .send) := by decide
theorem test_decode_invalid_1b : decodeTableWord 8 0b00011011 = some (.invalidOpc10_1f .send 0x1B) := by decide
theorem test_decode_invalid_3f : decodeTableWord 8 0b00111111 = some (.invalidOpc20_3f .send 0x3F) := by decide
theorem test_decode_invalid_40 : decodeTableWord 8 0b01000000 = some (.invalidOpc40_7f .send 0x40) := by decide
theorem test_decode_invalid_ff : decodeTableWord 8 0b11111111 = some (.invalidOpc80_ff .send 0xFF) := by decide
/-- V22's request: WAITRDY with an invalid poll opcode. -/
theorem test_decode_invalid_waitrdy : decodeCommand 0x000007801 = .ok (.invalidOpc0f .waitrdy) := by decide
/-- V68 to V72. -/
theorem test_channel_words :
    [addrWord 0x00, addrWord 0x21, addrWord 0x7F, opcWord 0x0E, dataWord 0xFF] = [0x100, 0x121, 0x17F, 0x00E, 0x0FF] := by
  decide

/-! ### Assembler (V73, V75, V80, R74) -/

theorem test_asm_send : assembleText (testParams false) "SEND 0x7F, 0xFF, 0xFF, 0xFF, IGN".toList = some 0xFFFFFFFF0 := by
  rfl
theorem test_asm_rdcmd : assembleText (testParams false) "RDCMD BLK".toList = some 0x800000002 := by rfl
theorem test_asm_p2a : assembleText (testParams false) "P2A 0x10".toList = some 0x000800007 := by rfl
theorem test_asm_omitted : parseLine "SEND 33, 0x0B".toList = some (.send 0x21 0x0B none none false) := by rfl
theorem test_asm_range : parseLine "P2A 0x100".toList = none := by rfl
theorem test_asm_waitidle : assembleText (testParams false) "WAITIDLE".toList = some 0x000005801 := by rfl

/-! ### SEND and the wire commands -/

/-- V8: data2's response 0x004 is a mismatch. -/
theorem test_send_mismatch :
    after false (.send 0x21 0x03 0x01 0x0A false) (withRxq [0x121, 0x000, 0x003, 0x000, 0x001, 0x000, 0x00A, 0x004])
      (fun t => (t.rErr, t.rField, t.rResp, t.txs)) =
      some (.ackMismatch, .fD2, 0x004, [0x121, 0x003, 0x001, 0x00A]) := by decide
/-- V10: a response of 0x100 is not zero. -/
theorem test_send_marker_response :
    after false (.send 0x21 0x09 0 0 false) (withRxq [0x121, 0x100, 0x009, 0x000, 0x000, 0x000])
      (fun t => (t.rErr, t.rField, t.rResp, t.rxq)) =
      some (.ackMismatch, .fAddr, 0x100, [0x009, 0x000, 0x000, 0x000]) := by decide
/-- V18: a silent bus holds SEND. -/
theorem test_send_hold :
    after false (.send 0x21 0x0B 0 0 false) (withRxq [0x121]) (fun t => (t.isIdle, t.txs)) = some (false, [0x121]) := by
  decide

/-- A field of the state a wire command or invalid opcode leaves. -/
def afterExec {α : Type} (i : Instr) (s : State) (f : State → α) : Option α :=
  match exec i s with
  | .next t => some (f t)
  | .fault _ | .refused _ => none

/-- E2 with d1 = 0xD1, d2 = 0xD2 and every response 0: the words each opcode sends. -/
def sentBy (c : BusAddr → Byte → Byte → Bool → Instr) : Option (List Word9 × ErrCode) :=
  afterExec (c 0x21 0xD1 0xD2 false) (withRxq [1, 0, 2, 0, 3, 0, 4, 0]) fun t => (t.txs, t.rErr)

theorem test_opc00 : sentBy .opc00 = some ([0x121, 0x000], .noError) := by decide
theorem test_opc01 : sentBy .opc01 = some ([0x121, 0x001], .noError) := by decide
theorem test_opc02 : sentBy .opc02 = some ([0x121, 0x002, 0x0D1, 0x0D2], .noError) := by decide
theorem test_opc03 : sentBy .opc03 = some ([0x121, 0x003, 0x0D1, 0x0D2], .noError) := by decide
theorem test_opc04 : sentBy .opc04 = some ([0x121, 0x004, 0x0D1, 0x0D2], .noError) := by decide
theorem test_opc05 : sentBy .opc05 = some ([0x121, 0x005, 0x0D1], .noError) := by decide
theorem test_opc06 : sentBy .opc06 = some ([0x121, 0x006, 0x0D1, 0x0D2], .noError) := by decide
theorem test_opc07 : sentBy .opc07 = some ([0x121, 0x007], .noError) := by decide
theorem test_opc08 : sentBy .opc08 = some ([0x121, 0x008], .noError) := by decide
theorem test_opc09 : sentBy .opc09 = some ([0x121, 0x009, 0x0D1], .noError) := by decide
theorem test_opc0a : sentBy .opc0a = some ([0x121, 0x00A, 0x0D1], .noError) := by decide
theorem test_queryStatus : sentBy .queryStatus = some ([0x121, 0x00B], .noError) := by decide
theorem test_opc0c : sentBy .opc0c = some ([0x121, 0x00C, 0x0D1, 0x0D2], .noError) := by decide
theorem test_opc0d : sentBy .opc0d = some ([0x121, 0x00D, 0x0D1], .noError) := by decide
theorem test_opc0e : sentBy .opc0e = some ([0x121, 0x00E, 0x0D1], .noError) := by decide

/-- V12 to V14, V22: an invalid opcode sends and reads nothing. -/
def rejectedBy (i : Instr) : Option (ErrCode × FieldCode × Word9 × List Word9 × List Word9) :=
  afterExec i (withRxq [0x121, 0x000]) fun t => (t.rErr, t.rField, t.rResp, t.txs, t.rxq)

theorem test_invalid_0f : rejectedBy (.invalidOpc0f .waitrdy) = some (.invalidOpcode, .fOpc, 0, [], [0x121, 0]) := by decide
theorem test_invalid_1b : rejectedBy (.invalidOpc10_1f .send 0x1B) = some (.invalidOpcode, .fOpc, 0, [], [0x121, 0]) := by
  decide
theorem test_invalid_20 : rejectedBy (.invalidOpc20_3f .send 0x20) = some (.invalidOpcode, .fOpc, 0, [], [0x121, 0]) := by
  decide
theorem test_invalid_4b : rejectedBy (.invalidOpc40_7f .waitrdy 0x4B) = some (.invalidOpcode, .fOpc, 0, [], [0x121, 0]) := by
  decide
theorem test_invalid_ff : rejectedBy (.invalidOpc80_ff .send 0xFF) = some (.invalidOpcode, .fOpc, 0, [], [0x121, 0]) := by
  decide

/-! ### WAITRDY -/

/-- V20 with two polls: busy 3, then idle. -/
theorem test_waitrdy_polls :
    after false (.waitrdy 0x0B) (withRxq [0x121, 0x000, 0x00B, 0x003, 0x121, 0x000, 0x00B, 0x000])
      (fun t => (t.rErr, t.rResp, t.txs, t.rxq)) = some (.noError, 0, [0x121, 0x00B, 0x121, 0x00B], []) := by decide
/-- V23: the status never reaches 0. -/
theorem test_waitrdy_hold :
    after false (.waitrdy 0x0B) (withRxq [0x121, 0x000, 0x00B, 0x002]) (fun t => (t.isIdle, t.txs)) =
      some (false, [0x121, 0x00B, 0x121]) := by decide

/-! ### Receive family -/

/-- V30: an interleaved frame of length 3. -/
theorem test_rdcmd_interleaved :
    after true (.rdcmd false) (withRxq [0x121, 0x000, 0x006, 0x000, 0x080, 0x000, 0x014, 0x000])
      (fun t => ((t.rErr, t.rPresent, t.rOpc), t.rD1, t.rD2, t.rLen, t.rxq)) =
      some ((.noError, true, 0x06), 0x80, 0x14, 3, []) := by decide
/-- V36: an address word where data2 is expected. -/
theorem test_rdcmd_framing :
    after false (.rdcmd false) (withRxq [0x121, 0x006, 0x080, 0x121, 0x00B])
      (fun t => ((t.rErr, t.rField, t.rPresent), t.rOpc, t.rLen, t.rxq)) =
      some ((.framingError, .fD2, true), 0, 0, [0x00B]) := by decide
/-- V40: a type-and-advance frame. -/
theorem test_rdkey_character :
    after false (.rdkey false) (withRxq [0x121, 0x003, 0x001, 0x00A]) (fun t => (t.rClass, t.rAscii, t.rOpc)) =
      some (.character, 0x61, 0x03) := by decide
/-- V46: a carriage move to the left. -/
theorem test_rdkey_backspace :
    after false (.rdkey false) (withRxq [0x121, 0x006, 0x000, 0x00A]) (fun t => (t.rClass, t.rAscii)) =
      some (.backspace, 0x08) := by decide
/-- V50. -/
theorem test_flushrx : afterExec .flushrx (withRxq [0x121, 0x003, 0x041]) (fun t => (t.rErr, t.rxq)) = some (.noError, []) := by
  decide

/-! ### Translation -/

/-- V51. -/
theorem test_setkbd : afterExec (.setkbd true) State.reset (fun t => (t.rErr, t.kbd)) = some (.noError, .ascii) := by decide
/-- V55: KBD = ASCII. -/
theorem test_a2p :
    after false (.a2p 0x2C) { State.reset with kbd := .ascii } (fun t => (t.rErr, t.rPos)) = some (.noError, 0x11) := by
  decide
/-- V59: P2A ignores KBD. -/
theorem test_p2a :
    after false (.p2a 0x10) { State.reset with kbd := .ascii } (fun t => (t.rErr, t.rAscii)) = some (.noError, 0x2C) := by
  decide
/-- V61: beyond the table. -/
theorem test_p2a_beyond : after false (.p2a 0x61) State.reset (fun t => (t.rErr, t.rAscii)) = some (.noError, 0) := by decide

/-! ### The step -/

/-- V63 as the host writes it. -/
theorem test_step_reserved :
    step { State.reset with turns := ⟨[.host 0x000000008], .quiet⟩ } = .refused (.reservedOperation 0x8) := by rfl
/-- V65: a SEND written while an operation holds. -/
theorem test_step_busy :
    step { State.reset with engine := .busy (.start (.waitrdy 0x0B)), turns := ⟨[.host 0x000005A10], .quiet⟩ } =
      .refused .requestWhileBusy := by rfl
/-- V66: reset leaves RXQ. -/
theorem test_step_reset :
    step { withRxq [0x121, 0x003] with engine := .busy (.flush .read), kbd := .ascii, turns := ⟨[.reset], .quiet⟩ } =
      .next (withRxq [0x121, 0x003]) := by rfl
/-- The environment's word lands between two engine steps: SEND's echo comes after its address word is out (R49). -/
theorem test_step_environment :
    step { State.reset with engine := .busy (.tx (.send false) (loadFrame 0x21 0x0B 0 0) .echo), turns := ⟨[.env 0x0AA], .quiet⟩ } =
      .next { withRxq [0x0AA] with engine := .busy (.tx (.send false) (loadFrame 0x21 0x0B 0 0) .echo) } := by rfl
/-- A wire command's word is run by the next step. -/
theorem test_step_wire_word :
    step (State.reset.withFetchWord 16 0x005) = exec (.opc05 0 0 0 false) { State.reset with req := 0x000002800 } := by rfl

/-! ### Witnesses: the hypotheses of the statements can be met, each clause at a boundary of its range -/

theorem witness_DecodeEncodeAgree :
    (Instr.invalidOpc10_1f .send 0x1F).wf = true ∧ (Instr.invalidOpc80_ff .waitrdy 0x80).wf = true ∧
    (Instr.reservedHop 0x8).wf = true ∧ (Instr.opc0e 0x7F 0xFF 0xFF true).wf = true := by decide
/-- Words that differ in the fields not read: a reserved HOP, WAITRDY, RDCMD and A2P. -/
theorem witness_UnreadFieldsAreIgnored :
    (reqHop 0xFFFFFFFF8 = reqHop 0x8 ∧ 0x8 ≤ reqHop 0xFFFFFFFF8) ∧
    (reqHop 0xFFFF85FF1 = reqHop 0x000005801 ∧ reqOpc 0xFFFF85FF1 = reqOpc 0x000005801) ∧
    (reqHop 0xFFFFFFFF2 = reqHop 0x800000002 ∧ reqF 0xFFFFFFFF2 = reqF 0x800000002) ∧
    (reqHop 0xFFB0FFFF6 = reqHop 0x003080006 ∧ reqD1 0xFFB0FFFF6 = reqD1 0x003080006) := by decide

/-- A state with the given turns. -/
def withTurnList (ts : List Turn) : State := State.resetWith 0 [] [] ⟨ts, .quiet⟩

/-- A BUSY engine that holds: FLUSHRX has found a word that is then not there. -/
def holding : State := { State.reset with engine := .busy (.flush (.avail true)) }

theorem witness_StepRunsTheDecodedRequest : (withTurnList [.host 0x000000004]).turns.next = some (.host 0x000000004, ⟨[], .quiet⟩) := rfl
theorem witness_StepRunsTheTableWord :
    decodeTableWord 8 0x00 = some (.send 0 0 0 0 false) ∧ decodeTableWord 16 0x0E = some (.opc0e 0 0 0 false) ∧
    decodeTableWord 8 0xFF = some (.invalidOpc80_ff .send 0xFF) ∧
    decodeTableWord 40 0xFFFFFFFFF = some (.reservedHop 0xF) := by decide
theorem witness_SendIsTheWireCommand : validOpcode 0x00 = true ∧ validOpcode 0x0E = true := by decide
theorem witness_StepContinuesTheOperation_steps :
    ∃ t, engineStep Config.params { { withTurnList [.engine] with engine := .busy (.flush .read) } with turns := ⟨[], .quiet⟩ } = some t :=
  ⟨_, rfl⟩
theorem witness_StepContinuesTheOperation_holds :
    engineStep Config.params { { withTurnList [.engine] with engine := .busy (.flush (.avail true)) } with turns := ⟨[], .quiet⟩ } = none :=
  rfl
theorem witness_StepContinuesTheOperation_alone : holding.turns.next = none := rfl
theorem witness_EnvironmentAppendsToQueue : (withTurnList [.env 0x1FF]).turns.next = some (.env 0x1FF, ⟨[], .quiet⟩) := rfl
theorem witness_HoldTakesNoStep_idle : State.reset.turns.next = none ∧ State.reset.isIdle = true := by decide
theorem witness_HoldTakesNoStep_holds : holding.turns.next = none ∧ Holds Config.params holding := ⟨rfl, rfl, rfl⟩
theorem witness_HoldTakesNoStep_engineTurn :
    ({ holding with turns := ⟨[.engine], .quiet⟩ } : State).turns.next = some (.engine, ⟨[], .quiet⟩) ∧
    Holds Config.params { holding with turns := ⟨[.engine], .quiet⟩ } := ⟨rfl, rfl, rfl⟩
theorem witness_ArrivalsCommuteWithEngineSteps :
    ¬ TestsAvailable { withRxq [1] with engine := .busy (.flush (.avail true)) } ∧
    ∃ t, engineStep Config.params { withRxq [1] with engine := .busy (.flush (.avail true)) } = some t :=
  ⟨by simp [TestsAvailable], _, rfl⟩
theorem witness_OneTurnMakesOneChannelCall :
    ∃ t, step { withRxq [0x1FF] with engine := .busy (.flush (.avail true)), turns := ⟨[.engine], .quiet⟩ } = .next t := ⟨_, rfl⟩
theorem witness_ChannelsAreFirstInFirstOut : ∃ t, step (withTurnList [.env 0x000]) = .next t := ⟨_, rfl⟩
theorem witness_UndisturbedOperationEndsOrHolds :
    Alone (withRxq [0x121, 0x000]) ∧ ∃ t, exec (.opc02 0x21 0 0 false) (withRxq [0x121, 0x000]) = .next t :=
  ⟨⟨rfl, rfl⟩, _, rfl⟩
theorem witness_SingleStepsReachTheSameState :
    Alone (withRxq [0x121]) ∧ (∃ t, exec .flushrx (withRxq [0x121]) = .next t) ∧ stepBound (withRxq [0x121]) ≤ 4 :=
  ⟨⟨rfl, rfl⟩, ⟨_, rfl⟩, by decide⟩
theorem witness_ResetTurnResets : (withTurnList [.reset]).turns.next = some (.reset, ⟨[], .quiet⟩) := rfl
theorem witness_BusyEngineRefusesRequests :
    { holding with turns := ⟨[.host 0], .quiet⟩ }.isIdle = false ∧ (∀ h, Instr.flushrx ≠ .reservedHop h) ∧
    { holding with turns := ⟨[.host 0], .quiet⟩ }.turns.next = some (.host 0, ⟨[], .quiet⟩) := ⟨rfl, by simp, rfl⟩
theorem witness_ReservedRequestIsRefused :
    (withTurnList [.host 0x8]).turns.next = some (.host 0x8, ⟨[], .quiet⟩) ∧ 0x8 ≤ reqHop 0x8 ∧ 0x8 ≤ reqHop 0xF := by decide

/-- Exchanges with the given responses. -/
def exchangesWith (rs : List Word9) : List (Word9 × Word9) := rs.map fun r => (0x0AA, r)

theorem witness_SendCompletes :
    Alone (withRxq (exchanged (exchangesWith [0, 0x1FF]) ++ [0x123])) ∧ validOpcode 0x0B = true ∧
    (exchangesWith [0, 0x1FF]).length = frameLen 0x0B + 1 ∧ acked (frameLen 0x0B) (exchangesWith [0, 0x1FF]) := by
  refine ⟨⟨rfl, rfl⟩, by decide, by decide, ?_⟩
  simp [acked, exchangesWith, frameLen, lenTable]
theorem witness_SendCompletes_ign :
    (exchangesWith [1, 2, 3, 4]).length = frameLen 0x0C + 1 ∧ validOpcode 0x0C = true := by decide
theorem witness_LengthOneCommandsRun :
    (.queryStatus, 0x0B) ∈ lengthOneCommands ∧ Alone (withRxq [1, 0, 2, 5]) ∧ Alone (withRxq [1, 0x100]) ∧
    Alone (withRxq []) ∧ Alone (withRxq [1]) ∧ Alone (withRxq [1, 0]) ∧ Alone (withRxq [1, 0, 2]) ∧ (0x100 : Word9) ≠ 0 :=
  ⟨by simp [lengthOneCommands], ⟨rfl, rfl⟩, ⟨rfl, rfl⟩, ⟨rfl, rfl⟩, ⟨rfl, rfl⟩, ⟨rfl, rfl⟩, ⟨rfl, rfl⟩, by decide⟩
/-- Every word answered, a mismatch at the first and at the last word, a silence at the first and the last word. -/
theorem witness_LengthTwoCommandsRun :
    (.opc0e, 0x0E) ∈ lengthTwoCommands ∧ Alone (withRxq [1, 0, 2, 0, 3, 0]) ∧
    Alone (withRxq (exchanged [] ++ [1, 7])) ∧ Alone (withRxq (exchanged (exchangesWith [0, 0]) ++ [1, 0x100])) ∧
    Alone (withRxq (exchanged [] ++ [])) ∧ Alone (withRxq (exchanged (exchangesWith [0, 0]) ++ [1])) ∧
    (exchangesWith [0, 0]).length ≤ 2 ∧ (∀ x ∈ exchangesWith [0, 0], x.2 = 0) ∧ (0x100 : Word9) ≠ 0 :=
  ⟨by simp [lengthTwoCommands], ⟨rfl, rfl⟩, ⟨rfl, rfl⟩, ⟨rfl, rfl⟩, ⟨rfl, rfl⟩, ⟨rfl, rfl⟩, by decide,
    by simp [exchangesWith], by decide⟩
theorem witness_LengthThreeCommandsRun :
    (.opc0c, 0x0C) ∈ lengthThreeCommands ∧ Alone (withRxq [1, 0, 2, 0, 3, 0, 4, 0]) ∧
    Alone (withRxq (exchanged [] ++ [1, 7])) ∧ Alone (withRxq (exchanged (exchangesWith [0, 0, 0]) ++ [1, 0x100])) ∧
    Alone (withRxq (exchanged [] ++ [])) ∧ Alone (withRxq (exchanged (exchangesWith [0, 0, 0]) ++ [1])) ∧
    (exchangesWith [0, 0, 0]).length ≤ 3 ∧ (∀ x ∈ exchangesWith [0, 0, 0], x.2 = 0) ∧ (0x100 : Word9) ≠ 0 :=
  ⟨by simp [lengthThreeCommands], ⟨rfl, rfl⟩, ⟨rfl, rfl⟩, ⟨rfl, rfl⟩, ⟨rfl, rfl⟩, ⟨rfl, rfl⟩, by decide,
    by simp [exchangesWith], by decide⟩
/-- A mismatch at the first word, at the last word of a frame of length 3, and the unchecked opcode response of length
1. -/
theorem witness_AckMismatchAbortsTheFrame :
    Alone (withRxq (exchanged [] ++ [1, 0x100])) ∧ (0 : Nat) ≤ frameLen 0x00 ∧ ¬ (frameLen 0x00 = 1 ∧ (0 : Nat) = 1) ∧
    Alone (withRxq (exchanged (exchangesWith [0, 0, 0]) ++ [1, 0x001])) ∧
    (exchangesWith [0, 0, 0]).length ≤ frameLen 0x0C ∧ (∀ x ∈ exchangesWith [0, 0, 0], x.2 = 0) ∧
    frameLen 0x00 = 1 ∧ (exchangesWith [0]).length = 1 ∧ (0x001 : Word9) ≠ 0 ∧ (0x100 : Word9) ≠ 0 :=
  ⟨⟨rfl, rfl⟩, by decide, by decide, ⟨rfl, rfl⟩, by decide, by simp [exchangesWith], by decide, by decide, by decide,
    by decide⟩
theorem witness_SendHoldsOnASilentBus :
    Alone (withRxq (exchanged (exchangesWith [0, 0, 0]) ++ [5])) ∧ validOpcode 0x02 = true ∧
    (exchangesWith [0, 0, 0]).length ≤ frameLen 0x02 ∧ (∀ x ∈ exchangesWith [0, 0, 0], x.2 = 0) ∧ Alone (withRxq []) :=
  ⟨⟨rfl, rfl⟩, by decide, by decide, by simp [exchangesWith], rfl, rfl⟩
theorem witness_InvalidOpcodesAreRejected : Alone State.reset ∧ (0x0E : Byte) < 0x0F ∧ (0x0E : Byte) < 0xFF :=
  ⟨⟨rfl, rfl⟩, by decide⟩
theorem witness_InvalidOpcodeRowsReject :
    Alone State.reset ∧ (Instr.invalidOpc0f .waitrdy).wf = true ∧ (Instr.invalidOpc10_1f .send 0x10).wf = true ∧
    (Instr.invalidOpc20_3f .send 0x3F).wf = true ∧ (Instr.invalidOpc40_7f .waitrdy 0x7F).wf = true ∧
    (Instr.invalidOpc80_ff .send 0xFF).wf = true := ⟨⟨rfl, rfl⟩, by decide⟩
theorem witness_EchoesAreIgnored :
    Alone State.reset ∧ validOpcode 0x05 = true ∧ ([(1, 0), (2, 7), (3, 0)] : List (Word9 × Word9)).length = frameLen 0x05 + 1 ∧
    ([(1, 0), (2, 7), (3, 0)] : List (Word9 × Word9)).map Prod.snd = ([(4, 0), (5, 7), (6, 0)] : List _).map Prod.snd :=
  ⟨⟨rfl, rfl⟩, by decide⟩
/-- No busy poll, and two. -/
theorem witness_WaitrdyPollsUntilIdle :
    Alone (withRxq (exchanged ([].flatten ++ exchangesWith [0x1FF, 0]) ++ [])) ∧ validOpcode 0x0B = true ∧
    (∀ xs ∈ [exchangesWith [0, 3], exchangesWith [5, 0x100]], xs.length = frameLen 0x0B + 1 ∧ lastResponse xs ≠ 0) ∧
    (exchangesWith [0x1FF, 0]).length = frameLen 0x0B + 1 ∧ lastResponse (exchangesWith [0x1FF, 0]) = 0 :=
  ⟨⟨rfl, rfl⟩, by decide, by decide, by decide, by decide⟩
theorem witness_WaitrdyHoldsWhileBusy :
    Alone (withRxq (exchanged [exchangesWith [0, 3]].flatten)) ∧ validOpcode 0x0B = true ∧
    (∀ xs ∈ [exchangesWith [0, 3]], xs.length = frameLen 0x0B + 1 ∧ lastResponse xs ≠ 0) := ⟨⟨rfl, rfl⟩, by decide, by decide⟩
theorem witness_WaitrdyEndsOnlyOnStatusZero :
    ∃ t, engineStep (testParams false)
        { State.reset with engine := .busy (.tx (.poll 0x0B) { loadFrame 0x21 0x0B 0 0 with k := 1 } (.got 0)) } = some t ∧
      t.isIdle = true := ⟨_, rfl, rfl⟩
theorem witness_NothingPendingEndsAtOnce : Alone State.reset ∧ State.reset.rxq = [] := ⟨⟨rfl, rfl⟩, rfl⟩

/-- Inbound words to the bus address for an opcode of any length, each paired with a response word. -/
def inboundWords (o d1 d2 : Byte) : List (Word9 × Word9) :=
  (frame Config.params.busAddress o d1 d2).map fun w => (w, 0x055)

theorem inboundWords_fst (o d1 d2 : Byte) :
    (inboundWords o d1 d2).map Prod.fst = frame Config.params.busAddress o d1 d2 := by
  simp [inboundWords, Function.comp_def]

theorem witness_RdcmdTakesOneFrame :
    Alone (withRxq (inbound Config.params.rxAckInterleaved (inboundWords 0x06 0xFF 0) ++ [1])) ∧ validOpcode 0x06 = true ∧
    (inboundWords 0x06 0xFF 0).map Prod.fst = frame Config.params.busAddress 0x06 0xFF 0 :=
  ⟨⟨rfl, rfl⟩, by decide, inboundWords_fst _ _ _⟩
/-- A failing address word, opcode word (by value and by marker) and last data word. -/
theorem witness_FramingErrorsStopTheFrame :
    Alone (withRxq (inbound Config.params.rxAckInterleaved (inboundWords 0x06 0 0) ++ [0x100])) ∧
    0 ≠ addrWord Config.params.busAddress ∧
    (0x0E < Word9.payload 0x00F ∧ Word9.marker 0x10B = true ∧ Word9.marker 0x121 = true) ∧
    ((inboundWords 0x06 0 0).take 3).length = frameLen 0x06 ∧
    ((inboundWords 0x06 0 0).take 3).map Prod.fst = (frame Config.params.busAddress 0x06 0 0).take 3 := by
  refine ⟨⟨rfl, rfl⟩, fun h => ?_, by decide, rfl, rfl⟩
  have := congrArg Word9.marker h
  rw [addrWord_marker] at this
  cases this
/-- A frame cut after a word, an empty RXQ, and a frame cut before the last response word of an interleaving bus. -/
theorem witness_ReceptionHoldsOnACutFrame :
    Alone (withRxq (inbound Config.params.rxAckInterleaved ((inboundWords 0x06 0 0).take 3))) ∧ Alone (withRxq []) ∧
    validOpcode 0x06 = true ∧ ((inboundWords 0x06 0 0).take 3).length ≤ frameLen 0x06 ∧
    ((inboundWords 0x06 0 0).take 3).map Prod.fst = (frame Config.params.busAddress 0x06 0 0).take 3 ∧
    (testParams true).rxAckInterleaved = true ∧
    ([(0x121, 7)] : List (Word9 × Word9)).map Prod.fst = (frame (testParams true).busAddress 0x0B 0 0).take 1 ∧
    (frame (testParams true).busAddress 0x0B 0 0)[1]? = some 0x00B ∧
    Alone (withRxq (inbound (testParams true).rxAckInterleaved [(0x121, 7)] ++ [0x00B])) :=
  ⟨⟨rfl, rfl⟩, ⟨rfl, rfl⟩, by decide, by decide, rfl, rfl, by decide, by decide, ⟨rfl, rfl⟩⟩
/-- The opcodes of the keypress map are valid, so each clause's frame can be received. -/
theorem witness_RdkeyClassifiesTheFrame :
    (∀ o ∈ [kpOpcode Config.params.kp.opcType, kpOpcode Config.params.kp.opcPlaten, kpOpcode Config.params.kp.opcCarriage],
      validOpcode o = true ∧ Alone (withRxq (inbound Config.params.rxAckInterleaved (inboundWords o 0x60 0x61) ++ []))) ∧
    (∀ o d1 d2, (inboundWords o d1 d2).map Prod.fst = frame Config.params.busAddress o d1 d2) ∧
    ∃ o, validOpcode o = true ∧ o ≠ kpOpcode Config.params.kp.opcType ∧ o ≠ kpOpcode Config.params.kp.opcPlaten ∧
      o ≠ kpOpcode Config.params.kp.opcCarriage := by
  have h := Config.params.kpOk
  refine ⟨fun o ho => ⟨?_, rfl, rfl⟩, inboundWords_fst, ?_⟩
  · simp only [KeypressMap.ok, Bool.and_eq_true, decide_eq_true_eq] at h
    simp only [List.mem_cons, List.not_mem_nil, or_false] at ho
    rw [validOpcode_iff]
    rcases ho with rfl | rfl | rfl <;> simp only [kpOpcode] <;> bv_omega
  · generalize kpOpcode Config.params.kp.opcType = x
    generalize kpOpcode Config.params.kp.opcPlaten = y
    generalize kpOpcode Config.params.kp.opcCarriage = z
    by_contra hc
    have h0 : ∀ o : Byte, validOpcode o = true → o = x ∨ o = y ∨ o = z := fun o ho => by
      by_contra hn
      exact hc ⟨o, ho, fun e => hn (.inl e), fun e => hn (.inr (.inl e)), fun e => hn (.inr (.inr e))⟩
    have a := h0 0 (by decide)
    have b := h0 1 (by decide)
    have c := h0 2 (by decide)
    have d := h0 3 (by decide)
    bv_omega
theorem witness_FlushrxEmptiesTheQueue : Alone (withRxq [0x121, 0x003]) := ⟨rfl, rfl⟩
theorem witness_FlushrxNeverEndsUnderArrivals (w : Word9) :
    (State.resetWith 0 [w] [] (endlessArrivals w)).isIdle = true ∧
    (State.resetWith 0 [w] [] (endlessArrivals w)).rxq = [w] := ⟨rfl, rfl⟩
theorem witness_WaitrdyNeverEndsOnABusyDevice :
    (State.resetWith 0 [] [] (endlessAnswers (exchangesWith [0, 1]))).isIdle = true ∧ validOpcode 0x0B = true ∧
    (exchangesWith [0, 1]).length = frameLen 0x0B + 1 ∧ lastResponse (exchangesWith [0, 1]) ≠ 0 ∧
    (State.resetWith 0 [] [] (endlessAnswers (exchangesWith [0, 1]))).rxq = [] := ⟨rfl, by decide, by decide, by decide, rfl⟩
theorem witness_HostReadsTheRegisters :
    (∀ e ∈ [ErrCode.noError, .invalidOpcode, .ackMismatch, .framingError], { State.reset with rErr := e }.rErr = e) ∧
    State.reset.isIdle = true ∧ holding.isIdle = false := by decide
theorem witness_SetkbdSelectsTheLayout : Alone State.reset := ⟨rfl, rfl⟩
theorem witness_A2pReadsTheSelectedTable :
    (Alone State.reset ∧ State.reset.kbd = .us) ∧
    (Alone { State.reset with kbd := .ascii } ∧ { State.reset with kbd := .ascii }.kbd = .ascii) :=
  ⟨⟨⟨rfl, rfl⟩, rfl⟩, ⟨rfl, rfl⟩, rfl⟩
theorem witness_P2aReadsTheReverseTable :
    Alone State.reset ∧ (0x60 : Byte).toNat = (96 : Fin 97) ∧ (0x60 : Byte) < 0x61 ∧ (0x60 : Byte) < 0xFF :=
  ⟨⟨rfl, rfl⟩, by decide⟩
theorem witness_PositionsRoundTrip :
    Alone State.reset ∧ State.reset.kbd = .us ∧ (0x10 : Fin 97) ≠ 0 ∧ ¬ (testParams false).rom.duplicate 0x10 :=
  ⟨⟨rfl, rfl⟩, rfl, by decide, by
    rintro ⟨c, h, e⟩
    rw [show (testParams false).rom.rev 0x10 = 0x2C from rfl] at e
    simp only [testParams, testRom] at e
    split_ifs at e <;> exact absurd e (by decide)⟩
theorem witness_LayoutMattersOnlyAtPunctuation : Alone State.reset ∧ isPunctuation 0x7F = false ∧ isPunctuation 0x20 = false :=
  ⟨⟨rfl, rfl⟩, by decide⟩
theorem witness_OnlyA2pReadsTheLayout :
    (∀ c, Instr.flushrx ≠ .a2p c) ∧ (∀ l, Instr.flushrx ≠ .setkbd l) ∧ ∃ t, exec .flushrx (withRxq [1]) = .next t :=
  ⟨by simp, by simp, _, rfl⟩
theorem witness_TransmitWriteSet :
    transmits (.opc02 0x21 1 2 false) = true ∧ ∃ t, exec (.opc02 0x21 1 2 false) (withRxq [1, 0, 2]) = .next t :=
  ⟨rfl, _, rfl⟩
theorem witness_ReceiveWriteSet :
    (∃ t, exec (.rdcmd false) (withRxq []) = .next t) ∧ (∃ t, exec (.rdkey false) (withRxq []) = .next t) ∧
    ∃ t, exec .flushrx (withRxq [1]) = .next t := ⟨⟨_, rfl⟩, ⟨_, rfl⟩, _, rfl⟩
theorem witness_TranslateWriteSet :
    (∃ t, exec (.setkbd true) State.reset = .next t) ∧ (∃ t, exec (.a2p 0xFF) State.reset = .next t) ∧
    ∃ t, exec (.p2a 0x61) State.reset = .next t := ⟨⟨_, rfl⟩, ⟨_, rfl⟩, _, rfl⟩
/-- An engine step from each kind of point. -/
theorem witness_EngineStepWriteSets :
    ∀ a ∈ [Activity.start (.send 0 0 0 0 false), .start (.waitrdy 0), .start (.rdcmd true), .start (.rdkey false),
      .start .flushrx, .start (.setkbd true), .start (.a2p 0), .start (.p2a 0), .tx (.send false) (loadFrame 0 0 0 0) .echo,
      .rx true .empty 0 (.avail true), .rx false .empty 0 (.avail false), .flush (.avail true)],
      ∃ t, engineStep (testParams false) { withRxq [1] with engine := .busy a } = some t := by
  intro a ha
  simp only [List.mem_cons, List.not_mem_nil, or_false] at ha
  rcases ha with rfl | rfl | rfl | rfl | rfl | rfl | rfl | rfl | rfl | rfl | rfl | rfl <;> exact ⟨_, rfl⟩
theorem witness_StepKeepsTheInvariant :
    Inv { withRxq [1] with engine := .busy (.flush (.avail true)) } ∧
    ∃ t, step { withRxq [1] with engine := .busy (.flush (.avail true)) } = .next t :=
  ⟨⟨trivial, by decide, fun w h => nomatch h⟩, _, rfl⟩
/-- A SEND of a frame of length 1 to the bus address that ends without error, and its words received. -/
theorem witness_SentFramesAreReceived :
    Alone (withRxq [1, 0, 2, 7]) ∧ Alone (withRxq (inbound Config.params.rxAckInterleaved (inboundWords 0x0B 0 0) ++ [])) ∧
    ∃ t, exec (.send Config.params.busAddress 0x0B 0 0 false) (withRxq [1, 0, 2, 7]) = .next t ∧ t.isIdle = true ∧
      t.rErr = .noError ∧ t.txs = (withRxq [1, 0, 2, 7]).txs ++ (inboundWords 0x0B 0 0).map Prod.fst :=
  ⟨⟨rfl, rfl⟩, ⟨rfl, rfl⟩, _, rfl, rfl, rfl, rfl⟩

end Sys2Proof.Tests
end

section
/-! SUPPORT. What the statements about the scope of the machine (spec/00_scope.md) need beyond Laws: what an instruction
asks of the engine, engine turns as steps of `settle`, arrivals beside engine steps, and the exact steps of a poll. -/

namespace Sys2Proof.Machine

open Sys2Proof.Safety

variable {p : Params} {s t : State}

/-! ### What an instruction asks of the engine -/

/-- A rejected opcode operand is a request of the operation that reads it (R95, R96). -/
theorem rejectOpcode_eq_operate (u : OpcUser) (o : Byte) :
    ∃ j, ∀ s, rejectOpcode u o s = operate Config.params j s := by
  cases u
  case send => exact ⟨.send 0 o 0 0 false, fun _ => rfl⟩
  case waitrdy => exact ⟨.waitrdy o, fun _ => rfl⟩

/-- Every instruction requests one host operation, in every state, but for the reserved HOP, which is always refused
(R71, R72). -/
theorem exec_eq_operate_or_refused (i : Instr) :
    (∃ j, ∀ s, exec i s = operate Config.params j s) ∨ ∃ q, ∀ s, exec i s = .refused q := by
  cases i
  case reservedHop hop => exact .inr ⟨.reservedOperation hop, fun _ => rfl⟩
  case invalidOpc0f u => exact .inl (rejectOpcode_eq_operate u 0x0F)
  case invalidOpc10_1f u o => exact .inl (rejectOpcode_eq_operate u o)
  case invalidOpc20_3f u o => exact .inl (rejectOpcode_eq_operate u o)
  case invalidOpc40_7f u o => exact .inl (rejectOpcode_eq_operate u o)
  case invalidOpc80_ff u o => exact .inl (rejectOpcode_eq_operate u o)
  all_goals exact .inl ⟨_, fun _ => rfl⟩

/-- An instruction that answers a state somewhere requests one operation in every state. -/
theorem exec_eq_operate_of_next {i : Instr} (h : exec i s = .next t) :
    ∃ j, ∀ u, exec i u = operate Config.params j u := by
  rcases exec_eq_operate_or_refused i with hj | ⟨q, hq⟩
  · exact hj
  · rw [hq] at h
    cases h

/-- A wire command of a valid opcode runs SEND with that opcode (R62, R63). -/
theorem exec_wireCommand (a : BusAddr) {o : Byte} (d1 d2 : Byte) (ign : Bool) (ho : validOpcode o = true) (s : State) :
    exec (wireCommand a o d1 d2 ign) s = exec (.send a o d1 d2 ign) s := by
  obtain ⟨n, hn, rfl⟩ : ∃ n, n ≤ 14 ∧ o = BitVec.ofNat 8 n := ⟨o.toNat, (validOpcode_iff o).mp ho, by simp⟩
  interval_cases n <;> rfl

/-- SEND and the wire command of its opcode are one operation (R62, R63). -/
theorem exec_of_mem_send_wireCommand {a : BusAddr} {o d1 d2 : Byte} {ign : Bool} {i : Instr} (ho : validOpcode o = true)
    (hi : i ∈ [Instr.send a o d1 d2 ign, wireCommand a o d1 d2 ign]) (s : State) :
    exec i s = operate Config.params (.send a o d1 d2 ign) s := by
  rcases List.mem_pair.mp hi with rfl | rfl
  · rfl
  · exact exec_wireCommand a d1 d2 ign ho s

/-! ### Frames to send -/

/-- Exchanges whose responses are all ACKs are acked at every length (R103). -/
theorem acked_of_all {xs : List (Word9 × Word9)} (n : Nat) (h : ∀ x ∈ xs, x.2 = 0) : acked n xs := by
  intro x hx
  split at hx
  · exact h x (List.mem_of_mem_take hx)
  · exact h x hx

/-- The first words of a loaded frame are those of FRAME (R66). -/
theorem wordsFrom_loadFrame_eq_take_frame (a : BusAddr) (o d1 d2 : Byte) {n : Nat} (hn : n ≤ frameLen o + 1) :
    (loadFrame a o d1 d2).wordsFrom n = (frame a o d1 d2).take n := by
  have hlen := frameLen_le o
  rw [wordsFrom_loadFrame a o d1 d2 (by omega), frame, List.take_take, Nat.min_eq_left hn]

/-! ### Rest -/

/-- Rest keeps the turns. -/
theorem rest_turns (p : Params) (s : State) : (rest p s).turns = s.turns :=
  rest_induction (P := fun u => u.turns = s.turns) (fun _ _ hu hs => (engineStep_turns hu).trans hs) s rfl

/-- At rest an operation has ended, or holds with RXQ empty (R13). -/
theorem rest_ends_or_holds (p : Params) (s : State) :
    (rest p s).isIdle = true ∨ (Holds p (rest p s) ∧ (rest p s).rxq = []) := by
  have hn := engineStep_rest p s
  rcases he : (rest p s).engine with _ | a
  · exact .inl (isIdle_iff.mpr he)
  · exact .inr ⟨⟨by simp [State.isIdle, he], hn⟩, rxq_nil_of_hold he hn⟩

/-! ### Engine turns as steps of settle -/

/-- One engine step, and then the others. -/
theorem settle_step {n : Nat} (h : engineStep p s = some t) : settle p (n + 1) s = settle p n t := by
  simp [settle, h]

/-- Steps taken together can be put together. -/
theorem settle_add (p : Params) (m n : Nat) (s : State) : settle p (m + n) s = settle p n (settle p m s) := by
  induction m generalizing s with
  | zero => rw [Nat.zero_add, settle]
  | succ m ih =>
    rcases h : engineStep p s with _ | t
    · rw [settle_of_none h, settle_of_none h, settle_of_none h]
    · rw [Nat.succ_add, settle_step h, settle_step h, ih]

/-- The turns and the point of an operation are written apart from each other. -/
theorem withTurns_goto (us : Schedule) (a : Activity) (s : State) :
    (s.withTurns us).goto a = (s.goto a).withTurns us := rfl

/-- Steps taken together are the same whatever turns remain (R13). -/
theorem settle_withTurns (ts : Schedule) (n : Nat) (s : State) :
    settle p n (s.withTurns ts) = (settle p n s).withTurns ts := by
  induction n generalizing s with
  | zero => rfl
  | succ n ih =>
    have hts := engineStep_withTurns (p := p) ts s
    rcases h : engineStep p s with _ | t <;> rw [h] at hts
    · rw [settle_of_none hts, settle_of_none h]
    · rw [settle_step hts, settle_step h, ih]

/-- With an engine turn next, the engine's share of a step is one engine step, or none at a hold (R13). -/
theorem engineTurn_engine {ts : Schedule} (hs : s.turns.next = some (.engine, ts)) :
    engineTurn p s = (settle p 1 s).withTurns ts := by
  simp only [engineTurn, hs]
  rw [engineStep_withTurns]
  rcases h : engineStep p s with _ | t
  · rw [settle_of_none h]
    rfl
  · rw [settle_step h]
    rfl

/-- A request with an engine turn next takes the operation's first engine step (R23). -/
theorem operate_engine {j : Job} {ts : Schedule} (hi : s.engine = .idle) (hs : s.turns.next = some (.engine, ts)) :
    operate p j s = .next ((settle p 1 (s.goto (.start j))).withTurns ts) := by
  rw [operate_idle hi, engineTurn_engine (s := s.goto (.start j)) hs]

/-- The same, of a state whose turns were written over: the first step does not look at them. -/
theorem operate_engine_withTurns {j : Job} {us ts : Schedule} (hi : s.engine = .idle)
    (hs : us.next = some (.engine, ts)) :
    operate p j (s.withTurns us) = .next ((settle p 1 (s.goto (.start j))).withTurns ts) := by
  rw [operate_engine (s := s.withTurns us) hi hs, withTurns_goto, settle_withTurns, withTurns_withTurns]

/-- n listed engine turns take n engine steps, up to the end of the operation or a hold. -/
theorem run_engineTurns (rest : List Turn) (l : Later) (n : Nat) (s : State) :
    Sys2Proof.core.run n (s.withTurns ⟨List.replicate n .engine ++ rest, l⟩) =
      .next ((settle Config.params n s).withTurns ⟨rest, l⟩) := by
  induction n generalizing s with
  | zero => rfl
  | succ n ih =>
    have hn : (s.withTurns ⟨List.replicate (n + 1) .engine ++ rest, l⟩).turns.next =
        some (.engine, ⟨List.replicate n .engine ++ rest, l⟩) := next_listed _ _ _
    have hs : step (s.withTurns ⟨List.replicate (n + 1) .engine ++ rest, l⟩) =
        .next ((settle Config.params 1 s).withTurns ⟨List.replicate n .engine ++ rest, l⟩) := by
      simp only [step, hn]
      rw [engineTurn_engine hn, settle_withTurns, withTurns_withTurns]
    rw [run_succ hs, ih, Nat.add_comm n 1, settle_add]

/-- As many engine turns as an operation may have steps left bring it to rest. -/
theorem run_engineTurns_rest {n : Nat} (ht : s.turns.next = none) (hn : stepsLeft s ≤ n) :
    Sys2Proof.core.run n (s.withTurns ⟨List.replicate n .engine, .quiet⟩) = .next (rest Config.params s) := by
  have h := run_engineTurns [] .quiet n s
  rw [List.append_nil, settle_eq_rest _ _ _ hn] at h
  have hq : (rest Config.params s).turns = ⟨[], .quiet⟩ := by rw [rest_turns, next_eq_none.mp ht]
  rw [h, ← hq]
  rfl

/-- A step does not tell apart schedules with the same next turn. -/
theorem step_withTurns {us : Schedule} (h : us.next = s.turns.next) : step (s.withTurns us) = step s := by
  rcases hn : s.turns.next with _ | ⟨_ | w | r | _, ts⟩
  · rw [next_eq_none.mp (h.trans hn), ← next_eq_none.mp hn]
    rfl
  all_goals
    rw [hn] at h
    simp only [step, engineTurn, withTurns_turns, h, hn]
    rfl

/-- A run does not tell apart schedules with the same next turn. -/
theorem run_withTurns {us : Schedule} {n : Nat} (h : us.next = s.turns.next) :
    Sys2Proof.core.run (n + 1) (s.withTurns us) = Sys2Proof.core.run (n + 1) s := by
  have hs : Sys2Proof.core.step (s.withTurns us) = Sys2Proof.core.step s := step_withTurns h
  simp only [Host.Core.run, hs]

/-- Turns that come again and again are next in their order each time the engine has been through them. -/
theorem repeatedAfterOneStep_again {ts : List Turn} (hne : ts ≠ []) (hh : ∀ t ∈ ts, ∀ r, t ≠ .host r) :
    ∃ l, repeatedAfterOneStep ts = ⟨[.engine], l⟩ ∧ (Schedule.mk ts l).next = (Schedule.mk [] l).next ∧
      HostIsSilent ⟨[], l⟩ := by
  obtain ⟨t, rest, rfl⟩ := List.exists_cons_of_ne_nil hne
  exact ⟨.again t rest, rfl, next_listed _ _ _, fun _ h => absurd h List.not_mem_nil, hh⟩

/-! ### Arrivals beside engine steps -/

section Arrivals

variable {w : Word9}

/-- A ChanRead that returns is the same with a word behind the one it takes (R10, R49). -/
theorem chanRead_envAppend {g : Word9 → Activity}
    (h : (chanRead s).map (fun e => e.2.goto (g e.1)) = some t) :
    (chanRead (envAppend w s)).map (fun e => e.2.goto (g e.1)) = some (envAppend w t) := by
  rcases hq : s.rxq with _ | ⟨v, q⟩
  · rw [chanRead_eq_none.mpr hq] at h
    cases h
  · rw [chanRead_cons hq] at h
    rw [chanRead_cons (show (envAppend w s).rxq = v :: (q ++ [w]) by simp [hq])]
    cases h
    rfl

theorem readWord_envAppend {key : Bool} {buf : RxFrame} {k : Nat} (h : readWord key buf k s = some t) :
    readWord key buf k (envAppend w s) = some (envAppend w t) :=
  chanRead_envAppend (g := fun v => .rx key (buf.set k v) k .got) h

theorem nextWord_envAppend {key : Bool} {buf : RxFrame} {k : Nat} (h : nextWord p key buf k s = some t) :
    nextWord p key buf k (envAppend w s) = some (envAppend w t) := by
  unfold nextWord at h ⊢
  split at h
  · next hk => rw [if_pos hk]; exact readWord_envAppend h
  · next hk =>
    rw [if_neg hk]
    cases h
    cases key <;> rfl

theorem afterResponse_envAppend (x : TxCtx) (f : TxFrame) (r : Word9) :
    afterResponse p x f r (envAppend w s) = envAppend w (afterResponse p x f r s) := by
  unfold afterResponse frameSent
  split
  · rfl
  split
  · rfl
  cases x
  case send => rfl
  case poll => by_cases h : r = 0 <;> simp only [setResp_rResp, h, if_true, if_false] <;> rfl

/-- The first step of an operation that does not test ChanAvailable commutes with an arrival. -/
theorem beginJob_envAppend {j : Job} (hn : j ≠ .flushrx ∧ j ≠ .rdcmd false ∧ j ≠ .rdkey false)
    (h : beginJob p j s = some t) : beginJob p j (envAppend w s) = some (envAppend w t) := by
  obtain ⟨hflush, hcmd, hkey⟩ := hn
  cases j
  case send a o d1 d2 ign => cases h; simp only [beginJob, beginSend]; split <;> rfl
  case waitrdy o => cases h; simp only [beginJob, beginWaitrdy]; split <;> rfl
  case rdcmd blk =>
    cases blk
    · exact absurd rfl hcmd
    · exact readWord_envAppend (s := markPresent (clearReceived (clearKey false s))) h
  case rdkey blk =>
    cases blk
    · exact absurd rfl hkey
    · exact readWord_envAppend (s := markPresent (clearReceived (clearKey true s))) h
  case flushrx => exact absurd rfl hflush
  all_goals cases h; rfl

theorem txStep_envAppend {x : TxCtx} {f : TxFrame} {ph : TxPhase} (h : txStep p x f ph s = some t) :
    txStep p x f ph (envAppend w s) = some (envAppend w t) := by
  cases ph
  case echo => exact chanRead_envAppend (g := fun _ => .tx x f .resp) h
  case resp => exact chanRead_envAppend (g := fun v => .tx x f (.got v)) h
  case got r => cases h; exact congrArg some (afterResponse_envAppend x f r)

theorem rxStep_envAppend {key : Bool} {buf : RxFrame} {k : Nat} {ph : RxPhase} (h : rxStep p key buf k ph s = some t) :
    rxStep p key buf k ph (envAppend w s) = some (envAppend w t) := by
  unfold rxStep at h ⊢
  split at h
  · exact readWord_envAppend (s := markPresent s) h
  · cases h
    cases key <;> rfl
  · split at h
    · next hw =>
      rw [if_pos hw]
      split at h
      · next hi => rw [if_pos hi]; exact chanRead_envAppend (g := fun _ => .rx key buf k .skipped) h
      · next hi => rw [if_neg hi]; exact nextWord_envAppend h
    · next hw =>
      rw [if_neg hw]
      cases h
      rfl
  · exact nextWord_envAppend h

theorem flushStep_envAppend {ph : FlushPhase} (hn : ph ≠ .read) (h : flushStep ph s = some t) :
    flushStep ph (envAppend w s) = some (envAppend w t) := by
  rcases ph with (_ | _) | _
  · cases h
    rfl
  · exact chanRead_envAppend (g := fun _ => .flush .read) h
  · exact absurd rfl hn

/-- An engine step that is no ChanAvailable commutes with an arrival (R14, R49). -/
theorem engineStep_envAppend (hn : ¬ TestsAvailable s) (h : engineStep p s = some t) :
    engineStep p (envAppend w s) = some (envAppend w t) := by
  unfold TestsAvailable at hn
  unfold engineStep at h ⊢
  rw [envAppend_engine]
  rcases hs : s.engine with _ | ⟨j | ⟨x, f, ph⟩ | ⟨key, buf, k, ph⟩ | ph⟩ <;> rw [hs] at h hn
  · cases h
  · exact beginJob_envAppend (by simpa using hn) h
  · exact txStep_envAppend h
  · exact rxStep_envAppend h
  · exact flushStep_envAppend (by simpa using hn) h

end Arrivals

/-! ### Inbound frames cut short -/

section Inbound

variable {key blk : Bool} {o d1 d2 : Byte} {xs : List (Word9 × Word9)}

/-- The words of a frame to the bus address, by their index. -/
theorem eq_busWord_of_frame {k : Nat} {w : Word9} (h : (frame p.busAddress o d1 d2)[k]? = some w) :
    w = busWord p o d1 d2 k := by
  unfold frame at h
  rw [List.getElem?_take] at h
  split at h
  · rw [busWord, List.getD_eq_getElem?_getD, h, Option.getD_some]
  · cases h

/-- The words of the beginning of an inbound frame, by their index. -/
theorem fst_eq_busWord (hx : xs.map Prod.fst = (frame p.busAddress o d1 d2).take xs.length) (i : Nat)
    (hi : i < xs.length) : xs[i].1 = busWord p o d1 d2 i := by
  apply eq_busWord_of_frame
  have h : (xs.map Prod.fst)[i]? = some xs[i].1 := by simp [hi]
  rwa [hx, List.getElem?_take_of_lt hi] at h

/-- A frame whose last word has not come goes on (R120). -/
theorem frame_goes_on {buf : RxFrame} {k : Nat} (ho : validOpcode o = true)
    (hb : ∀ i ≤ k, buf.word i = busWord p o d1 d2 i) (hk : k < frameLen o) : k = 0 ∨ k < buf.len := by
  rcases Nat.eq_zero_or_pos k with h | h
  · exact .inl h
  · rw [len_of_opcWord ho (hb 1 h)]
    exact .inr hk

/-- RDCMD and RDKEY with the first words of a frame in RXQ come to the last of them (R120, R121). -/
theorem rest_receive_words {j : Job} (hj : j = if key then .rdkey blk else .rdcmd blk) (ho : validOpcode o = true)
    (hne : xs ≠ []) (hl : xs.length ≤ frameLen o + 1)
    (hx : ∀ i (h : i < xs.length), xs[i].1 = busWord p o d1 d2 i) {tail : List Word9}
    (hq : s.rxq = inbound p.rxAckInterleaved xs ++ tail) :
    ∃ (buf : RxFrame) (q : List Word9), (∀ i ≤ xs.length - 1, buf.word i = busWord p o d1 d2 i) ∧ Follows p q tail ∧
      rest p (s.goto (.start j)) =
        rest p (gotWord key buf (xs.length - 1) (markPresent (clearReceived (clearKey key s))) q) := by
  obtain ⟨x, xs, rfl⟩ := List.exists_cons_of_ne_nil hne
  simp only [List.length_cons, Nat.add_sub_cancel] at hl hx ⊢
  obtain ⟨q', hq', hf⟩ := follows_inbound (p := p) x xs tail
  have h0 : ∀ i ≤ 0, (RxFrame.empty.set 0 x.1).word i = busWord p o d1 d2 i := by
    intro i hi
    obtain rfl := Nat.le_zero.mp hi
    exact hx 0 (by omega)
  obtain ⟨buf, q, hb, hfq, hr⟩ := rest_gotWord_words (key := key) ho tail (markPresent (clearReceived (clearKey key s)))
    xs 0 _ q' h0 (by omega) (fun i hi => by rw [show 0 + 1 + i = i + 1 by omega]; exact hx (i + 1) (by omega)) hf
  rw [Nat.zero_add] at hb hr
  exact ⟨buf, q, hb, hfq, by rw [rest_beginReceive hj (hq.trans hq'), hr]⟩

/-- An accepted word whose response word is missing holds the reception where the bus interleaves them (R121, R123). -/
theorem rest_gotWord_unanswered {buf : RxFrame} {k : Nat} (hi : p.rxAckInterleaved = true)
    (h : wordOk p k (buf.word k) = true) : rest p (gotWord key buf k s []) = gotWord key buf k s [] :=
  rest_of_none (by simp [gotWord, engineStep, rxStep, State.goto, h, hi, chanRead])

/-- A blocking RDCMD or RDKEY with RXQ empty holds at its start (R123). -/
theorem rest_beginReceive_blocking (hq : s.rxq = []) :
    rest p (s.goto (.start (if key then .rdkey true else .rdcmd true))) =
      s.goto (.start (if key then .rdkey true else .rdcmd true)) := by
  apply rest_of_none
  cases key <;> exact readWord_eq_none.mpr hq

/-- The state a cut frame leaves a reception in: BUSY, RXQ empty and a word taken. -/
def Cut (key : Bool) (s t : State) : Prop :=
  ∃ buf k ph, t = (({ markPresent (clearReceived (clearKey key s)) with rxq := [] } : State)).goto (.rx key buf k ph)

theorem cut_facts (h : Cut key s t) : t.isIdle = false ∧ t.rxq = [] ∧ t.txs = s.txs ∧ t.rPresent = true := by
  obtain ⟨buf, k, ph, rfl⟩ := h
  cases key <;> exact ⟨rfl, rfl, rfl, rfl⟩

/-- A frame cut before a later word is a cut (R123). -/
theorem cut_before_word {j : Job} (hj : j = if key then .rdkey blk else .rdcmd blk) (ho : validOpcode o = true)
    (hne : xs ≠ []) (hl : xs.length ≤ frameLen o)
    (hx : ∀ i (h : i < xs.length), xs[i].1 = busWord p o d1 d2 i) (hq : s.rxq = inbound p.rxAckInterleaved xs) :
    Cut key s (rest p (s.goto (.start j))) := by
  obtain ⟨buf, q, hb, hf, hr⟩ := rest_receive_words hj ho hne (by omega) hx (by rw [hq, List.append_nil])
  have hpos := List.length_pos_iff.mpr hne
  have hlen := frameLen_le o
  obtain ⟨ph, hh, -⟩ := rest_gotWord_holds (key := key) (s := markPresent (clearReceived (clearKey key s)))
    (wordOk_busWord ho (by omega) (hb _ (Nat.le_refl _))) hf (frame_goes_on ho hb (by omega))
  exact ⟨buf, _, ph, hr.trans hh⟩

/-- A frame cut between an accepted word and its response word is a cut (R5, R121). -/
theorem cut_before_response {j : Job} (hj : j = if key then .rdkey blk else .rdcmd blk) (ho : validOpcode o = true)
    (hi : p.rxAckInterleaved = true) (hl : xs.length ≤ frameLen o)
    (hx : ∀ i (h : i < xs.length), xs[i].1 = busWord p o d1 d2 i)
    (hq : s.rxq = inbound p.rxAckInterleaved xs ++ [busWord p o d1 d2 xs.length]) :
    Cut key s (rest p (s.goto (.start j))) := by
  have hlen := frameLen_le o
  rcases eq_or_ne xs [] with rfl | hne
  · refine ⟨RxFrame.empty.set 0 (busWord p o d1 d2 0), 0, .got, ?_⟩
    rw [rest_beginReceive hj (by simpa [inbound, exchanged] using hq),
      rest_gotWord_unanswered hi (wordOk_busWord (d1 := d1) (d2 := d2) ho (by omega) rfl)]
    rfl
  · obtain ⟨buf, q, hb, hf, hr⟩ := rest_receive_words hj ho hne (by omega) hx hq
    have hpos := List.length_pos_iff.mpr hne
    have hk : xs.length - 1 + 1 = xs.length := by omega
    have hn := nextWord_more (p := p) (key := key) (w := busWord p o d1 d2 xs.length) (q := [])
      (s := { markPresent (clearReceived (clearKey key s)) with rxq := [busWord p o d1 d2 xs.length] })
      (frame_goes_on ho hb (by omega)) rfl
    rw [hk] at hn
    have hlast := word_set_self (buf := buf) (busWord p o d1 d2 xs.length) (show xs.length ≤ 3 by omega)
    refine ⟨buf.set xs.length (busWord p o d1 d2 xs.length), xs.length, .got, ?_⟩
    rw [hr, rest_gotWord_accepted (wordOk_busWord ho (by omega) (hb _ (Nat.le_refl _))) hf hn,
      rest_gotWord_unanswered hi (wordOk_busWord (d1 := d1) (d2 := d2) ho (by omega) hlast)]
    rfl

end Inbound

/-! ### The steps of a poll -/

section Poll

variable {o : Byte} {f : TxFrame} {xs : List (Word9 × Word9)}

/-- The three engine steps of a word sent, its echo, its response and the work on it (R100, R102). -/
theorem settle_exchange {x : TxCtx} {e r : Word9} {q : List Word9} (h : s.rxq = e :: r :: q) :
    settle p 3 (sendWord x f s) =
      afterResponse p x f r (({ s with rxq := q, txs := s.txs ++ [f.word f.k] } : State).goto (.tx x f (.got r))) := by
  have h1 : engineStep p (sendWord x f s) =
      some (({ s with rxq := r :: q, txs := s.txs ++ [f.word f.k] } : State).goto (.tx x f .resp)) := by
    simp [sendWord, engineStep, txStep, chanRead, chanWrite, State.goto, h]
  rw [settle_step h1]
  rfl

/-- No response to a poll is checked (R101, R103). -/
theorem afterResponse_poll (r : Word9) :
    afterResponse p (.poll o) f r s =
      if f.k + 1 < f.txn then sendWord (.poll o) { f with k := f.k + 1 } (setResp r s)
      else frameSent p (.poll o) (setResp r s) := by
  simp [afterResponse, ackChecked, TxCtx.ignoresAcks]

/-- A poll with an echo and a response for every word from K on takes three engine steps for each of them, checks no
response, and starts the next poll if the last response is not 0 (R101). -/
theorem settle_poll : ∀ {xs : List (Word9 × Word9)} {f : TxFrame} {s : State}, xs ≠ [] → f.k + xs.length = f.txn →
    lastResponse xs ≠ 0 → s.rxq = exchanged xs →
    settle p (3 * xs.length) (sendWord (.poll o) f s) =
      startPoll p o (exchangedState s xs [] (f.wordsFrom xs.length))
  | [], _, _, hne, _, _, _ => absurd rfl hne
  | [(e, r)], f, s, _, hk, hr, hq => by
    have hr' : r ≠ 0 := hr
    have hlast : ¬ f.k + 1 < f.txn := by simp only [List.length_singleton] at hk; omega
    rw [List.length_singleton, Nat.mul_one, settle_exchange (q := []) hq]
    rw [afterResponse_poll, if_neg hlast, frameSent, setResp_rResp, if_neg hr']
    rfl
  | (e, r) :: y :: ys, f, s, _, hk, hr, hq => by
    have hmore : f.k + 1 < f.txn := by simp only [List.length_cons] at hk; omega
    have hl : lastResponse ((e, r) :: y :: ys) = lastResponse (y :: ys) := by simp [lastResponse]
    rw [List.length_cons, Nat.mul_add, Nat.mul_one, Nat.add_comm, settle_add,
      settle_exchange (q := exchanged (y :: ys)) (by simpa [exchanged] using hq)]
    rw [afterResponse_poll, if_pos hmore,
      settle_poll (List.cons_ne_nil y ys) (by simp only [List.length_cons] at hk ⊢; omega) (hl ▸ hr) rfl]
    simp [startPoll, startFrame, sendWord, chanWrite, setResp, State.goto, exchangedState, TxFrame.wordsFrom,
      List.range'_succ, TxFrame.word, List.getLast?_cons]

/-- The engine has just sent the address word of a poll of WAITRDY, RXQ is empty and TXS held ws before it; the listed
turns are over. -/
def AtPoll (o : Byte) (l : Later) (ws : List Word9) (u : State) : Prop :=
  ∃ v, u = startPoll Config.params o v ∧ v.rxq = [] ∧ v.turns = ⟨[], l⟩ ∧ v.txs = ws

theorem atPoll_isIdle {l : Later} {ws : List Word9} {u : State} (h : AtPoll o l ws u) : u.isIdle = false := by
  obtain ⟨v, rfl, -, -, -⟩ := h
  rfl

theorem atPoll_txs {l : Later} {ws : List Word9} {u : State} (h : AtPoll o l ws u) :
    u.txs = ws ++ [addrWord Config.params.busAddress] := by
  obtain ⟨v, rfl, -, -, rfl⟩ := h
  rfl

/-- The turns in which a bus answers a whole poll and the engine takes its steps (R101). -/
def pollTurns (xs : List (Word9 × Word9)) : List Turn :=
  arrivals (exchanged xs) ++ List.replicate (3 * xs.length) .engine

/-- The answers to a poll arrive and the engine takes its steps: the frame is in TXS, and the next poll starts if the
status is not 0 (R101). -/
theorem run_pollTurns (l : Later) {v : State} (hlen : xs.length = frameLen o + 1) (hbusy : lastResponse xs ≠ 0)
    (hq : v.rxq = []) :
    Sys2Proof.core.run ((exchanged xs).length + 3 * xs.length)
        ((startPoll Config.params o v).withTurns ⟨pollTurns xs, l⟩) =
      .next ((startPoll Config.params o (exchangedState v xs [] (frame Config.params.busAddress o 0 0))).withTurns
        ⟨[], l⟩) := by
  have hne : xs ≠ [] := List.ne_nil_of_length_eq_add_one hlen
  have hwords : (loadFrame Config.params.busAddress o 0 0).wordsFrom xs.length =
      frame Config.params.busAddress o 0 0 := by
    rw [hlen, wordsFrom_loadFrame_eq_take_frame _ _ _ _ (Nat.le_refl _), frame, List.take_take, Nat.min_self]
  have harrived : ({ (startPoll Config.params o v).withTurns ⟨pollTurns xs, l⟩ with
        rxq := v.rxq ++ exchanged xs, turns := ⟨List.replicate (3 * xs.length) .engine, l⟩ } : State) =
      (startPoll Config.params o { v with rxq := exchanged xs }).withTurns
        ⟨List.replicate (3 * xs.length) .engine ++ [], l⟩ := by
    rw [hq, List.nil_append, List.append_nil]
    rfl
  have hpolled : settle Config.params (3 * xs.length) (startPoll Config.params o { v with rxq := exchanged xs }) =
      startPoll Config.params o (exchangedState v xs [] (frame Config.params.busAddress o 0 0)) := by
    rw [← hwords]
    exact settle_poll hne ((Nat.zero_add _).trans hlen) hbusy rfl
  rw [run_add (run_arrivals (List.replicate (3 * xs.length) .engine) l (exchanged xs) _ rfl)]
  exact (congrArg _ harrived).trans ((run_engineTurns [] l _ _).trans (by rw [hpolled]))

/-- A poll answered with a status that is not 0 is followed by the next poll, with one more frame in TXS (R101). -/
theorem atPoll_returns {l : Later} {ws : List Word9} {u : State} (hlen : xs.length = frameLen o + 1)
    (hbusy : lastResponse xs ≠ 0) (hl : (Schedule.mk (pollTurns xs) l).next = (Schedule.mk [] l).next)
    (h : AtPoll o l ws u) :
    ∃ k v, 0 < k ∧ Sys2Proof.core.run k u = .next v ∧ AtPoll o l (ws ++ frame Config.params.busAddress o 0 0) v := by
  obtain ⟨v, rfl, hq, ht, rfl⟩ := h
  have hrun := run_pollTurns l hlen hbusy hq
  rw [hlen, Nat.mul_succ, ← Nat.add_assoc,
    run_withTurns (hl.trans (by rw [← ht]; rfl))] at hrun
  exact ⟨_, _, Nat.succ_pos _, hrun, (exchangedState v xs [] _).withTurns ⟨[], l⟩, rfl, rfl, rfl, rfl⟩

/-- Polls answered with a status that is not 0 go on for ever, each with one more frame in TXS (R101). -/
theorem atPoll_run {l : Later} {ws : List Word9} {u : State} (hlen : xs.length = frameLen o + 1)
    (hbusy : lastResponse xs ≠ 0) (hl : (Schedule.mk (pollTurns xs) l).next = (Schedule.mk [] l).next)
    (h : AtPoll o l ws u) (m : Nat) :
    ∃ n v, Sys2Proof.core.run n u = .next v ∧
      AtPoll o l (ws ++ (List.replicate m (frame Config.params.busAddress o 0 0)).flatten) v := by
  induction m with
  | zero => exact ⟨0, u, rfl, by simpa using h⟩
  | succ m ih =>
    obtain ⟨n, v, hr, hv⟩ := ih
    obtain ⟨k, w, -, hr', hw⟩ := atPoll_returns hlen hbusy hl hv
    refine ⟨n + k, w, by rw [run_add hr, hr'], ?_⟩
    simpa [List.replicate_succ'] using hw

/-- The first engine step of WAITRDY starts the first poll (R101). -/
theorem settle_startWaitrdy (ho : validOpcode o = true) :
    settle p 1 (s.goto (.start (.waitrdy o))) = startPoll p o (setResp 0 s) := by
  rw [settle_step (t := startPoll p o (setResp 0 s))
    (by simp [engineStep, beginJob, beginWaitrdy, ho, startPoll, startFrame, sendWord, chanWrite, setResp, State.goto]),
    settle]

end Poll

end Sys2Proof.Machine
end

section
/-! The statements about the scope of the machine (spec/00_scope.md), settled: single engine turns and channel calls, an
operation that no other agent disturbs, holds, and runs without end. -/

namespace Sys2Proof.Machine

open Sys2Proof.Safety

/-- Settles O11: an engine turn is one engine step, whose channel calls `engineStep_call` lists, or a hold. -/
theorem oneTurnMakesOneChannelCall : Obligations.OneTurnMakesOneChannelCall := by
  unfold Obligations.OneTurnMakesOneChannelCall
  intro s t ts hn h
  simp only [step, hn, engineTurn, Host.Outcome.next.injEq] at h
  rcases he : engineStep Config.params (s.withTurns ts) with _ | u
  · rw [he, Option.getD_none] at h
    subst h
    exact .inl ⟨rfl, rfl⟩
  · rw [he, Option.getD_some] at h
    subst h
    cases (engineStep_call he).1 with
    | quiet htx hrx => exact .inl ⟨htx, hrx⟩
    | write w htx hrx => exact .inr (.inl ⟨w, htx, hrx⟩)
    | read w htx hrx => exact .inr (.inr ⟨w, htx, hrx⟩)

/-- Settles O13: undisturbed, an operation comes to rest, which is an end or a hold. -/
theorem undisturbedOperationEndsOrHolds : Obligations.UndisturbedOperationEndsOrHolds := by
  unfold Obligations.UndisturbedOperationEndsOrHolds
  intro i s t ha h
  obtain ⟨j, hj⟩ := exec_eq_operate_of_next h
  rw [hj, operate_of_alone ha] at h
  cases h
  exact ⟨rest_turns _ _, rest_ends_or_holds _ _⟩

/-- Settles O14: the request takes one engine step of `settle`, the n engine turns after it n more, and together they
are enough to come to rest. -/
theorem singleStepsReachTheSameState : Obligations.SingleStepsReachTheSameState := by
  unfold Obligations.SingleStepsReachTheSameState
  intro i s t n ha h hn
  obtain ⟨j, hj⟩ := exec_eq_operate_of_next h
  rw [hj, operate_of_alone ha] at h
  cases h
  have hidle : s.engine = .idle := isIdle_iff.mp ha.1
  have hturns : (rest Config.params (s.goto (.start j))).turns = ⟨[], .quiet⟩ :=
    (rest_turns _ _).trans (next_eq_none.mp ha.2)
  have hbound : stepsLeft (s.goto (.start j)) ≤ 1 + n := by
    have hle : 2 * s.rxq.length + 2 ≤ n := hn
    have hleft : stepsLeft (s.goto (.start j)) = 2 * s.rxq.length + 2 := rfl
    omega
  refine ⟨(settle Config.params 1 (s.goto (.start j))).withTurns ⟨List.replicate n .engine ++ [], .quiet⟩, ?_, ?_⟩
  · have hnext : (Schedule.mk (List.replicate (n + 1) .engine) .quiet).next =
        some (.engine, ⟨List.replicate n .engine ++ [], .quiet⟩) := by
      rw [List.append_nil]
      exact next_listed _ _ _
    exact (hj _).trans (operate_engine_withTurns hidle hnext)
  · rw [run_engineTurns, ← settle_add, settle_eq_rest _ _ _ hbound, ← hturns]
    rfl

/-- Settles O24: SEND, and so the wire command of its opcode, comes to rest at a ChanRead of the word in progress. -/
theorem sendHoldsOnASilentBus : Obligations.SendHoldsOnASilentBus := by
  unfold Obligations.SendHoldsOnASilentBus
  intro a o d1 d2 ign s xs tail ha ho hl hack ht hq i hi
  have hpass : Passes (.send ign) (loadFrame a o d1 d2) xs :=
    passes_loadFrame (by omega) (hack.imp_right (acked_of_all (frameLen o)))
  have hwords := wordsFrom_loadFrame_eq_take_frame a o d1 d2 (Nat.succ_le_succ hl)
  have hk : (loadFrame a o d1 d2).k + xs.length < (loadFrame a o d1 d2).txn := by
    simp only [loadFrame]
    omega
  obtain ⟨ph, hr, -⟩ := rest_sendWord_silent (p := Config.params) (s := setResp 0 s) hk hpass hq ht
  have hexec : exec i s = .next (rest Config.params (sendWord (.send ign) (loadFrame a o d1 d2) (setResp 0 s))) := by
    rw [exec_of_mem_send_wireCommand ho hi, operate_of_alone ha, rest_startSend ho]
  refine ⟨_, hexec, ⟨?_, engineStep_rest _ _⟩, ?_, ?_⟩
  · rw [hr]; rfl
  · rw [hr]; rfl
  · rw [hr, ← hwords]; rfl

/-- Settles O34: a cut frame brings the reception to a hold before a word or before a response word, and a blocking one
with nothing in RXQ holds at its start. -/
theorem receptionHoldsOnACutFrame : Obligations.ReceptionHoldsOnACutFrame := by
  unfold Obligations.ReceptionHoldsOnACutFrame
  intro p key blk o d1 d2 s xs ha ho hl hfst hcut
  refine ⟨_, operate_of_alone ha, ?_, ?_⟩
  · rintro rfl
    rw [← operate_of_alone ha]
    cases key <;> rfl
  have hx := fst_eq_busWord hfst
  have hrest : ∀ {t : State}, Cut key s t → engineStep p t = none →
      Holds p t ∧ t.rxq = [] ∧ t.txs = s.txs ∧ (s.rxq ≠ [] → t.rPresent = true) := fun h hn =>
    have ⟨hbusy, hrxq, htxs, hpresent⟩ := cut_facts h
    ⟨⟨hbusy, hn⟩, hrxq, htxs, fun _ => hpresent⟩
  rcases hcut with ⟨hsome, hq⟩ | ⟨hi, w, hw, hq⟩
  · rcases eq_or_ne xs [] with rfl | hne
    · have hnil : s.rxq = [] := by simpa [inbound, exchanged] using hq
      obtain rfl : blk = true := by simpa using hsome
      have hr := rest_beginReceive_blocking (p := p) (key := key) hnil
      have hn := engineStep_rest p (s.goto (.start (if key then .rdkey true else .rdcmd true)))
      rw [hr] at hn ⊢
      exact ⟨⟨rfl, hn⟩, hnil, rfl, fun h => absurd hnil h⟩
    · exact hrest (cut_before_word rfl ho hne hl hx hq) (engineStep_rest _ _)
  · rw [eq_busWord_of_frame hw] at hq
    exact hrest (cut_before_response rfl ho hi hl hx hq) (engineStep_rest _ _)

/-- FLUSHRX has found the word w in RXQ, and without end it reads, w arrives again, and it tests (R127). -/
def FoundAgain (w : Word9) (u : State) : Prop :=
  u.engine = .busy (.flush (.avail true)) ∧ u.rxq = [w] ∧ u.turns = ⟨[], .again .engine [.env w, .engine]⟩

/-- Three turns on FLUSHRX has found the word that arrived since. -/
theorem foundAgain_returns {w : Word9} {u : State} (h : FoundAgain w u) :
    ∃ v, Sys2Proof.core.run 3 u = .next v ∧ FoundAgain w v := by
  obtain ⟨he, hq, ht⟩ := h
  have hread : step u = .next ({ u with
      engine := .busy (.flush .read), rxq := [], turns := ⟨[.env w, .engine], .again .engine [.env w, .engine]⟩ }) := by
    simp [step, engineTurn, ht, engineStep, he, flushStep, chanRead, hq, State.goto, State.withTurns]
  refine ⟨{ u with
    engine := .busy (.flush (.avail true)), rxq := [w], turns := ⟨[], .again .engine [.env w, .engine]⟩ }, ?_, ?_⟩
  swap
  · exact ⟨rfl, rfl, rfl⟩
  rw [run_succ hread]
  rfl

/-- Settles O37: after each arrival FLUSHRX is back where it has found a word. -/
theorem flushrxNeverEndsUnderArrivals : Obligations.FlushrxNeverEndsUnderArrivals := by
  unfold Obligations.FlushrxNeverEndsUnderArrivals
  intro w s hi hq ht
  have hfound : FoundAgain w ((flushTest s).withTurns ⟨[], .again .engine [.env w, .engine]⟩) :=
    ⟨by simp [flushTest, chanAvailable, hq], hq, rfl⟩
  have hturns : s.turns.next = some (.engine, ⟨[], .again .engine [.env w, .engine]⟩) := by
    simp [ht, endlessArrivals, repeatedAfterOneStep]
  refine ⟨_, ?_, neverEnds_of_returns (P := FoundAgain w) (fun u hu => ?_) (fun u hu => ?_) ?_ hfound⟩
  · have hexec : exec .flushrx s = operate Config.params .flushrx s := rfl
    rw [hexec, operate_engine (isIdle_iff.mp hi) hturns]
    rfl
  · simp [State.isIdle, hu.1]
  · obtain ⟨v, hr, hv⟩ := foundAgain_returns hu
    exact ⟨3, v, by omega, hr, hv⟩
  · simp [HostIsSilent]

/-- Settles O51: every engine step but a ChanAvailable commutes with an arrival. -/
theorem arrivalsCommuteWithEngineSteps : Obligations.ArrivalsCommuteWithEngineSteps := by
  unfold Obligations.ArrivalsCommuteWithEngineSteps
  intro p s t w hn h
  exact engineStep_envAppend hn h

/-- Settles O52: after the answers to a poll WAITRDY is at its next poll, with one more frame in TXS. -/
theorem waitrdyNeverEndsOnABusyDevice : Obligations.WaitrdyNeverEndsOnABusyDevice := by
  unfold Obligations.WaitrdyNeverEndsOnABusyDevice
  intro o s xs hi ho hlen hbusy hq ht
  have hne : pollTurns xs ≠ [] := by simp [pollTurns, List.ne_nil_of_length_eq_add_one hlen]
  have hhost : ∀ t ∈ pollTurns xs, ∀ r, t ≠ .host r := by
    intro t hmem r
    simp only [pollTurns, arrivals, List.mem_append, List.mem_map, List.mem_replicate] at hmem
    rcases hmem with ⟨w, -, rfl⟩ | ⟨-, rfl⟩ <;> simp
  obtain ⟨l, hsched, hl, hsilent⟩ := repeatedAfterOneStep_again hne hhost
  have hfirst : AtPoll o l s.txs ((startPoll Config.params o (setResp 0 s)).withTurns ⟨[], l⟩) :=
    ⟨(setResp 0 s).withTurns ⟨[], l⟩, rfl, hq, rfl, rfl⟩
  refine ⟨_, ?_, neverEnds_of_returns (P := fun u => ∃ ws, AtPoll o l ws u) (fun u ⟨ws, hu⟩ => atPoll_isIdle hu)
    (fun u ⟨ws, hu⟩ => ?_) hsilent ⟨_, hfirst⟩, fun m => ?_⟩
  · have hexec : exec (.waitrdy o) s = operate Config.params (.waitrdy o) s := rfl
    have hnext : s.turns.next = some (.engine, ⟨[], l⟩) := by
      rw [ht, show endlessAnswers xs = ⟨[.engine], l⟩ from hsched, next_listed]
    rw [hexec, operate_engine (isIdle_iff.mp hi) hnext, settle_startWaitrdy ho]
  · obtain ⟨k, v, hk, hr, hv⟩ := atPoll_returns hlen hbusy hl hu
    exact ⟨k, v, hk, hr, _, hv⟩
  · obtain ⟨n, v, hr, hv⟩ := atPoll_run hlen hbusy hl hfirst m
    exact ⟨n, v, hr, atPoll_txs hv⟩

/-- Settles O8: engine turns are steps of `settle`, and `stepBound` of them bring the operation to rest. -/
theorem stepContinuesTheOperation : Obligations.StepContinuesTheOperation := by
  unfold Obligations.StepContinuesTheOperation
  intro s
  refine ⟨fun ts hn => ⟨fun t ht => ?_, fun ht => ?_⟩, fun hn => ?_⟩
  · have ht' : engineStep Config.params (s.withTurns ts) = some t := ht
    simp [step, hn, engineTurn, ht']
  · have ht' : engineStep Config.params (s.withTurns ts) = none := ht
    simp only [step, hn, engineTurn, ht', Option.getD_none]
    rfl
  · refine ⟨rest Config.params s, stepBound s, ?_, run_engineTurns_rest hn (stepsLeft_le_stepBound s), ?_⟩
    · simp only [step, hn, engineTurn_alone hn]
    · exact (rest_ends_or_holds _ s).imp_right And.left

/-- Settles O9: the environment's turn is `envAppend` with the turn taken. -/
theorem environmentAppendsToQueue : Obligations.EnvironmentAppendsToQueue := by
  unfold Obligations.EnvironmentAppendsToQueue
  intro s w ts hn
  simp only [step, hn]
  rfl

/-- Settles O10: a state without an engine step is at rest, and a hold has RXQ empty, which an arrival ends. -/
theorem holdTakesNoStep : Obligations.HoldTakesNoStep := by
  unfold Obligations.HoldTakesNoStep
  intro s
  refine ⟨fun hn h => ?_, fun ts hn h => ?_, fun w h => ?_⟩
  · have hnone : engineStep Config.params s = none := h.elim (fun hi => engineStep_idle (isIdle_iff.mp hi)) And.right
    simp only [step, hn, engineTurn_alone hn, rest_of_none hnone]
  · simp only [step, hn, engineTurn_engine hn, settle_of_none h.2]
    rfl
  · obtain ⟨hbusy, -⟩ := h
    rcases he : s.engine with _ | a
    · simp [State.isIdle, he] at hbusy
    · rw [← Option.ne_none_iff_exists']
      intro hnone
      have hempty : s.rxq ++ [w] = [] := rxq_nil_of_hold (s := envAppend w s) he hnone
      simp at hempty

/-- Settles O42: A2P's one step looks the character up in the table of its layout, and off the punctuation characters
the two tables agree (R7 (c)). -/
theorem layoutMattersOnlyAtPunctuation : Obligations.LayoutMattersOnlyAtPunctuation := by
  unfold Obligations.LayoutMattersOnlyAtPunctuation
  intro c s ha hc
  have hrun : ∀ k, exec (.a2p c) { s with kbd := k } = .next (asciiToPos Config.params c { s with kbd := k }) := by
    intro k
    have hk : Alone { s with kbd := k } := ha
    have hexec : exec (.a2p c) { s with kbd := k } = operate Config.params (.a2p c) { s with kbd := k } := rfl
    rw [hexec, operate_of_alone hk, rest_step rfl, rest_of_idle rfl]
    rfl
  have hsame : Config.params.rom.fwdUs c = Config.params.rom.fwdAscii c := by
    by_contra hne
    rw [Config.params.romPunctuation c hne] at hc
    cases hc
  exact ⟨_, _, hrun .us, hrun .ascii, hsame, rfl, rfl⟩

end Sys2Proof.Machine
end

section
/-! SUPPORT. The moves one engine step can make, by the point an operation has reached, with their guards, and
what each of them writes. What an engine step keeps or leaves is read off these moves. -/

namespace Sys2Proof.Machine

open Sys2Proof.Safety

variable {p : Params} {s t : State}

/-! ### The moves of the engine -/

/-- A move of a transmission (R100 to R103): a ChanRead, the abort, the next word, the end, or the next poll. -/
inductive TxMove (p : Params) (x : TxCtx) (f : TxFrame) (s : State) : State → Prop where
  | read (w : Word9) (q : List Word9) (ph : TxPhase) (hq : s.rxq = w :: q) :
      TxMove p x f s (({ s with rxq := q } : State).goto (.tx x f ph))
  | mismatch (r : Word9) (hc : ackChecked x f = true) (hr : r ≠ 0) :
      TxMove p x f s (raise .ackMismatch (fieldCode f.k) (setResp r s))
  | nextWord (r : Word9) (hk : f.k + 1 < f.txn) : TxMove p x f s (sendWord x { f with k := f.k + 1 } (setResp r s))
  | done (r : Word9) : TxMove p x f s (finish (setResp r s))
  | nextPoll (r : Word9) (o : Byte) (hx : x = .poll o) : TxMove p x f s (startPoll p o (setResp r s))

/-- A move of a reception (R120 to R123): the read of the first word, the end with nothing pending, the framing error,
the read of a response word, the read of the next word, or the end of the frame. -/
inductive RxMove (p : Params) (key : Bool) (buf : RxFrame) (k : Nat) (ph : RxPhase) (s : State) : State → Prop where
  | firstWord (w : Word9) (q : List Word9) (hph : ph = .avail true) (hq : s.rxq = w :: q) :
      RxMove p key buf k ph s (gotWord key (buf.set 0 w) 0 (markPresent s) q)
  | nothing (hph : ph = .avail false) : RxMove p key buf k ph s (nothingPending key s)
  | failed (hph : ph = .got) (hbad : wordOk p k (buf.word k) = false) :
      RxMove p key buf k ph s (raise .framingError (fieldCode k) s)
  | skip (w : Word9) (q : List Word9) (hph : ph = .got) (hok : wordOk p k (buf.word k) = true)
      (hi : p.rxAckInterleaved = true) (hq : s.rxq = w :: q) :
      RxMove p key buf k ph s (({ s with rxq := q } : State).goto (.rx key buf k .skipped))
  | nextWord (w : Word9) (q : List Word9) (hph : ph = .got ∧ wordOk p k (buf.word k) = true ∨ ph = .skipped)
      (hk : k = 0 ∨ k < buf.len) (hq : s.rxq = w :: q) :
      RxMove p key buf k ph s (gotWord key (buf.set (k + 1) w) (k + 1) s q)
  | done (hlast : ¬ (k = 0 ∨ k < buf.len)) : RxMove p key buf k ph s (frameReceived p key buf s)

/-- A move of FLUSHRX once it has tested (R127). -/
inductive FlushMove (s : State) : State → Prop where
  | read (w : Word9) (q : List Word9) (hq : s.rxq = w :: q) :
      FlushMove s (({ s with rxq := q } : State).goto (.flush .read))
  | done : FlushMove s (finish s)
  | test : FlushMove s (flushTest s)

/-- The first move of RDCMD and RDKEY (R120, R123): the read of the first word, or ChanAvailable. -/
inductive ReceiveStart (key : Bool) (s : State) : State → Prop where
  | word (w : Word9) (q : List Word9) (hq : s.rxq = w :: q) :
      ReceiveStart key s (gotWord key (RxFrame.empty.set 0 w) 0 (markPresent (clearReceived (clearKey key s))) q)
  | test (b : Bool) : ReceiveStart key s ((clearReceived (clearKey key s)).goto (.rx key .empty 0 (.avail b)))

/-- The first move of an operation. -/
inductive StartMove (p : Params) (s : State) : Job → State → Prop where
  | send (a : BusAddr) (o d1 d2 : Byte) (ign : Bool) (ho : validOpcode o = true) :
      StartMove p s (.send a o d1 d2 ign) (startFrame (.send ign) a o d1 d2 (setResp 0 s))
  | sendRejected (a : BusAddr) (o d1 d2 : Byte) (ign : Bool) (ho : ¬ validOpcode o = true) :
      StartMove p s (.send a o d1 d2 ign) (raise .invalidOpcode .fOpc (setResp 0 s))
  | waitrdy (o : Byte) (ho : validOpcode o = true) : StartMove p s (.waitrdy o) (startPoll p o (setResp 0 s))
  | waitrdyRejected (o : Byte) (ho : ¬ validOpcode o = true) :
      StartMove p s (.waitrdy o) (raise .invalidOpcode .fOpc (setResp 0 s))
  | rdcmd (blk : Bool) {t : State} (h : ReceiveStart false s t) : StartMove p s (.rdcmd blk) t
  | rdkey (blk : Bool) {t : State} (h : ReceiveStart true s t) : StartMove p s (.rdkey blk) t
  | flushrx : StartMove p s .flushrx (flushTest s)
  | setkbd (l : Bool) : StartMove p s (.setkbd l) (setKbd l s)
  | a2p (c : Byte) : StartMove p s (.a2p c) (asciiToPos p c s)
  | p2a (pos : Byte) : StartMove p s (.p2a pos) (posToAscii p pos s)

/-- A move of the engine from the given point. -/
inductive EngineMove (p : Params) (s : State) : Activity → State → Prop where
  | start {j : Job} {t : State} (h : StartMove p s j t) : EngineMove p s (.start j) t
  | tx {x : TxCtx} {f : TxFrame} {ph : TxPhase} {t : State} (h : TxMove p x f s t) : EngineMove p s (.tx x f ph) t
  | rx {key : Bool} {buf : RxFrame} {k : Nat} {ph : RxPhase} {t : State} (h : RxMove p key buf k ph s t) :
      EngineMove p s (.rx key buf k ph) t
  | flush {ph : FlushPhase} {t : State} (h : FlushMove s t) : EngineMove p s (.flush ph) t

/-- A ChanRead that goes on takes the head of RXQ, whatever point it goes on to (R10). -/
theorem chanRead_goto_word {g : Word9 → Activity} (h : (chanRead s).map (fun e => e.2.goto (g e.1)) = some t) :
    ∃ w q, s.rxq = w :: q ∧ t = ({ s with rxq := q } : State).goto (g w) := by
  obtain ⟨e, he, rfl⟩ := Option.map_eq_some_iff.mp h
  obtain ⟨q, hq, hs⟩ := chanRead_eq_some he
  exact ⟨e.1, q, hq, by rw [hs]⟩

theorem afterResponse_move (p : Params) (x : TxCtx) (f : TxFrame) (r : Word9) (s : State) :
    TxMove p x f s (afterResponse p x f r s) := by
  unfold afterResponse
  split
  · next hc =>
    rw [Bool.and_eq_true, bne_iff_ne] at hc
    exact .mismatch r hc.1 hc.2
  · split
    · next hk => exact .nextWord r hk
    · cases x with
      | send ign => exact .done r
      | poll o =>
        simp only [frameSent]
        split
        · exact .done r
        · exact .nextPoll r o rfl

theorem txStep_move {x : TxCtx} {f : TxFrame} {ph : TxPhase} (h : txStep p x f ph s = some t) : TxMove p x f s t := by
  cases ph
  case echo =>
    obtain ⟨w, q, hq, rfl⟩ := chanRead_goto_word (g := fun _ => .tx x f .resp) h
    exact .read w q _ hq
  case resp =>
    obtain ⟨w, q, hq, rfl⟩ := chanRead_goto_word (g := fun w => .tx x f (.got w)) h
    exact .read w q _ hq
  case got r =>
    cases h
    exact afterResponse_move p x f r s

theorem nextWord_move {key : Bool} {buf : RxFrame} {k : Nat} {ph : RxPhase}
    (hph : ph = .got ∧ wordOk p k (buf.word k) = true ∨ ph = .skipped) (h : nextWord p key buf k s = some t) :
    RxMove p key buf k ph s t := by
  unfold nextWord at h
  split at h
  · next hk =>
    obtain ⟨w, q, hq, rfl⟩ := readWord_eq_some h
    exact .nextWord w q hph hk hq
  · next hlast =>
    cases h
    exact .done hlast

theorem rxStep_move {key : Bool} {buf : RxFrame} {k : Nat} {ph : RxPhase} (h : rxStep p key buf k ph s = some t) :
    RxMove p key buf k ph s t := by
  unfold rxStep at h
  split at h
  · obtain ⟨w, q, hq, rfl⟩ := readWord_eq_some h
    exact .firstWord w q rfl hq
  · cases h
    exact .nothing rfl
  · split at h
    · next hok =>
      split at h
      · next hi =>
        obtain ⟨w, q, hq, rfl⟩ := chanRead_goto h
        exact .skip w q rfl hok hi hq
      · exact nextWord_move (.inl ⟨rfl, hok⟩) h
    · next hbad =>
      cases h
      exact .failed rfl (Bool.eq_false_of_not_eq_true hbad)
  · exact nextWord_move (.inr rfl) h

theorem flushStep_move {ph : FlushPhase} (h : flushStep ph s = some t) : FlushMove s t := by
  unfold flushStep at h
  split at h
  · obtain ⟨w, q, hq, rfl⟩ := chanRead_goto h
    exact .read w q hq
  · cases h
    exact .done
  · cases h
    exact .test

theorem beginReceive_move {key blk : Bool} (h : beginReceive key blk s = some t) : ReceiveStart key s t := by
  cases blk
  case true =>
    obtain ⟨w, q, hq, rfl⟩ := readWord_eq_some (s := markPresent (clearReceived (clearKey key s))) h
    exact .word w q (by cases key <;> exact hq)
  case false =>
    cases h
    exact .test _

theorem beginJob_move {j : Job} (h : beginJob p j s = some t) : StartMove p s j t := by
  cases j
  case send a o d1 d2 ign =>
    cases h
    unfold beginSend
    split
    · next ho => exact .send a o d1 d2 ign ho
    · next ho => exact .sendRejected a o d1 d2 ign ho
  case waitrdy o =>
    cases h
    unfold beginWaitrdy
    split
    · next ho => exact .waitrdy o ho
    · next ho => exact .waitrdyRejected o ho
  case rdcmd blk => exact .rdcmd blk (beginReceive_move h)
  case rdkey blk => exact .rdkey blk (beginReceive_move h)
  case flushrx => cases h; exact .flushrx
  case setkbd l => cases h; exact .setkbd l
  case a2p c => cases h; exact .a2p c
  case p2a pos => cases h; exact .p2a pos

/-- Every engine step is a move from the point an operation in progress has reached (R13). -/
theorem engineStep_move (h : engineStep p s = some t) : ∃ a, s.engine = .busy a ∧ EngineMove p s a t := by
  unfold engineStep at h
  split at h
  · cases h
  · next hs => exact ⟨_, hs, .start (beginJob_move h)⟩
  · next hs => exact ⟨_, hs, .tx (txStep_move h)⟩
  · next hs => exact ⟨_, hs, .rx (rxStep_move h)⟩
  · next hs => exact ⟨_, hs, .flush (flushStep_move h)⟩

/-- The same, at a given point. -/
theorem engineStep_move_at {a : Activity} (hs : s.engine = .busy a) (h : engineStep p s = some t) :
    EngineMove p s a t := by
  obtain ⟨b, hb, hm⟩ := engineStep_move h
  obtain rfl : a = b := Engine.busy.inj (hs.symm.trans hb)
  exact hm

/-- The moves of one machine step (R14): the engine's share, a request of the host to an IDLE engine, an arrival, or a
reset. -/
inductive StepMove (s : State) : State → Prop where
  | engine : StepMove s (engineTurn Config.params s)
  | host (r : Req) (ts : Schedule) (j : Job) (hn : s.turns.next = some (.host r, ts)) (hi : s.engine = .idle) :
      StepMove s (engineTurn Config.params ((writeReq r (s.withTurns ts)).goto (.start j)))
  | env (w : Word9) (ts : Schedule) (hn : s.turns.next = some (.env w, ts)) : StepMove s (envAppend w (s.withTurns ts))
  | reset (ts : Schedule) (hn : s.turns.next = some (.reset, ts)) : StepMove s (applyReset (s.withTurns ts))

/-- Every machine step that answers a state is one of these moves. -/
theorem step_move (h : step s = .next t) : StepMove s t := by
  unfold step at h
  split at h
  · next r ts hn =>
    obtain ⟨j, hj⟩ := exec_eq_operate_of_next h
    obtain ⟨hi, rfl⟩ := operate_eq_next ((hj _).symm.trans h)
    exact .host r ts j hn hi
  · next w ts hn =>
    cases h
    exact .env w ts hn
  · next ts hn =>
    cases h
    exact .reset ts hn
  · cases h
    exact .engine
  · cases h
    exact .engine

/-! ### What a move writes (R33) -/

theorem TxMove.writes {x : TxCtx} {f : TxFrame} (h : TxMove p x f s t) :
    t = { s with
      engine := t.engine, rErr := t.rErr, rField := t.rField, rResp := t.rResp, rxq := t.rxq, txs := t.txs } := by
  cases h <;> rfl

theorem RxMove.writes {key : Bool} {buf : RxFrame} {k : Nat} {ph : RxPhase} (h : RxMove p key buf k ph s t) :
    t = { s with
      engine := t.engine, rErr := t.rErr, rField := t.rField, rPresent := t.rPresent, rOpc := t.rOpc, rD1 := t.rD1,
      rD2 := t.rD2, rLen := t.rLen, rxq := t.rxq, rClass := t.rClass, rAscii := t.rAscii } := by
  cases key <;> cases h <;> rfl

theorem RxMove.rdcmd_keeps_keypress {buf : RxFrame} {k : Nat} {ph : RxPhase} (h : RxMove p false buf k ph s t) :
    t.rClass = s.rClass ∧ t.rAscii = s.rAscii := by
  cases h <;> exact ⟨rfl, rfl⟩

theorem FlushMove.writes (h : FlushMove s t) :
    t = { s with engine := t.engine, rErr := t.rErr, rField := t.rField, rxq := t.rxq } := by
  cases h <;> rfl

theorem ReceiveStart.rdcmd_writes (h : ReceiveStart false s t) :
    t = { s with
      engine := t.engine, rPresent := t.rPresent, rOpc := t.rOpc, rD1 := t.rD1, rD2 := t.rD2, rLen := t.rLen,
      rxq := t.rxq } := by
  cases h <;> rfl

theorem ReceiveStart.rdkey_writes (h : ReceiveStart true s t) :
    t = { s with
      engine := t.engine, rPresent := t.rPresent, rOpc := t.rOpc, rD1 := t.rD1, rD2 := t.rD2, rLen := t.rLen,
      rxq := t.rxq, rClass := t.rClass, rAscii := t.rAscii } := by
  cases h <;> rfl

end Sys2Proof.Machine
end

section
/-! SUPPORT. What every move of the engine keeps of the invariant `Inv`, part by part. -/

namespace Sys2Proof.Machine

open Sys2Proof.Safety

variable {p : Params} {s t : State}

/-! ### The point the engine has reached -/

theorem fieldCode_ne_fNone (k : Nat) : fieldCode k ≠ .fNone := by
  unfold fieldCode
  split <;> simp

/-- The frame a SEND loads is a frame in transmission (R100). -/
theorem txOk_loadFrame_send {a : BusAddr} {o d1 d2 : Byte} {ign : Bool} (ho : validOpcode o = true) :
    TxOk p (.send ign) (loadFrame a o d1 d2) :=
  ⟨Nat.succ_pos _, a, o, d1, d2, ho, rfl, trivial⟩

/-- The frame a poll loads is a frame in transmission (R101). -/
theorem txOk_loadFrame_poll {o : Byte} (ho : validOpcode o = true) :
    TxOk p (.poll o) (loadFrame p.busAddress o 0 0) :=
  ⟨Nat.succ_pos _, p.busAddress, o, 0, 0, ho, rfl, rfl, rfl, rfl, rfl⟩

theorem txOk_succ {x : TxCtx} {f : TxFrame} (h : TxOk p x f) (hk : f.k + 1 < f.txn) :
    TxOk p x { f with k := f.k + 1 } := by
  obtain ⟨-, a, o, d1, d2, ho, hf, hx⟩ := h
  exact ⟨hk, a, o, d1, d2, ho, congrArg (fun g : TxFrame => { g with k := f.k + 1 }) hf, hx⟩

/-- A poll in transmission is one of a valid opcode (R101). -/
theorem validOpcode_of_txOk_poll {o : Byte} {f : TxFrame} (h : TxOk p (.poll o) f) : validOpcode o = true := by
  obtain ⟨-, -, o', -, -, ho, -, -, rfl, -, -⟩ := h
  exact ho

theorem TxMove.engineOk {x : TxCtx} {f : TxFrame} (h : TxMove p x f s t) (hf : TxOk p x f) : EngineOk p t := by
  cases h with
  | read => exact hf
  | mismatch r _ hr => exact ⟨fieldCode_ne_fNone f.k, hr⟩
  | nextWord r hk => exact txOk_succ hf hk
  | done => exact rfl
  | nextPoll r o hx =>
    subst hx
    exact txOk_loadFrame_poll (validOpcode_of_txOk_poll hf)

theorem RxFrame.len_le (buf : RxFrame) : buf.len ≤ 3 := frameLen_le _

/-- LEN is that of the opcode word, which a later word leaves (R120). -/
theorem len_set {buf : RxFrame} {k : Nat} (w : Word9) (hk : 2 ≤ k) : (buf.set k w).len = buf.len := by
  obtain ⟨m, rfl⟩ := Nat.exists_eq_add_of_le' hk
  rcases m with _ | _ <;> rfl

theorem ReceiveStart.engineOk {key : Bool} (h : ReceiveStart key s t) : EngineOk p t := by
  have hkey : key = true → (clearReceived (clearKey key s)).rClass = .noKeypress ∧
      (clearReceived (clearKey key s)).rAscii = 0 := by
    rintro rfl
    exact ⟨rfl, rfl⟩
  have hwords : ∀ buf : RxFrame, ∀ i < 0, wordOk p i (buf.word i) = true := fun _ i hi => absurd hi (Nat.not_lt_zero i)
  cases h with
  | word => exact ⟨rfl, rfl, rfl, rfl, hkey, hwords _, Nat.zero_le 3, fun _ => Nat.zero_le _, rfl⟩
  | test => exact ⟨rfl, rfl, rfl, rfl, hkey, hwords _, Nat.zero_le 3, fun _ => Nat.zero_le _, rfl, rfl⟩

/-- The checks of the words before the next word, and the bounds of its index (R120, R121). -/
theorem wordsOk_set {buf : RxFrame} {k : Nat} (w : Word9) (hwords : ∀ i < k, wordOk p i (buf.word i) = true)
    (hok : wordOk p k (buf.word k) = true) (hmore : k = 0 ∨ k < buf.len) :
    (∀ i < k + 1, wordOk p i ((buf.set (k + 1) w).word i) = true) ∧ k + 1 ≤ 3 ∧
      (2 ≤ k + 1 → k + 1 ≤ (buf.set (k + 1) w).len) := by
  have hlen := buf.len_le
  have hk : k + 1 ≤ 3 := by omega
  refine ⟨fun i hi => ?_, hk, fun h2 => ?_⟩
  · rw [word_set_of_lt w hk hi]
    rcases Nat.lt_succ_iff_lt_or_eq.mp hi with hlt | rfl
    · exact hwords i hlt
    · exact hok
  · rw [len_set w h2]
    omega

theorem RxMove.engineOk {key : Bool} {buf : RxFrame} {k : Nat} {ph : RxPhase} (h : RxMove p key buf k ph s t)
    (hr : RxOk p key buf k ph s) : EngineOk p t := by
  obtain ⟨hopc, hd1, hd2, hlen, hkey, hwords, hk, hklen, hph⟩ := hr
  cases h with
  | firstWord w q hav _ =>
    subst hav
    obtain ⟨-, rfl⟩ := hph
    exact ⟨hopc, hd1, hd2, hlen, hkey, fun i hi => absurd hi (Nat.not_lt_zero i), hk, fun _ => Nat.zero_le _, rfl⟩
  | nothing => exact rfl
  | failed hgot _ =>
    subst hgot
    exact ⟨fieldCode_ne_fNone k, hph, hopc, hd1, hd2, hlen⟩
  | skip w q hgot hok hi _ =>
    subst hgot
    exact ⟨hopc, hd1, hd2, hlen, hkey, hwords, hk, hklen, hph, hi, hok⟩
  | nextWord w q haccepted hmore _ =>
    have hpassed : s.rPresent = true ∧ wordOk p k (buf.word k) = true := by
      rcases haccepted with ⟨rfl, hok⟩ | rfl
      · exact ⟨hph, hok⟩
      · exact ⟨hph.1, hph.2.2⟩
    obtain ⟨hwords', hk', hklen'⟩ := wordsOk_set w hwords hpassed.2 hmore
    exact ⟨hopc, hd1, hd2, hlen, hkey, hwords', hk', hklen', hpassed.1⟩
  | done => exact rfl

theorem StartMove.engineOk {j : Job} (h : StartMove p s j t) : EngineOk p t := by
  cases h with
  | send a o d1 d2 ign ho => exact txOk_loadFrame_send (ign := ign) (p := p) ho
  | sendRejected => exact ⟨rfl, rfl⟩
  | waitrdy o ho => exact txOk_loadFrame_poll ho
  | waitrdyRejected => exact ⟨rfl, rfl⟩
  | rdcmd blk h => exact h.engineOk
  | rdkey blk h => exact h.engineOk
  | flushrx => exact trivial
  | setkbd => exact rfl
  | a2p => exact rfl
  | p2a => exact rfl

theorem FlushMove.engineOk (h : FlushMove s t) : EngineOk p t := by
  cases h with
  | read => exact trivial
  | done => exact rfl
  | test => exact trivial

/-- An engine step reaches a point that fits the internal state (R32). -/
theorem engineStep_keeps_engineOk (h : engineStep p s = some t) (hs : EngineOk p s) : EngineOk p t := by
  obtain ⟨a, ha, hm⟩ := engineStep_move h
  unfold EngineOk at hs
  rw [ha] at hs
  cases hm with
  | start hm => exact hm.engineOk
  | tx hm => exact hm.engineOk hs
  | rx hm => exact hm.engineOk hs
  | flush hm => exact hm.engineOk

/-! ### The words sent -/

/-- Every word of a frame is one the engine may send (R61, R62, R65). -/
theorem sentWordOk_loadFrame (a : BusAddr) (o d1 d2 : Byte) (k : Nat) : SentWordOk ((loadFrame a o d1 d2).word k) := by
  have haddr : SentWordOk (addrWord a) := fun _ => addrWord_bit7 a
  have hplain : ∀ {w : Word9}, w.marker = false → SentWordOk w := fun hw h => by rw [hw] at h; cases h
  rcases k with _ | _ | _ | _
  · exact haddr
  · exact hplain (opcWord_marker o)
  · exact hplain (dataWord_marker d1)
  · exact hplain (dataWord_marker d2)

theorem sentWordOk_of_txOk {x : TxCtx} {f : TxFrame} (h : TxOk p x f) (k : Nat) : SentWordOk (f.word k) := by
  obtain ⟨-, a, o, d1, d2, -, hf, -⟩ := h
  have hword : f.word k = (loadFrame a o d1 d2).word k := by rw [hf]; rfl
  rw [hword]
  exact sentWordOk_loadFrame a o d1 d2 k

/-- Every word of TXS is one the engine may send. -/
def TxsOk (s : State) : Prop := ∀ w ∈ s.txs, SentWordOk w

theorem txsOk_of_sent {w : Word9} (hs : TxsOk s) (hw : SentWordOk w) (ht : t.txs = s.txs ++ [w]) : TxsOk t := by
  intro v hv
  rw [ht] at hv
  rcases List.mem_append.mp hv with h | h
  · exact hs v h
  · rw [List.mem_singleton.mp h]
    exact hw

theorem txsOk_of_kept (hs : TxsOk s) (ht : t.txs = s.txs) : TxsOk t := fun w hw => hs w (ht ▸ hw)

theorem TxMove.txsOk {x : TxCtx} {f : TxFrame} (h : TxMove p x f s t) (hf : TxOk p x f) (hs : TxsOk s) : TxsOk t := by
  cases h with
  | read => exact hs
  | mismatch => exact hs
  | nextWord => exact txsOk_of_sent hs (sentWordOk_of_txOk hf _) rfl
  | done => exact hs
  | nextPoll => exact txsOk_of_sent hs (sentWordOk_loadFrame _ _ _ _ 0) rfl

theorem StartMove.txsOk {j : Job} (h : StartMove p s j t) (hs : TxsOk s) : TxsOk t := by
  cases h with
  | send => exact txsOk_of_sent hs (sentWordOk_loadFrame _ _ _ _ 0) rfl
  | waitrdy => exact txsOk_of_sent hs (sentWordOk_loadFrame _ _ _ _ 0) rfl
  | rdcmd blk h => exact txsOk_of_kept hs (by rw [h.rdcmd_writes])
  | rdkey blk h => exact txsOk_of_kept hs (by rw [h.rdkey_writes])
  | sendRejected | waitrdyRejected | flushrx | setkbd | a2p | p2a => exact hs

/-- An engine step sends only words that are in order (R61, R62, R65). -/
theorem engineStep_keeps_txsOk (h : engineStep p s = some t) (he : EngineOk p s) (hs : TxsOk s) : TxsOk t := by
  obtain ⟨a, ha, hm⟩ := engineStep_move h
  unfold EngineOk at he
  rw [ha] at he
  cases hm with
  | start hm => exact hm.txsOk hs
  | tx hm => exact hm.txsOk he hs
  | rx hm => exact txsOk_of_kept hs (by rw [hm.writes])
  | flush hm => exact txsOk_of_kept hs (by rw [hm.writes])

/-! ### R_POS -/

theorem fwdLookup_le (p : Params) (k : Layout) (c : Byte) : fwdLookup p.rom k c ≤ 0x60 := by
  cases k
  · exact (p.romInRange c).1
  · exact (p.romInRange c).2

theorem StartMove.posOk {j : Job} (h : StartMove p s j t) (hs : s.rPos ≤ 0x60) : t.rPos ≤ 0x60 := by
  cases h with
  | a2p c => exact fwdLookup_le p s.kbd c
  | rdcmd blk h => rw [h.rdcmd_writes]; exact hs
  | rdkey blk h => rw [h.rdkey_writes]; exact hs
  | send | sendRejected | waitrdy | waitrdyRejected | flushrx | setkbd | p2a => exact hs

/-- An engine step leaves R_POS in the range of R7 (a): A2P alone writes it, from the ROM. -/
theorem engineStep_keeps_posOk (h : engineStep p s = some t) (hs : s.rPos ≤ 0x60) : t.rPos ≤ 0x60 := by
  obtain ⟨a, -, hm⟩ := engineStep_move h
  cases hm with
  | start hm => exact hm.posOk hs
  | tx hm => rw [hm.writes]; exact hs
  | rx hm => rw [hm.writes]; exact hs
  | flush hm => rw [hm.writes]; exact hs

/-! ### The invariant -/

theorem engineStep_keeps_inv (h : engineStep Config.params s = some t) (hs : Inv s) : Inv t :=
  ⟨engineStep_keeps_engineOk h hs.engineOk, engineStep_keeps_posOk h hs.posOk,
    engineStep_keeps_txsOk h hs.engineOk hs.txsOk⟩

theorem engineTurn_keeps_inv (hs : Inv s) : Inv (engineTurn Config.params s) :=
  engineTurn_induction (fun _ _ h hu => engineStep_keeps_inv h hu) (fun _ _ hu => ⟨hu.engineOk, hu.posOk, hu.txsOk⟩) hs

end Sys2Proof.Machine
end

section
/-! SUPPORT. Which operation an engine is at, what that operation may write (R33), and so what an instruction leaves
under any turns; and runs of the engine with another layout in KBD (R21). -/

namespace Sys2Proof.Machine

open Sys2Proof.Safety

variable {p : Params} {s t u : State}

/-! ### The channel -/

/-- TXS has only grown and RXQ was only consumed from its head (R30, R31). -/
def ChannelsAdvance (s t : State) : Prop := (∃ sent, t.txs = s.txs ++ sent) ∧ ∃ taken, s.rxq = taken ++ t.rxq

theorem channelsAdvance_of_eq (htx : t.txs = s.txs) (hrx : t.rxq = s.rxq) : ChannelsAdvance s t :=
  ⟨⟨[], by rw [htx, List.append_nil]⟩, [], by rw [hrx, List.nil_append]⟩

theorem ChannelsAdvance.trans (h : ChannelsAdvance s t) (h' : ChannelsAdvance t u) : ChannelsAdvance s u := by
  obtain ⟨⟨sent, htx⟩, taken, hrx⟩ := h
  obtain ⟨⟨sent', htx'⟩, taken', hrx'⟩ := h'
  exact ⟨⟨sent ++ sent', by rw [htx', htx, List.append_assoc]⟩, taken ++ taken', by rw [hrx, hrx', List.append_assoc]⟩

theorem ChannelCall.advance (h : ChannelCall s t) : ChannelsAdvance s t := by
  cases h with
  | quiet htx hrx => exact channelsAdvance_of_eq htx hrx
  | write w htx hrx => exact ⟨⟨[w], htx⟩, [], hrx.symm⟩
  | read w htx hrx => exact ⟨⟨[], by rw [htx, List.append_nil]⟩, [w], hrx⟩

theorem engineTurn_channelsAdvance (p : Params) (s : State) : ChannelsAdvance s (engineTurn p s) :=
  engineTurn_induction (P := ChannelsAdvance s) (fun _ _ h hu => hu.trans (engineStep_call h).1.advance)
    (fun _ _ hu => hu) (channelsAdvance_of_eq rfl rfl)

/-! ### Operations and what they may write -/

/-- The operations, as far as what they write goes. -/
inductive OpKind where
  | transmit
  | rdcmd
  | rdkey
  | flushrx
  | setkbd
  | a2p
  | p2a

/-- The operation a request starts. -/
def Job.kind : Job → OpKind
  | .send _ _ _ _ _ | .waitrdy _ => .transmit
  | .rdcmd _ => .rdcmd
  | .rdkey _ => .rdkey
  | .flushrx => .flushrx
  | .setkbd _ => .setkbd
  | .a2p _ => .a2p
  | .p2a _ => .p2a

/-- The operation that has reached a point. -/
def Activity.kind : Activity → OpKind
  | .start j => j.kind
  | .tx _ _ _ => .transmit
  | .rx true _ _ _ => .rdkey
  | .rx false _ _ _ => .rdcmd
  | .flush _ => .flushrx

/-- The state with all that an operation may write blanked (R33), the engine's point and the turns left among it. -/
def OpKind.blank (k : OpKind) (s : State) : State :=
  let b : State := { s with engine := .idle, rErr := .noError, rField := .fNone, turns := ⟨[], .quiet⟩ }
  match k with
  | .transmit => { b with rResp := 0, rxq := [], txs := [] }
  | .rdcmd => { b with rPresent := false, rOpc := 0, rD1 := 0, rD2 := 0, rLen := 0, rxq := [] }
  | .rdkey =>
    { b with
      rPresent := false, rOpc := 0, rD1 := 0, rD2 := 0, rLen := 0, rClass := .noCommand, rAscii := 0, rxq := [] }
  | .flushrx => { b with rxq := [] }
  | .setkbd => { b with kbd := .us }
  | .a2p => { b with rPos := 0 }
  | .p2a => { b with rAscii := 0 }

/-- An engine in progress is at an operation of this kind. -/
def AtKind (k : OpKind) (s : State) : Prop := ∀ a, s.engine = .busy a → a.kind = k

theorem atKind_goto {a : Activity} {k : OpKind} (h : a.kind = k) : AtKind k (s.goto a) := by
  rintro b hb
  obtain rfl : a = b := Engine.busy.inj hb
  exact h

theorem atKind_of_idle {k : OpKind} (h : s.engine = .idle) : AtKind k s := fun a ha => by
  rw [h] at ha
  cases ha

theorem StartMove.atKind {j : Job} (h : StartMove p s j t) : AtKind j.kind t := by
  cases h with
  | send | waitrdy | flushrx => exact atKind_goto rfl
  | sendRejected | waitrdyRejected | setkbd | a2p | p2a => exact atKind_of_idle rfl
  | rdcmd blk h | rdkey blk h => cases h <;> exact atKind_goto rfl

theorem TxMove.atKind {x : TxCtx} {f : TxFrame} (h : TxMove p x f s t) : AtKind .transmit t := by
  cases h with
  | read | nextWord | nextPoll => exact atKind_goto rfl
  | mismatch | done => exact atKind_of_idle rfl

theorem RxMove.atKind {key : Bool} {buf : RxFrame} {k : Nat} {ph : RxPhase} (h : RxMove p key buf k ph s t) :
    AtKind (Activity.kind (.rx key buf k ph)) t := by
  cases h with
  | firstWord | skip | nextWord => cases key <;> exact atKind_goto rfl
  | nothing | failed | done => exact atKind_of_idle rfl

theorem FlushMove.atKind (h : FlushMove s t) : AtKind .flushrx t := by
  cases h with
  | read | test => exact atKind_goto rfl
  | done => exact atKind_of_idle rfl

theorem EngineMove.atKind {a : Activity} (h : EngineMove p s a t) : AtKind a.kind t := by
  cases h with
  | start h => exact h.atKind
  | tx h => exact h.atKind
  | rx h => exact h.atKind
  | flush h => exact h.atKind

/-- An operation in progress stays the same operation, up to its end. -/
theorem engineStep_keeps_atKind {k : OpKind} (h : engineStep p s = some t) (hs : AtKind k s) : AtKind k t := by
  obtain ⟨a, ha, hm⟩ := engineStep_move h
  obtain rfl := hs a ha
  exact hm.atKind

theorem StartMove.blank {j : Job} (h : StartMove p s j t) : j.kind.blank t = j.kind.blank s := by
  cases h with
  | rdcmd blk h => rw [h.rdcmd_writes]; rfl
  | rdkey blk h => rw [h.rdkey_writes]; rfl
  | send | sendRejected | waitrdy | waitrdyRejected | flushrx | setkbd | a2p | p2a => rfl

theorem RxMove.blank {key : Bool} {buf : RxFrame} {k : Nat} {ph : RxPhase} (h : RxMove p key buf k ph s t) :
    (Activity.kind (.rx key buf k ph)).blank t = (Activity.kind (.rx key buf k ph)).blank s := by
  cases key with
  | true => rw [h.writes]; rfl
  | false =>
    obtain ⟨hclass, hascii⟩ := h.rdcmd_keeps_keypress
    rw [h.writes, hclass, hascii]; rfl

/-- What an operation may not write, each of its moves leaves (R33). -/
theorem EngineMove.blank {a : Activity} (h : EngineMove p s a t) : a.kind.blank t = a.kind.blank s := by
  cases h with
  | start h => exact h.blank
  | tx h => rw [h.writes]; rfl
  | rx h => exact h.blank
  | flush h => rw [h.writes]; rfl

/-- The engine's share of a step leaves what the operation in progress may not write. -/
theorem engineTurn_blank {k : OpKind} (hs : AtKind k s) : k.blank (engineTurn p s) = k.blank s := by
  have hkept : AtKind k (engineTurn p s) ∧ k.blank (engineTurn p s) = k.blank s := by
    refine engineTurn_induction (P := fun u => AtKind k u ∧ k.blank u = k.blank s) ?_ (fun u ts hu => ⟨hu.1, ?_⟩)
      ⟨hs, rfl⟩
    · rintro u v h ⟨hu, hb⟩
      obtain ⟨a, ha, hm⟩ := engineStep_move h
      obtain rfl := hu a ha
      exact ⟨engineStep_keeps_atKind h hu, hm.blank.trans hb⟩
    · rw [← hu.2]
      cases k <;> rfl
  exact hkept.2

/-- The host operation an instruction requests; none for the reserved HOP. -/
def operationOf : Instr → Option OpKind
  | .rdcmd _ => some .rdcmd
  | .rdkey _ => some .rdkey
  | .flushrx => some .flushrx
  | .setkbd _ => some .setkbd
  | .a2p _ => some .a2p
  | .p2a _ => some .p2a
  | .reservedHop _ => none
  | _ => some .transmit

theorem rejectOpcode_transmits (u : OpcUser) (o : Byte) :
    ∃ j : Job, j.kind = .transmit ∧ ∀ s, rejectOpcode u o s = operate Config.params j s := by
  cases u
  case send => exact ⟨.send 0 o 0 0 false, rfl, fun _ => rfl⟩
  case waitrdy => exact ⟨.waitrdy o, rfl, fun _ => rfl⟩

theorem exec_eq_operate_of_operationOf {i : Instr} {k : OpKind} (h : operationOf i = some k) :
    ∃ j : Job, j.kind = k ∧ ∀ s, exec i s = operate Config.params j s := by
  cases i
  case reservedHop hop => cases h
  case invalidOpc0f u => cases h; exact rejectOpcode_transmits u 0x0F
  case invalidOpc10_1f u o => cases h; exact rejectOpcode_transmits u o
  case invalidOpc20_3f u o => cases h; exact rejectOpcode_transmits u o
  case invalidOpc40_7f u o => cases h; exact rejectOpcode_transmits u o
  case invalidOpc80_ff u o => cases h; exact rejectOpcode_transmits u o
  all_goals
    cases h
    refine ⟨_, ?_, fun _ => rfl⟩
    rfl

theorem operationOf_of_transmits {i : Instr} (h : transmits i = true) : operationOf i = some .transmit := by
  cases i
  case rdcmd | rdkey | flushrx | setkbd | a2p | p2a | reservedHop => cases h
  all_goals rfl

theorem operationOf_of_not_reserved {i : Instr} (h : ∀ hop, i ≠ .reservedHop hop) : ∃ k, operationOf i = some k := by
  cases i
  case reservedHop hop => exact absurd rfl (h hop)
  all_goals exact ⟨_, rfl⟩

/-- Under any turns an instruction leaves what its operation may not write, and its channel calls are in order (R33). -/
theorem exec_leaves {i : Instr} {k : OpKind} (hi : operationOf i = some k) (h : exec i s = .next t) :
    k.blank t = k.blank s ∧ ChannelsAdvance s t := by
  obtain ⟨j, rfl, hj⟩ := exec_eq_operate_of_operationOf hi
  obtain ⟨-, rfl⟩ := operate_eq_next ((hj s).symm.trans h)
  have hstart : j.kind.blank (s.goto (.start j)) = j.kind.blank s := by cases j <;> rfl
  exact ⟨(engineTurn_blank (k := j.kind) (atKind_goto rfl)).trans hstart,
    engineTurn_channelsAdvance _ (s.goto (.start j))⟩

/-- An instruction that answers a state and is neither A2P nor SETKBD requests neither of the two. -/
theorem operationOf_of_next {i : Instr} (ha : ∀ c, i ≠ .a2p c) (hl : ∀ l, i ≠ .setkbd l) (h : exec i s = .next t) :
    ∃ k, operationOf i = some k ∧ k ≠ .a2p ∧ k ≠ .setkbd := by
  cases i
  case reservedHop hop => cases h
  case a2p c => exact absurd rfl (ha c)
  case setkbd l => exact absurd rfl (hl l)
  all_goals exact ⟨_, rfl, nofun, nofun⟩

/-- Only SETKBD may write KBD (R21). -/
theorem kbd_of_blank {k : OpKind} (hk : k ≠ .setkbd) (h : k.blank t = k.blank s) : t.kbd = s.kbd := by
  cases k
  case setkbd => exact absurd rfl hk
  all_goals
    have hkbd := congrArg State.kbd h
    exact hkbd

/-! ### Another layout in KBD (R21) -/

/-- The state with another layout in KBD. -/
def State.withLayout (s : State) (l : Layout) : State := { s with kbd := l }

section Layout

variable (l : Layout)

theorem chanRead_withLayout (g : Word9 → Activity) (s : State) :
    ((chanRead (s.withLayout l)).map fun e => e.2.goto (g e.1)) =
      ((chanRead s).map fun e => e.2.goto (g e.1)).map (·.withLayout l) := by
  rcases hq : s.rxq with _ | ⟨w, q⟩
  · rw [chanRead_eq_none.mpr hq, chanRead_eq_none.mpr (show (s.withLayout l).rxq = [] from hq)]
    rfl
  · rw [chanRead_cons hq, chanRead_cons (s := s.withLayout l) hq]
    rfl

theorem readWord_withLayout (key : Bool) (buf : RxFrame) (k : Nat) (s : State) :
    readWord key buf k (s.withLayout l) = (readWord key buf k s).map (·.withLayout l) :=
  chanRead_withLayout l (fun w => .rx key (buf.set k w) k .got) s

theorem beginJob_withLayout {j : Job} (ha : j.kind ≠ .a2p) (hk : j.kind ≠ .setkbd) (s : State) :
    beginJob p j (s.withLayout l) = (beginJob p j s).map (·.withLayout l) := by
  cases j with
  | send => simp only [beginJob, beginSend]; split <;> rfl
  | waitrdy => simp only [beginJob, beginWaitrdy]; split <;> rfl
  | rdcmd blk =>
    cases blk
    · rfl
    · exact readWord_withLayout l _ _ _ (markPresent (clearReceived (clearKey false s)))
  | rdkey blk =>
    cases blk
    · rfl
    · exact readWord_withLayout l _ _ _ (markPresent (clearReceived (clearKey true s)))
  | setkbd => exact absurd rfl hk
  | a2p => exact absurd rfl ha
  | flushrx | p2a => rfl

theorem txStep_withLayout (x : TxCtx) (f : TxFrame) (ph : TxPhase) (s : State) :
    txStep p x f ph (s.withLayout l) = (txStep p x f ph s).map (·.withLayout l) := by
  cases ph with
  | echo => exact chanRead_withLayout l (fun _ => .tx x f .resp) s
  | resp => exact chanRead_withLayout l (fun w => .tx x f (.got w)) s
  | got r =>
    simp only [txStep, afterResponse]
    split
    · rfl
    split
    · rfl
    cases x with
    | send => rfl
    | poll o => by_cases hr : r = 0 <;> simp only [frameSent, setResp_rResp, hr, if_true, if_false] <;> rfl

theorem nextWord_withLayout (key : Bool) (buf : RxFrame) (k : Nat) (s : State) :
    nextWord p key buf k (s.withLayout l) = (nextWord p key buf k s).map (·.withLayout l) := by
  unfold nextWord
  split
  · exact readWord_withLayout l key buf _ s
  · cases key <;> rfl

theorem rxStep_withLayout (key : Bool) (buf : RxFrame) (k : Nat) (ph : RxPhase) (s : State) :
    rxStep p key buf k ph (s.withLayout l) = (rxStep p key buf k ph s).map (·.withLayout l) := by
  unfold rxStep
  split
  · exact readWord_withLayout l _ _ _ (markPresent s)
  · cases key <;> rfl
  · split
    · split
      · exact chanRead_withLayout l (fun _ => .rx key buf k .skipped) s
      · exact nextWord_withLayout l _ _ _ _
    · rfl
  · exact nextWord_withLayout l _ _ _ _

theorem flushStep_withLayout (ph : FlushPhase) (s : State) :
    flushStep ph (s.withLayout l) = (flushStep ph s).map (·.withLayout l) := by
  unfold flushStep
  split
  · exact chanRead_withLayout l (fun _ => .flush .read) s
  · rfl
  · rfl

variable {k : OpKind} (ha : k ≠ .a2p) (hk : k ≠ .setkbd)
include ha hk

/-- No operation but A2P and SETKBD looks at KBD or writes it (R21). -/
theorem engineStep_withLayout (hs : AtKind k s) :
    engineStep p (s.withLayout l) = (engineStep p s).map (·.withLayout l) := by
  unfold engineStep
  rw [show (s.withLayout l).engine = s.engine from rfl]
  rcases he : s.engine with _ | ⟨j | ⟨x, f, ph⟩ | ⟨key, buf, n, ph⟩ | ph⟩
  · rfl
  · obtain rfl : j.kind = k := hs _ he
    exact beginJob_withLayout l ha hk s
  · exact txStep_withLayout l x f ph s
  · exact rxStep_withLayout l key buf n ph s
  · exact flushStep_withLayout l ph s

theorem settle_withLayout (n : Nat) (hs : AtKind k s) : settle p n (s.withLayout l) = (settle p n s).withLayout l := by
  induction n generalizing s with
  | zero => rfl
  | succ n ih =>
    have hl := engineStep_withLayout (p := p) l ha hk hs
    rcases h : engineStep p s with _ | t <;> rw [h] at hl
    · rw [settle_of_none hl, settle_of_none h]
    · rw [settle_step hl, settle_step h, ih (engineStep_keeps_atKind h hs)]

theorem engineTurn_withLayout (hs : AtKind k s) : engineTurn p (s.withLayout l) = (engineTurn p s).withLayout l := by
  rcases hn : s.turns.next with _ | ⟨_ | w | r | _, ts⟩
  · simp only [engineTurn, show (s.withLayout l).turns = s.turns from rfl, hn]
    exact settle_withLayout l ha hk _ hs
  · rw [engineTurn_engine (s := s.withLayout l) hn, engineTurn_engine hn, settle_withLayout l ha hk 1 hs]
    rfl
  all_goals simp only [engineTurn, show (s.withLayout l).turns = s.turns from rfl, hn]

end Layout

end Sys2Proof.Machine
end

section
/-! The statements about the state of the machine (spec/10_state.md), settled: the invariant, the channels, refusals,
KBD, write sets, reset, and what the host reads. -/

namespace Sys2Proof.Machine

open Sys2Proof.Safety

/-- Settles O49: each engine step keeps the invariant, so the engine's share of a step does; a request changes the
point to the start of an operation, an arrival only RXQ, and a reset gives the reset values. -/
theorem stepKeepsTheInvariant : Obligations.StepKeepsTheInvariant := by
  unfold Obligations.StepKeepsTheInvariant
  intro s t hs h
  cases step_move h with
  | engine => exact engineTurn_keeps_inv hs
  | host => exact engineTurn_keeps_inv ⟨trivial, hs.posOk, hs.txsOk⟩
  | env => exact ⟨hs.engineOk, hs.posOk, hs.txsOk⟩
  | reset => exact ⟨rfl, show (0 : Pos) ≤ 0x60 by decide, hs.txsOk⟩

/-- Settles O12: the engine's share of a step makes its channel calls in order, an arrival is appended, and a reset
leaves the channel. -/
theorem channelsAreFirstInFirstOut : Obligations.ChannelsAreFirstInFirstOut := by
  unfold Obligations.ChannelsAreFirstInFirstOut
  intro s t h
  cases step_move h with
  | engine => exact (engineTurn_channelsAdvance _ s).imp_right .inl
  | host r ts j _ _ =>
    exact (engineTurn_channelsAdvance _ ((writeReq r (s.withTurns ts)).goto (.start j))).imp_right .inl
  | env w ts _ => exact ⟨⟨[], (List.append_nil _).symm⟩, .inr ⟨w, rfl⟩⟩
  | reset ts _ => exact ⟨⟨[], (List.append_nil _).symm⟩, .inl ⟨[], rfl⟩⟩

/-- Settles O17: every instruction but the reserved HOP requests an operation, which `operate` refuses while BUSY. -/
theorem busyEngineRefusesRequests : Obligations.BusyEngineRefusesRequests := by
  unfold Obligations.BusyEngineRefusesRequests
  intro s hs
  obtain ⟨a, ha⟩ : ∃ a, s.engine = .busy a := by
    rcases he : s.engine with _ | a
    · rw [isIdle_iff.mpr he] at hs
      cases hs
    · exact ⟨a, rfl⟩
  refine ⟨fun i hi => ?_, fun _ => rfl, fun r ts hn => ?_⟩
  · obtain ⟨k, hk⟩ := operationOf_of_not_reserved hi
    obtain ⟨j, -, hj⟩ := exec_eq_operate_of_operationOf hk
    rw [hj, operate_busy ha]
  · simp only [step, hn]
    rcases exec_eq_operate_or_refused (decodeReq r) with ⟨j, hj⟩ | ⟨q, hq⟩
    · exact ⟨_, (hj _).trans (operate_busy (s := writeReq r (s.withTurns ts)) ha)⟩
    · exact ⟨q, hq _⟩

/-- Settles O43: operations other than A2P and SETKBD run alike under both layouts, and only SETKBD may write KBD. -/
theorem onlyA2pReadsTheLayout : Obligations.OnlyA2pReadsTheLayout := by
  unfold Obligations.OnlyA2pReadsTheLayout
  intro i s t l ha hl h
  obtain ⟨k, hi, hka, hks⟩ := operationOf_of_next ha hl h
  obtain ⟨j, rfl, hj⟩ := exec_eq_operate_of_operationOf hi
  refine ⟨kbd_of_blank hks (exec_leaves hi h).1, ?_⟩
  obtain ⟨he, rfl⟩ := operate_eq_next ((hj s).symm.trans h)
  rw [hj, operate_idle (s := { s with kbd := l }) he]
  exact congrArg _ (engineTurn_withLayout l hka hks (atKind_goto rfl))

/-- Settles O44: a transmission leaves the fields its `blank` keeps, and its channel calls are in order. -/
theorem transmitWriteSet : Obligations.TransmitWriteSet := by
  unfold Obligations.TransmitWriteSet
  intro i s t hi h
  obtain ⟨hb, htx, hrx⟩ := exec_leaves (operationOf_of_transmits hi) h
  simp only [OpKind.blank, State.mk.injEq, true_and, and_true] at hb
  obtain ⟨hkbd, hreq, hpresent, hopc, hd1, hd2, hlen, hclass, hascii, hpos⟩ := hb
  exact ⟨hreq, hkbd, hpresent, hopc, hd1, hd2, hlen, hclass, hascii, hpos, htx, hrx⟩

/-- Settles O45: each of the three leaves the fields its `blank` keeps, TXS among them. -/
theorem receiveWriteSet : Obligations.ReceiveWriteSet := by
  unfold Obligations.ReceiveWriteSet
  intro i s t blk hi h
  rcases hi with rfl | rfl | rfl
  all_goals
    obtain ⟨hb, -, hrx⟩ := exec_leaves rfl h
    simp only [OpKind.blank, State.mk.injEq, true_and, and_true] at hb
  · obtain ⟨hkbd, hreq, hresp, hclass, hascii, hpos, htxs⟩ := hb
    exact ⟨hreq, hkbd, hresp, hpos, htxs, hrx, fun _ => ⟨hclass, hascii⟩, nofun⟩
  · obtain ⟨hkbd, hreq, hresp, hpos, htxs⟩ := hb
    exact ⟨hreq, hkbd, hresp, hpos, htxs, hrx, fun hne => absurd rfl hne, nofun⟩
  · obtain ⟨hkbd, hreq, hresp, hpresent, hopc, hd1, hd2, hlen, hclass, hascii, hpos, htxs⟩ := hb
    exact ⟨hreq, hkbd, hresp, hpos, htxs, hrx, fun _ => ⟨hclass, hascii⟩, fun _ => ⟨hpresent, hopc, hd1, hd2, hlen⟩⟩

/-- Settles O46: each of the three leaves the fields its `blank` keeps, the channel among them. -/
theorem translateWriteSet : Obligations.TranslateWriteSet := by
  unfold Obligations.TranslateWriteSet
  intro i s t l c hi h
  rcases hi with rfl | rfl | rfl
  all_goals
    obtain ⟨hb, -⟩ := exec_leaves rfl h
    simp only [OpKind.blank, State.mk.injEq, true_and, and_true] at hb
  · obtain ⟨hreq, hresp, hpresent, hopc, hd1, hd2, hlen, hclass, hascii, hpos, hrxq, htxs⟩ := hb
    exact ⟨hrxq, htxs, hreq, hresp, hpresent, hopc, hd1, hd2, hlen, hclass, fun _ => ⟨hpos, hascii⟩, nofun, nofun⟩
  · obtain ⟨hkbd, hreq, hresp, hpresent, hopc, hd1, hd2, hlen, hclass, hascii, hrxq, htxs⟩ := hb
    exact ⟨hrxq, htxs, hreq, hresp, hpresent, hopc, hd1, hd2, hlen, hclass, nofun, fun _ => ⟨hkbd, hascii⟩, nofun⟩
  · obtain ⟨hkbd, hreq, hresp, hpresent, hopc, hd1, hd2, hlen, hclass, hpos, hrxq, htxs⟩ := hb
    exact ⟨hrxq, htxs, hreq, hresp, hpresent, hopc, hd1, hd2, hlen, hclass, nofun, nofun, fun _ => ⟨hkbd, hpos⟩⟩

/-- Settles O47: the moves from each point write no more than its operation may. -/
theorem engineStepWriteSets : Obligations.EngineStepWriteSets := by
  unfold Obligations.EngineStepWriteSets
  intro p s t h
  have hmove : ∀ {a}, s.engine = .busy a → EngineMove p s a t := fun hs => engineStep_move_at hs h
  have hstart : ∀ {j}, s.engine = .busy (.start j) → StartMove p s j t := fun hs => by
    cases hmove hs with
    | start hm => exact hm
  refine ⟨fun a o d1 d2 ign hs => ?_, fun blk hs => ?_, fun blk hs => ?_, fun hs => ?_, fun l hs => ?_, fun c hs => ?_,
    fun c hs => ?_, fun x f ph hs => ?_, fun key buf k ph hs => ?_, fun ph hs => ?_⟩
  · rcases hs with hs | hs <;> cases hstart hs <;> rfl
  · cases hstart hs with
    | rdcmd blk hm => exact hm.rdcmd_writes
  · cases hstart hs with
    | rdkey blk hm => exact hm.rdkey_writes
  · cases hstart hs
    rfl
  · cases hstart hs
    rfl
  · cases hstart hs
    rfl
  · cases hstart hs
    rfl
  · cases hmove hs with
    | tx hm => exact hm.writes
  · cases hmove hs with
    | rx hm => exact ⟨hm.writes, fun hkey => by subst hkey; exact hm.rdcmd_keeps_keypress⟩
  · cases hmove hs with
    | flush hm => exact hm.writes

/-- Settles O5: `writeReq` and `withTurns` write REQ and the turns. -/
theorem stepRunsTheDecodedRequest : Obligations.StepRunsTheDecodedRequest := by
  unfold Obligations.StepRunsTheDecodedRequest
  intro s r ts hn
  simp only [step, hn]
  rfl

/-- Settles O15: a reset turn is `applyReset` with the turn taken. -/
theorem resetTurnResets : Obligations.ResetTurnResets := by
  unfold Obligations.ResetTurnResets
  intro s ts hn
  refine ⟨applyReset (s.withTurns ts), by simp only [step, hn], ?_⟩
  exact ⟨rfl, rfl, rfl, rfl, rfl, rfl, rfl, rfl, rfl, rfl, rfl, rfl, rfl, rfl, rfl, rfl⟩

/-- Settles O16: `State.reset` holds these values. -/
theorem resetStateValues : Obligations.ResetStateValues :=
  ⟨rfl, rfl, rfl, rfl, rfl, rfl, rfl, rfl, rfl, rfl, rfl, rfl, rfl, rfl⟩

/-- Settles O48: the reset state is IDLE without an error, R_POS is 0 and TXS is empty. -/
theorem invariantAtReset : Obligations.InvariantAtReset where
  engineOk := rfl
  posOk := by decide
  txsOk _ hw := absurd hw List.not_mem_nil

/-- Settles O53: each register reads as its value, and R_ERR, R_FIELD, R_CLASS and STATE as the code of theirs. -/
theorem hostReadsTheRegisters : Obligations.HostReadsTheRegisters := by
  unfold Obligations.HostReadsTheRegisters
  intro s
  have hpresent : s.hostRead .rPresent = if s.rPresent then 1 else 0 := by
    show s.rPresent.toNat = _
    cases s.rPresent <;> rfl
  have herr : ∀ {e}, s.rErr = e → s.hostRead .rErr = e.code.toNat := by rintro _ rfl; rfl
  have hfield : ∀ {f}, s.rField = f → s.hostRead .rField = f.code.toNat := by rintro _ rfl; rfl
  have hclass : ∀ {c}, s.rClass = c → s.hostRead .rClass = c.code.toNat := by rintro _ rfl; rfl
  have hstate : ∀ {b}, s.isIdle = b → s.hostRead .state = if b then 0 else 1 := by rintro _ rfl; rfl
  exact ⟨rfl, rfl, rfl, rfl, rfl, rfl, rfl, hpresent, herr, herr, herr, herr, hfield, hfield, hfield, hfield, hfield,
    hclass, hclass, hclass, hclass, hclass, hclass, hstate, hstate⟩

end Sys2Proof.Machine
end

section
/-! SUPPORT. Operations whose first engine step is their last, and the reverse lookup in the translation ROM. -/

namespace Sys2Proof.Machine

open Sys2Proof.Safety

variable {p : Params} {s t : State}

/-- An operation that runs alone and whose first engine step ends it (R13) leaves the state of that step. -/
theorem operate_of_alone_of_ends {j : Job} (h : Alone s) (hj : beginJob p j (s.goto (.start j)) = some t)
    (ht : t.engine = .idle) : operate p j s = .next t := by
  rw [operate_of_alone h, rest_step ((engineStep_start s).trans hj), rest_of_idle ht]

/-- P2A, undisturbed, is its one engine step (R13, R143). -/
theorem operate_p2a_of_alone (pos : Byte) (h : Alone s) : operate p (.p2a pos) s = .next (posToAscii p pos s) :=
  operate_of_alone_of_ends h rfl rfl

/-- What P2A's step writes in an IDLE engine (R143). -/
theorem posToAscii_of_idle (pos : Byte) (h : s.engine = .idle) :
    posToAscii p pos s = { s with rErr := .noError, rField := .fNone, rAscii := revLookup p.rom pos } := by
  show { s with rErr := .noError, rField := .fNone, rAscii := revLookup p.rom pos, engine := .idle } = _
  rw [← h]

/-- A position of the table reads its REV entry (R41). -/
theorem revLookup_of_toNat_eq (rom : Rom) {pos : Byte} {q : Fin 97} (h : pos.toNat = q) :
    revLookup rom pos = rom.rev q := by
  have hle : pos.toNat ≤ 0x60 := by omega
  have hq : (⟨pos.toNat, by omega⟩ : Fin 97) = q := Fin.ext h
  rw [revLookup, dif_pos hle, hq]

/-- A position above the table reads as 0 (R143). -/
theorem revLookup_of_gt (rom : Rom) {pos : Byte} (h : 0x60 < pos) : revLookup rom pos = 0 :=
  dif_neg (Nat.not_le.mpr (BitVec.lt_def.mp h))

end Sys2Proof.Machine
end

section
/-! The statement about the memory of the machine (spec/20_memory.md), settled: P2A's read of the table REV. -/

namespace Sys2Proof.Machine

open Sys2Proof.Safety

/-- Settles O40: P2A ends in its one engine step, which writes the reverse lookup of its position, inside the table or
above it. -/
theorem p2aReadsTheReverseTable : Obligations.P2aReadsTheReverseTable := by
  unfold Obligations.P2aReadsTheReverseTable
  intro pos s ha
  have hrun : exec (.p2a pos) s =
      .next { s with rErr := .noError, rField := .fNone, rAscii := revLookup Config.params.rom pos } := by
    rw [← posToAscii_of_idle pos (isIdle_iff.mp ha.1)]
    exact operate_p2a_of_alone pos ha
  constructor
  · intro q hq
    rw [hrun, revLookup_of_toNat_eq _ hq]
  · intro hgt
    rw [hrun, revLookup_of_gt _ hgt]

end Sys2Proof.Machine
end

section
/-! SUPPORT. The decoder row by row (spec/30_encoding.md R70 to R72, R95, R96): what a request decodes to by its HOP,
which row an opcode operand that is never transmitted belongs to, and what a request word built from fields decodes to.
-/

namespace Sys2Proof

/-! ### A request by its HOP (R71, R72) -/

section Request

variable {r : Req}

theorem decodeReq_send (h : reqHop r = 0x0) :
    decodeReq r = .send (reqAddr r) (reqOpc r) (reqD1 r) (reqD2 r) (reqF r) := by
  rw [decodeReq, h]; rfl

theorem decodeReq_waitrdy (h : reqHop r = 0x1) : decodeReq r = .waitrdy (reqOpc r) := by
  rw [decodeReq, h]; rfl

theorem decodeReq_rdcmd (h : reqHop r = 0x2) : decodeReq r = .rdcmd (reqF r) := by
  rw [decodeReq, h]; rfl

theorem decodeReq_rdkey (h : reqHop r = 0x3) : decodeReq r = .rdkey (reqF r) := by
  rw [decodeReq, h]; rfl

theorem decodeReq_flushrx (h : reqHop r = 0x4) : decodeReq r = .flushrx := by
  rw [decodeReq, h]; rfl

theorem decodeReq_setkbd (h : reqHop r = 0x5) : decodeReq r = .setkbd (reqF r) := by
  rw [decodeReq, h]; rfl

theorem decodeReq_a2p (h : reqHop r = 0x6) : decodeReq r = .a2p (reqD1 r) := by
  rw [decodeReq, h]; rfl

theorem decodeReq_p2a (h : reqHop r = 0x7) : decodeReq r = .p2a (reqD1 r) := by
  rw [decodeReq, h]; rfl

theorem decodeReq_reservedHop (h : 0x8 ≤ reqHop r) : decodeReq r = .reservedHop (reqHop r) := by
  have hle : 8 ≤ (reqHop r).toNat := h
  unfold decodeReq
  split
  case h_9 => rfl
  all_goals omega

/-- The reserved row's match and mask are the HOPs from 0x8 up (R72). -/
theorem le_of_and_0x8 {hop : BitVec 4} (h : hop &&& 0x8 = 0x8) : 0x8 ≤ hop := by
  revert hop
  decide

/-- A HOP is one of the eight operations or reserved (R71, R72). -/
theorem hop_cases (hop : BitVec 4) :
    hop = 0x0 ∨ hop = 0x1 ∨ hop = 0x2 ∨ hop = 0x3 ∨ hop = 0x4 ∨ hop = 0x5 ∨ hop = 0x6 ∨ hop = 0x7 ∨ 0x8 ≤ hop := by
  revert hop
  decide

end Request

/-! ### The rows of invalid opcode operands (R95, R96) -/

section InvalidOpcode

variable {o m v : Byte}

/-- The bits of an opcode operand under a mask fix those under a narrower one. -/
theorem and_of_and_eq (h : o &&& m = v) {n : Byte} (hn : m &&& n = n) : o &&& n = v &&& n := by
  rw [← h, BitVec.and_assoc, hn]

/-- A valid opcode has no bit above bit 3 (R63). -/
theorem and_0xF0_of_valid (ho : validOpcode o = true) : o &&& 0xF0 = 0 := by
  revert o
  decide

/-- A row of invalid opcode operands that fixes a bit above bit 3 holds no valid opcode (R96). -/
theorem not_validOpcode_of_and_eq (h : o &&& m = v) (hm : 0xF0 &&& m = m) (hv : v ≠ 0) : validOpcode o = false := by
  by_contra hvalid
  rw [Bool.not_eq_false] at hvalid
  have hzero := and_of_and_eq (and_0xF0_of_valid hvalid) hm
  exact hv ((h.symm.trans hzero).trans BitVec.zero_and)

/-- The one invalid opcode operand below 0x10 (R95). -/
theorem eq_0x0F_of_no_row (ho : validOpcode o = false) (h80 : ¬ o &&& 0x80 = 0x80) (h40 : ¬ o &&& 0xC0 = 0x40)
    (h20 : ¬ o &&& 0xE0 = 0x20) (h10 : ¬ o &&& 0xF0 = 0x10) : o = 0x0F := by
  revert o
  decide

variable (u : OpcUser)

theorem invalidOpcode_80_ff (h : o &&& 0x80 = 0x80) : invalidOpcode u o = .invalidOpc80_ff u o := if_pos h

theorem invalidOpcode_40_7f (h : o &&& 0xC0 = 0x40) : invalidOpcode u o = .invalidOpc40_7f u o := by
  have h80 := and_of_and_eq h (n := 0x80) (by decide)
  rw [invalidOpcode, if_neg (by rw [h80]; decide), if_pos h]

theorem invalidOpcode_20_3f (h : o &&& 0xE0 = 0x20) : invalidOpcode u o = .invalidOpc20_3f u o := by
  have h80 := and_of_and_eq h (n := 0x80) (by decide)
  have h40 := and_of_and_eq h (n := 0xC0) (by decide)
  rw [invalidOpcode, if_neg (by rw [h80]; decide), if_neg (by rw [h40]; decide), if_pos h]

theorem invalidOpcode_10_1f (h : o &&& 0xF0 = 0x10) : invalidOpcode u o = .invalidOpc10_1f u o := by
  have h80 := and_of_and_eq h (n := 0x80) (by decide)
  have h40 := and_of_and_eq h (n := 0xC0) (by decide)
  have h20 := and_of_and_eq h (n := 0xE0) (by decide)
  rw [invalidOpcode, if_neg (by rw [h80]; decide), if_neg (by rw [h40]; decide), if_neg (by rw [h20]; decide), if_pos h]

/-- SEND's row of an opcode operand that is never transmitted (R95, R96). -/
theorem wireCommand_of_invalid (a : BusAddr) (d1 d2 : Byte) (ign : Bool) (ho : validOpcode o = false) :
    wireCommand a o d1 d2 ign = invalidOpcode .send o := by
  have hgt : ¬ o.toNat ≤ 14 := by rw [← validOpcode_iff, ho]; exact Bool.false_ne_true
  unfold wireCommand
  split
  case h_16 => rfl
  all_goals omega

end InvalidOpcode

/-! ### A request word built from fields (R70, R71) -/

section Packed

variable (a : BusAddr) (o d1 d2 : Byte) (f : Bool)

theorem decodeReq_packReq_send : decodeReq (packReq 0x0 a o d1 d2 f) = .send a o d1 d2 f := by
  rw [decodeReq_send (reqHop_packReq ..), reqAddr_packReq, reqOpc_packReq, reqD1_packReq, reqD2_packReq, reqF_packReq]

theorem decodeReq_packReq_waitrdy : decodeReq (packReq 0x1 a o d1 d2 f) = .waitrdy o := by
  rw [decodeReq_waitrdy (reqHop_packReq ..), reqOpc_packReq]

/-- A SEND read one layer deeper is the row of its opcode operand. -/
theorem decodeCommand_packReq_send : decodeCommand (packReq 0x0 a o d1 d2 f) = .ok (wireCommand a o d1 d2 f) := by
  rw [decodeCommand, decodeReq_packReq_send]

/-- An opcode operand that is never transmitted is read as its row, whichever operation reads it (R95, R96). -/
theorem decodeCommand_packReq_invalid (u : OpcUser) {o : Byte} (ho : validOpcode o = false) :
    decodeCommand (packReq u.hop a o d1 d2 f) = .ok (invalidOpcode u o) := by
  cases u
  case send => rw [OpcUser.hop, decodeCommand_packReq_send, wireCommand_of_invalid a d1 d2 f ho]
  case waitrdy =>
    rw [OpcUser.hop, decodeCommand, decodeReq_packReq_waitrdy]
    simp only [ho, Bool.false_eq_true, if_false]

/-- The same, by the match and mask of the row (R96). -/
theorem decodeCommand_packReq_row (u : OpcUser) {o m v : Byte} {i : Instr} (h : o &&& m = v) (hm : 0xF0 &&& m = m)
    (hv : v ≠ 0) (hi : invalidOpcode u o = i) : decodeCommand (packReq u.hop 0 o 0 0 false) = .ok i := by
  rw [decodeCommand_packReq_invalid _ _ _ _ u (not_validOpcode_of_and_eq h hm hv), hi]

end Packed

end Sys2Proof
end

section
/-! SUPPORT. The rows of the opcode table as instructions: what an invalid opcode operand runs, the step on a table
word, and the fifteen wire commands. -/

namespace Sys2Proof.Machine

open Sys2Proof.Safety

variable {s : State}

/-- The row of an opcode operand that is never transmitted rejects that operand (R95, R96). -/
theorem exec_invalidOpcode (u : OpcUser) {o : Byte} (ho : validOpcode o = false) (s : State) :
    exec (invalidOpcode u o) s = rejectOpcode u o s := by
  unfold invalidOpcode
  split
  · rfl
  split
  · rfl
  split
  · rfl
  split
  · rfl
  next h80 h40 h20 h10 =>
    rw [eq_0x0F_of_no_row ho h80 h40 h20 h10]
    rfl

/-- The row that a SEND's opcode operand selects runs that SEND, where the operands an invalid opcode leaves unread
are 0 (R62, R63, R95, R96). -/
theorem exec_wireCommand_operands_zero (o : Byte) (s : State) :
    exec (wireCommand 0 o 0 0 false) s = exec (.send 0 o 0 0 false) s := by
  rcases ho : validOpcode o with _ | _
  · rw [wireCommand_of_invalid 0 0 0 false ho, exec_invalidOpcode .send ho]
    rfl
  · exact exec_wireCommand 0 0 0 false ho s

/-- The word of an opcode row is run as the SEND of that opcode with its other fields 0. -/
theorem tableRequest_command {nbits w : Nat} {r : Req} (h : tableRequest nbits w = .ok (.command, r)) :
    r = opcodeRequest w := by
  unfold tableRequest at h
  split_ifs at h <;> cases h <;> rfl

/-- A table word's request runs as the instruction the decoder reads from it. -/
theorem exec_decodeReq_of_tableRequest {nbits w : Nat} {l : Level} {r : Req} {i : Instr}
    (ht : tableRequest nbits w = .ok (l, r)) (hi : decodeAt l r = .ok i) (s : State) :
    exec (decodeReq r) s = exec i s := by
  cases l
  case request =>
    cases hi
    rfl
  case command =>
    obtain rfl := tableRequest_command ht
    have hrow : wireCommand 0 (BitVec.ofNat 8 w) 0 0 false = i :=
      Except.ok.inj ((decodeCommand_packReq_send ..).symm.trans hi)
    rw [← hrow, exec_wireCommand_operands_zero, opcodeRequest, decodeReq_packReq_send]

/-- The decoder reads an instruction only from a word that some request carries. -/
theorem decodeTableWord_eq_some {nbits w : Nat} {i : Instr} (h : decodeTableWord nbits w = some i) :
    ∃ l r, tableRequest nbits w = .ok (l, r) ∧ decodeAt l r = .ok i := by
  unfold decodeTableWord decodeTable at h
  split at h
  · next l r ht =>
    rcases hd : decodeAt l r with e | j
    · rw [hd] at h; cases h
    · rw [hd] at h
      cases h
      exact ⟨l, r, ht, hd⟩
  · cases h

/-- A step on a table word placed by withFetchWord runs its request with STATE = IDLE. -/
theorem step_withFetchWord {nbits w : Nat} {l : Level} {r : Req} (h : tableRequest nbits w = .ok (l, r)) (s : State) :
    step (s.withFetchWord nbits w) = exec (decodeReq r) { s with engine := .idle, req := r } := by
  simp only [State.withFetchWord, h, step, next_after]
  rfl

/-- The fifteen wire commands with their opcodes, of any length. -/
def allCommands : List ((BusAddr → Byte → Byte → Bool → Instr) × Byte) :=
  lengthOneCommands ++ lengthTwoCommands ++ lengthThreeCommands

/-- Each of the fifteen is the row of its opcode (R80 to R94). -/
theorem wireCommand_of_mem {c : (BusAddr → Byte → Byte → Bool → Instr) × Byte} (hc : c ∈ allCommands) (a : BusAddr)
    (d1 d2 : Byte) (ign : Bool) : wireCommand a c.2 d1 d2 ign = c.1 a d1 d2 ign := by
  unfold allCommands lengthOneCommands lengthTwoCommands lengthThreeCommands at hc
  fin_cases hc <;> rfl

/-- Every valid opcode is that of one of the fifteen (R63). -/
theorem opcode_mem_allCommands {o : Byte} (ho : validOpcode o = true) : ∃ c ∈ allCommands, c.2 = o := by
  have hmem : o ∈ allCommands.map Prod.snd := by
    revert o
    decide
  exact List.mem_map.mp hmem

end Sys2Proof.Machine
end

section
/-! SUPPORT. Whole frames: what a SEND that ends without an error has sent, and what a reception takes from a whole
frame in RXQ. -/

namespace Sys2Proof.Machine

open Sys2Proof.Safety

variable {p : Params} {s : State}

/-- The words of a loaded frame are FRAME (R66). -/
theorem wordsFrom_loadFrame_eq_frame (a : BusAddr) (o d1 d2 : Byte) :
    (loadFrame a o d1 d2).wordsFrom (frameLen o + 1) = frame a o d1 d2 :=
  wordsFrom_loadFrame a o d1 d2 (Nat.succ_le_succ (frameLen_le o))

/-- A state that differs from an IDLE one at most in STATE = IDLE is that state. -/
theorem eq_of_eq_with_idle {t : State} (h : t.engine = .idle) (hs : s = { t with engine := .idle }) : s = t := by
  rw [hs, ← h]

/-- What the end of a SEND after exchanges leaves, in an engine that was IDLE before it (R100). -/
theorem finish_exchangedState {a : Activity} (xs : List (Word9 × Word9)) (q ws : List Word9) (h : s.engine = .idle) :
    finish ((exchangedState (setResp 0 s) xs q ws).goto a) =
      { s with rErr := .noError, rField := .fNone, rResp := lastResponse xs, txs := s.txs ++ ws, rxq := q } :=
  eq_of_eq_with_idle h rfl

/-- SEND of a valid opcode, undisturbed, is the transmission of its frame with R_RESP cleared (R100). -/
theorem exec_send_of_alone {a : BusAddr} {o d1 d2 : Byte} {ign : Bool} (ha : Alone s) (ho : validOpcode o = true) :
    exec (.send a o d1 d2 ign) s =
      .next (rest Config.params (sendWord (.send ign) (loadFrame a o d1 d2) (setResp 0 s))) := by
  have hexec : exec (.send a o d1 d2 ign) s = operate Config.params (.send a o d1 d2 ign) s := rfl
  rw [hexec, operate_of_alone ha, rest_startSend ho]

section SentFrame

variable {ign : Bool} {x : TxCtx} {f : TxFrame}

/-- A transmission that comes to rest IDLE and without an error has read an echo and a response that passes: on a silent
bus it holds, and a response that fails its check ends it with an error (R100, R103). -/
theorem exchange_of_rest_noError (hk : f.k < f.txn) (hi : (rest p (sendWord x f s)).isIdle = true)
    (he : (rest p (sendWord x f s)).rErr = .noError) :
    ∃ e r q, s.rxq = e :: r :: q ∧ (ackChecked x f = true → r = 0) := by
  have hnone : Passes x f [] := fun i h => absurd h (Nat.not_lt_zero i)
  have hk' : f.k + ([] : List (Word9 × Word9)).length < f.txn := hk
  have hlong : ¬ s.rxq.length ≤ 1 := by
    intro hlen
    obtain ⟨ph, hr, -⟩ := rest_sendWord_silent (p := p) hk' hnone rfl hlen
    rw [hr] at hi
    cases hi
  rcases hq : s.rxq with _ | ⟨e, _ | ⟨r, q⟩⟩
  · exact absurd (by simp [hq]) hlong
  · exact absurd (by simp [hq]) hlong
  · refine ⟨e, r, q, rfl, fun hc => ?_⟩
    by_contra hr
    rw [rest_sendWord_mismatch hk' hnone hq hc hr] at he
    cases he

/-- A SEND that comes to rest IDLE and without an error has sent its words from K on (R66, R100). -/
theorem txs_of_rest_noError (n : Nat) : ∀ {f : TxFrame} {s : State}, f.k + (n + 1) = f.txn →
    (rest p (sendWord (.send ign) f s)).isIdle = true → (rest p (sendWord (.send ign) f s)).rErr = .noError →
    (rest p (sendWord (.send ign) f s)).txs = s.txs ++ f.wordsFrom (n + 1) := by
  induction n with
  | zero =>
    intro f s hk hi he
    obtain ⟨e, r, q, hq, hr⟩ := exchange_of_rest_noError (by omega) hi he
    rw [rest_exchange_passed hq hr, if_neg (by omega), frameSent, rest_of_idle rfl]
    rfl
  | succ n ih =>
    intro f s hk hi he
    obtain ⟨e, r, q, hq, hr⟩ := exchange_of_rest_noError (by omega) hi he
    rw [rest_exchange_passed hq hr, if_pos (by omega)] at hi he ⊢
    rw [ih (by simp only; omega) hi he]
    simp [exchangedState, TxFrame.wordsFrom, List.range'_succ, TxFrame.word]

/-- A SEND of a valid opcode that ends without an error, undisturbed, has appended its frame to TXS (R66, R100). -/
theorem txs_of_send_noError {a : BusAddr} {o d1 d2 : Byte} {t : State} (ha : Alone s) (ho : validOpcode o = true)
    (h : exec (.send a o d1 d2 ign) s = .next t) (hi : t.isIdle = true) (he : t.rErr = .noError) :
    t.txs = s.txs ++ frame a o d1 d2 := by
  rw [exec_send_of_alone ha ho] at h
  cases h
  rw [txs_of_rest_noError (frameLen o) (Nat.zero_add _) hi he, wordsFrom_loadFrame_eq_frame]
  rfl

end SentFrame

section ReceivedFrame

variable {key blk : Bool} {o d1 d2 : Byte} {xs : List (Word9 × Word9)} {tail : List Word9}

/-- A frame has the address word and LEN more (R66). -/
theorem frame_length (a : BusAddr) (o d1 d2 : Byte) : (frame a o d1 d2).length = frameLen o + 1 := by
  have hlen := frameLen_le o
  simp only [frame, List.length_take, List.length_cons, List.length_nil]
  omega

/-- RDCMD and RDKEY with a whole frame to the bus address in RXQ take its words and end with the frame (R120, R121). -/
theorem rest_receive_frame {j : Job} (hj : j = if key then .rdkey blk else .rdcmd blk) (ho : validOpcode o = true)
    (hfst : xs.map Prod.fst = frame p.busAddress o d1 d2) (hq : s.rxq = inbound p.rxAckInterleaved xs ++ tail) :
    ∃ buf : RxFrame, (∀ i ≤ frameLen o, buf.word i = busWord p o d1 d2 i) ∧
      rest p (s.goto (.start j)) =
        frameReceived p key buf { markPresent (clearReceived (clearKey key s)) with rxq := tail } := by
  have hlen : xs.length = frameLen o + 1 := by rw [← frame_length p.busAddress o d1 d2, ← hfst, List.length_map]
  have hwords : ∀ i (h : i < xs.length), xs[i].1 = busWord p o d1 d2 i :=
    fst_eq_busWord (by rw [hfst, List.take_of_length_le (by rw [frame_length, hlen])])
  obtain ⟨buf, q, hb, hf, hr⟩ :=
    rest_receive_words hj ho (List.ne_nil_of_length_eq_add_one hlen) (Nat.le_of_eq hlen) hwords hq
  rw [hlen, Nat.add_sub_cancel] at hb hr
  obtain ⟨hone, hthree⟩ := frameLen_of_valid o ho
  have hlast : ¬ frameLen o < buf.len := by rw [len_of_opcWord ho (hb 1 hone)]; omega
  refine ⟨buf, hb, ?_⟩
  rw [hr, rest_gotWord_accepted (wordOk_busWord ho (by omega) (hb _ (Nat.le_refl _))) hf
    (nextWord_last (by omega) hlast)]
  exact rest_of_idle (by cases key <;> rfl)

/-- The registers of a whole frame hold what it was built from (R120). -/
theorem storeFrame_of_busWords {buf : RxFrame} (ho : validOpcode o = true)
    (hb : ∀ i ≤ frameLen o, buf.word i = busWord p o d1 d2 i) (s : State) :
    storeFrame buf s =
      { s with
        rOpc := o, rD1 := if 2 ≤ frameLen o then d1 else 0, rD2 := if frameLen o = 3 then d2 else 0,
        rLen := BitVec.ofNat 2 (frameLen o) } := by
  have hopc : buf.w1 = opcWord o := hb 1 (frameLen_of_valid o ho).1
  have hd1 : 2 ≤ frameLen o → buf.w2.payload = d1 := fun h => by
    rw [show buf.w2 = dataWord d1 from hb 2 h, dataWord_payload]
  have hd2 : frameLen o = 3 → buf.w3.payload = d2 := fun h => by
    rw [show buf.w3 = dataWord d2 from hb 3 (Nat.le_of_eq h.symm), dataWord_payload]
  rw [storeFrame, len_of_opcWord ho hopc, hopc, opcWord_payload]
  congr 1
  · exact ite_congr rfl hd1 fun _ => rfl
  · exact ite_congr rfl hd2 fun _ => rfl

/-- RDCMD, undisturbed, with a whole frame to the bus address in RXQ ends with the frame in its registers (R120). -/
theorem rdcmd_takes_frame (ha : Alone s) (ho : validOpcode o = true)
    (hfst : xs.map Prod.fst = frame Config.params.busAddress o d1 d2)
    (hq : s.rxq = inbound Config.params.rxAckInterleaved xs ++ tail) :
    exec (.rdcmd blk) s =
      .next { s with
        rErr := .noError, rField := .fNone, rPresent := true, rOpc := o,
        rD1 := if 2 ≤ frameLen o then d1 else 0, rD2 := if frameLen o = 3 then d2 else 0,
        rLen := BitVec.ofNat 2 (frameLen o), rxq := tail } := by
  have hexec : exec (.rdcmd blk) s = operate Config.params (.rdcmd blk) s := rfl
  obtain ⟨buf, hb, hr⟩ := rest_receive_frame (key := false) (blk := blk) rfl ho hfst hq
  rw [hexec, operate_of_alone ha]
  refine congrArg _ (hr.trans ?_)
  rw [frameReceived, if_neg Bool.false_ne_true, storeFrame_of_busWords ho hb]
  exact eq_of_eq_with_idle (isIdle_iff.mp ha.1) rfl

end ReceivedFrame

end Sys2Proof.Machine
end

section
/-! The statements about the encoding (spec/30_encoding.md), settled: requests and rows decoded, the row a SEND
selects, and frames sent and received. -/

namespace Sys2Proof.Machine

open Sys2Proof.Safety

/-- Settles O1: each HOP and each opcode operand selects its own row, and the fields of the packed word are the
operands. -/
theorem decodeEncodeAgree : Obligations.DecodeEncodeAgree := by
  unfold Obligations.DecodeEncodeAgree
  intro i hwf
  cases i
  case send a o d1 d2 ign => exact congrArg _ (decodeReq_packReq_send a o d1 d2 ign)
  case waitrdy o => exact congrArg _ (decodeReq_packReq_waitrdy 0 o 0 0 false)
  case rdcmd blk => exact congrArg _ ((decodeReq_rdcmd (reqHop_packReq ..)).trans (by rw [reqF_packReq]))
  case rdkey blk => exact congrArg _ ((decodeReq_rdkey (reqHop_packReq ..)).trans (by rw [reqF_packReq]))
  case flushrx => exact congrArg _ (decodeReq_flushrx (reqHop_packReq ..))
  case setkbd l => exact congrArg _ ((decodeReq_setkbd (reqHop_packReq ..)).trans (by rw [reqF_packReq]))
  case a2p c => exact congrArg _ ((decodeReq_a2p (reqHop_packReq ..)).trans (by rw [reqD1_packReq]))
  case p2a pos => exact congrArg _ ((decodeReq_p2a (reqHop_packReq ..)).trans (by rw [reqD1_packReq]))
  case reservedHop hop =>
    have hle : 0x8 ≤ hop := le_of_and_0x8 (eq_of_beq hwf)
    have hhop : reqHop (encode (.reservedHop hop)) = hop := reqHop_packReq ..
    exact congrArg _ ((decodeReq_reservedHop (by rwa [hhop])).trans (by rw [hhop]))
  case invalidOpc0f u => exact decodeCommand_packReq_invalid 0 0 0 false u (by decide)
  case invalidOpc10_1f u o =>
    have h : o &&& 0xF0 = 0x10 := eq_of_beq hwf
    exact decodeCommand_packReq_row u h (by decide) (by decide) (invalidOpcode_10_1f u h)
  case invalidOpc20_3f u o =>
    have h : o &&& 0xE0 = 0x20 := eq_of_beq hwf
    exact decodeCommand_packReq_row u h (by decide) (by decide) (invalidOpcode_20_3f u h)
  case invalidOpc40_7f u o =>
    have h : o &&& 0xC0 = 0x40 := eq_of_beq hwf
    exact decodeCommand_packReq_row u h (by decide) (by decide) (invalidOpcode_40_7f u h)
  case invalidOpc80_ff u o =>
    have h : o &&& 0x80 = 0x80 := eq_of_beq hwf
    exact decodeCommand_packReq_row u h (by decide) (by decide) (invalidOpcode_80_ff u h)
  all_goals exact decodeCommand_packReq_send ..

/-- Settles O50: a SEND without an error has sent FRAME, and RDCMD takes FRAME to its registers. -/
theorem sentFramesAreReceived : Obligations.SentFramesAreReceived := by
  unfold Obligations.SentFramesAreReceived
  intro o d1 d2 ign blk s t u xs rest ha ho h hi he hsent hu hq
  have hframe : xs.map Prod.fst = frame Config.params.busAddress o d1 d2 :=
    List.append_cancel_left (hsent.symm.trans (txs_of_send_noError ha ho h hi he))
  have hlen : (BitVec.ofNat 2 (frameLen o)).toNat = frameLen o := by
    have hle := frameLen_le o
    rw [BitVec.toNat_ofNat]
    omega
  exact ⟨_, rdcmd_takes_frame hu ho hframe hq, hu.1, rfl, rfl, rfl, hlen, fun h => if_pos h, fun h => if_pos h, rfl⟩

/-- Settles O7: the row of the opcode runs SEND's algorithm with it, and is in one of the three lists. -/
theorem sendIsTheWireCommand : Obligations.SendIsTheWireCommand := by
  unfold Obligations.SendIsTheWireCommand
  intro a o d1 d2 ign ho
  refine ⟨fun s => (exec_wireCommand a d1 d2 ign ho s).symm, ?_⟩
  obtain ⟨c, hc, rfl⟩ := opcode_mem_allCommands ho
  exact ⟨c, hc, rfl, wireCommand_of_mem hc a d1 d2 ign⟩

/-- Settles O19: the exchanges pass the frame's checks, so the frame is sent whole. -/
theorem sendCompletes : Obligations.SendCompletes := by
  unfold Obligations.SendCompletes
  intro a o d1 d2 ign s xs rest ha ho hlen hack hq
  have hne : xs ≠ [] := List.ne_nil_of_length_eq_add_one hlen
  have hpass : Passes (.send ign) (loadFrame a o d1 d2) xs := passes_loadFrame (Nat.le_of_eq hlen) hack
  rw [exec_send_of_alone ha ho, rest_sendWord_sent (s := setResp 0 s) ((Nat.zero_add _).trans hlen) hne hpass hq,
    frameSent, rest_of_idle rfl, hlen, wordsFrom_loadFrame_eq_frame,
    finish_exchangedState xs rest _ (isIdle_iff.mp ha.1)]

/-- Settles O2: for each HOP the decoder reads the fields that agree, and for a reserved HOP none. -/
theorem unreadFieldsAreIgnored : Obligations.UnreadFieldsAreIgnored := by
  unfold Obligations.UnreadFieldsAreIgnored
  intro r r' hhop hsend hopc hflag hd1
  refine ⟨?_, decodeReq_reservedHop⟩
  rcases hop_cases (reqHop r) with h | h | h | h | h | h | h | h | h
  all_goals have h' := hhop ▸ h
  · obtain ⟨eaddr, eopc, ed1, ed2, ef⟩ := hsend h
    rw [decodeReq_send h, decodeReq_send h', eaddr, eopc, ed1, ed2, ef]
  · rw [decodeReq_waitrdy h, decodeReq_waitrdy h', hopc h]
  · rw [decodeReq_rdcmd h, decodeReq_rdcmd h', hflag (.inl h)]
  · rw [decodeReq_rdkey h, decodeReq_rdkey h', hflag (.inr (.inl h))]
  · rw [decodeReq_flushrx h, decodeReq_flushrx h']
  · rw [decodeReq_setkbd h, decodeReq_setkbd h', hflag (.inr (.inr h))]
  · rw [decodeReq_a2p h, decodeReq_a2p h', hd1 (.inl h)]
  · rw [decodeReq_p2a h, decodeReq_p2a h', hd1 (.inr h)]
  · rw [decodeReq_reservedHop h, decodeReq_reservedHop h', hhop]

/-- Settles O3: each word is decoded by computation. -/
theorem sampleWordsDecode : Obligations.SampleWordsDecode :=
  ⟨rfl, rfl, rfl, rfl, rfl, rfl, rfl, rfl, rfl, rfl, rfl, rfl, rfl, rfl⟩

/-- Settles O4: these are the expansions `AsmLine.instr` gives. -/
theorem pseudoOperationsExpand : Obligations.PseudoOperationsExpand := fun _ _ => ⟨rfl, rfl, rfl⟩

/-- Settles O6: the word's request is the host's next turn, and it runs as the row's instruction. -/
theorem stepRunsTheTableWord : Obligations.StepRunsTheTableWord := by
  unfold Obligations.StepRunsTheTableWord
  intro s nbits w i h
  obtain ⟨l, r, ht, hi⟩ := decodeTableWord_eq_some h
  exact ⟨r, by rw [step_withFetchWord ht, exec_decodeReq_of_tableRequest ht hi]⟩

/-- Settles O18: the decoder reads the reserved row, which `exec` refuses whatever the state. -/
theorem reservedRequestIsRefused : Obligations.ReservedRequestIsRefused := by
  unfold Obligations.ReservedRequestIsRefused
  intro s h
  refine ⟨rfl, fun r ts hn hr => ?_⟩
  simp only [step, hn]
  rw [decodeReq_reservedHop hr]
  rfl

end Sys2Proof.Machine
end

section
/-! SUPPORT. The wire commands and the invalid opcode operands as undisturbed runs (spec/40_wire_commands.md): a command
completes, stops at the response of a word or holds at it as the SEND of its opcode does, and an invalid operand ends
its operation in the first engine step. -/

namespace Sys2Proof.Machine

open Sys2Proof.Safety

variable {p : Params} {s : State} {a : BusAddr} {o d1 d2 : Byte} {ign : Bool}

/-! ### A response that is not an ACK (R103) -/

/-- With ign = 0 the response to word k is checked but for the opcode word of a frame of length 1 (R103). -/
theorem ackChecked_loadFrame {k : Nat} (hk : ¬ (frameLen o = 1 ∧ k = 1)) :
    ackChecked (.send false) { loadFrame a o d1 d2 with k := k } = true := by
  simpa [ackChecked, TxCtx.ignoresAcks, loadFrame] using not_and_or.mp hk

/-- SEND, undisturbed, ends at the first checked response that is not an ACK (R100, R103). -/
theorem exec_send_mismatch {xs : List (Word9 × Word9)} {e r : Word9} {rest : List Word9} (ha : Alone s)
    (ho : validOpcode o = true) (hlen : xs.length ≤ frameLen o) (hack : ∀ x ∈ xs, x.2 = 0) (hr : r ≠ 0)
    (hq : s.rxq = exchanged xs ++ e :: r :: rest) (hk : ¬ (frameLen o = 1 ∧ xs.length = 1)) :
    exec (.send a o d1 d2 false) s =
      .next { s with
        rErr := .ackMismatch, rField := fieldCode xs.length, rResp := r,
        txs := s.txs ++ (frame a o d1 d2).take (xs.length + 1), rxq := rest } := by
  have hpass : Passes (.send false) (loadFrame a o d1 d2) xs :=
    passes_loadFrame (Nat.le_succ_of_le hlen) (.inr (acked_of_all (frameLen o) hack))
  have hword : (loadFrame a o d1 d2).k + xs.length = xs.length := Nat.zero_add _
  rw [exec_send_of_alone ha ho, ← wordsFrom_loadFrame_eq_take_frame a o d1 d2 (Nat.succ_le_succ hlen),
    rest_sendWord_mismatch (s := setResp 0 s) (by rw [hword]; exact Nat.lt_succ_of_le hlen) hpass hq
      (by rw [hword]; exact ackChecked_loadFrame hk) hr, hword]
  exact congrArg _ (eq_of_eq_with_idle (isIdle_iff.mp ha.1) rfl)

/-! ### The fifteen wire commands (R80 to R94) -/

section WireCommand

variable {c : (BusAddr → Byte → Byte → Bool → Instr) × Byte}

theorem validOpcode_of_mem : ∀ c ∈ allCommands, validOpcode c.2 = true := by decide

theorem frameLen_of_mem_lengthOne : ∀ c ∈ lengthOneCommands, frameLen c.2 = 1 := by decide

theorem frameLen_of_mem_lengthTwo : ∀ c ∈ lengthTwoCommands, frameLen c.2 = 2 := by decide

theorem frameLen_of_mem_lengthThree : ∀ c ∈ lengthThreeCommands, frameLen c.2 = 3 := by decide

theorem mem_allCommands_of_lengthOne (hc : c ∈ lengthOneCommands) : c ∈ allCommands :=
  List.mem_append_left _ (List.mem_append_left _ hc)

theorem mem_allCommands_of_lengthTwo (hc : c ∈ lengthTwoCommands) : c ∈ allCommands :=
  List.mem_append_left _ (List.mem_append_right _ hc)

theorem mem_allCommands_of_lengthThree (hc : c ∈ lengthThreeCommands) : c ∈ allCommands :=
  List.mem_append_right _ hc

/-- A frame by the length of its opcode (R64, R66). -/
theorem frame_of_frameLen {n : Nat} (h : frameLen o = n) :
    frame a o d1 d2 = [addrWord a, opcWord o, dataWord d1, dataWord d2].take (n + 1) := by
  rw [frame, h]

variable {xs : List (Word9 × Word9)} {ws : List Word9} (hc : c ∈ allCommands) (hws : frame a c.2 d1 d2 = ws)
  (ha : Alone s)
include hc

/-- A wire command runs the SEND of its opcode (R62, R63). -/
theorem exec_command (a : BusAddr) (d1 d2 : Byte) (ign : Bool) (s : State) :
    exec (c.1 a d1 d2 ign) s = exec (.send a c.2 d1 d2 ign) s := by
  rw [← wireCommand_of_mem hc a d1 d2 ign, exec_wireCommand a d1 d2 ign (validOpcode_of_mem c hc)]

include hws ha

/-- A wire command, undisturbed, that gets every response, the checked ones ACKs, has sent its frame (R66, R100). -/
theorem command_completes {rest : List Word9} (hlen : xs.length = frameLen c.2 + 1)
    (hack : ign = true ∨ acked (frameLen c.2) xs) (hq : s.rxq = exchanged xs ++ rest) :
    exec (c.1 a d1 d2 ign) s =
      .next { s with
        rErr := .noError, rField := .fNone, rResp := lastResponse xs, txs := s.txs ++ ws, rxq := rest } := by
  rw [exec_command hc, ← hws]
  exact sendCompletes a c.2 d1 d2 ign s xs rest ha (validOpcode_of_mem c hc) hlen hack hq

/-- A wire command, undisturbed, ends at the first checked response that is not an ACK (R103). -/
theorem command_mismatch {e r : Word9} {rest : List Word9} (hign : ign = false) (hlen : xs.length ≤ frameLen c.2)
    (hk : ¬ (frameLen c.2 = 1 ∧ xs.length = 1)) (hack : ∀ x ∈ xs, x.2 = 0) (hr : r ≠ 0)
    (hq : s.rxq = exchanged xs ++ e :: r :: rest) :
    exec (c.1 a d1 d2 ign) s =
      .next { s with
        rErr := .ackMismatch, rField := fieldCode xs.length, rResp := r, txs := s.txs ++ ws.take (xs.length + 1),
        rxq := rest } := by
  rw [exec_command hc, ← hws, hign]
  exact exec_send_mismatch ha (validOpcode_of_mem c hc) hlen hack hr hq hk

/-- A wire command, undisturbed, on a bus that falls silent holds with the word in progress sent (R13, R163). -/
theorem command_holds {tail : List Word9} (hlen : xs.length ≤ frameLen c.2) (hack : ign = true ∨ ∀ x ∈ xs, x.2 = 0)
    (ht : tail.length ≤ 1) (hq : s.rxq = exchanged xs ++ tail) :
    ∃ t, exec (c.1 a d1 d2 ign) s = .next t ∧ Holds Config.params t ∧ t.rxq = [] ∧
      t.txs = s.txs ++ ws.take (xs.length + 1) := by
  rw [exec_command hc, ← hws]
  exact sendHoldsOnASilentBus a c.2 d1 d2 ign s xs tail ha (validOpcode_of_mem c hc) hlen hack ht hq _
    List.mem_cons_self

end WireCommand

/-! ### Opcode operands that are never transmitted (R95, R96) -/

/-- The operands above 0x0E are the invalid ones (R63, R96). -/
theorem validOpcode_eq_false_of_gt (h : 0x0E < o) : validOpcode o = false :=
  decide_eq_false (BitVec.not_le.mpr h)

/-- SEND's first step rejects an invalid opcode (R96, R100). -/
theorem beginSend_of_invalid (ho : validOpcode o = false) :
    beginSend a o d1 d2 ign s = raise .invalidOpcode .fOpc (setResp 0 s) := by
  rw [beginSend, ho, if_neg Bool.false_ne_true]

/-- WAITRDY's first step rejects an invalid opcode (R96, R101). -/
theorem beginWaitrdy_of_invalid (ho : validOpcode o = false) :
    beginWaitrdy p o s = raise .invalidOpcode .fOpc (setResp 0 s) := by
  rw [beginWaitrdy, ho, if_neg Bool.false_ne_true]

/-- An operation that runs alone and whose first engine step rejects its opcode writes the three status registers and
nothing else (R95, R96). -/
theorem operate_of_alone_of_rejects {j : Job} (ha : Alone s)
    (hj : beginJob p j (s.goto (.start j)) = some (raise .invalidOpcode .fOpc (setResp 0 (s.goto (.start j))))) :
    operate p j s = .next { s with rErr := .invalidOpcode, rField := .fOpc, rResp := 0 } :=
  (operate_of_alone_of_ends ha hj rfl).trans (congrArg _ (eq_of_eq_with_idle (isIdle_iff.mp ha.1) rfl))

/-- SEND, undisturbed, rejects an invalid opcode (R95, R96). -/
theorem exec_send_of_invalid (ha : Alone s) (ho : validOpcode o = false) :
    exec (.send a o d1 d2 ign) s = .next { s with rErr := .invalidOpcode, rField := .fOpc, rResp := 0 } :=
  operate_of_alone_of_rejects ha (congrArg some (beginSend_of_invalid ho))

/-- WAITRDY, undisturbed, rejects an invalid opcode (R95, R96). -/
theorem exec_waitrdy_of_invalid (ha : Alone s) (ho : validOpcode o = false) :
    exec (.waitrdy o) s = .next { s with rErr := .invalidOpcode, rField := .fOpc, rResp := 0 } :=
  operate_of_alone_of_rejects ha (congrArg some (beginWaitrdy_of_invalid ho))

/-- Either operation that reads an invalid opcode operand rejects it (R95, R96). -/
theorem rejectOpcode_of_alone (ha : Alone s) (u : OpcUser) (ho : validOpcode o = false) :
    rejectOpcode u o s = .next { s with rErr := .invalidOpcode, rField := .fOpc, rResp := 0 } := by
  cases u
  case send => exact exec_send_of_invalid ha ho
  case waitrdy => exact exec_waitrdy_of_invalid ha ho

end Sys2Proof.Machine
end

section
/-! The statements about the wire commands (spec/40_wire_commands.md), settled: the commands of each length, and the
opcode operands that are never transmitted. -/

namespace Sys2Proof.Machine

open Sys2Proof.Safety

/-- Settles O20: the frame is the address word and the opcode word, and only the response to the first is checked. -/
theorem lengthOneCommandsRun : Obligations.LengthOneCommandsRun := by
  unfold Obligations.LengthOneCommandsRun
  intro c hc a d1 d2 ign s ha
  have hmem := mem_allCommands_of_lengthOne hc
  have hlen := frameLen_of_mem_lengthOne c hc
  have hframe : frame a c.2 d1 d2 = [addrWord a, opcWord c.2] := frame_of_frameLen hlen
  refine ⟨?_, ?_, ?_, ?_⟩
  · intro e0 r0 e1 r1 rest hq hack
    exact command_completes (xs := [(e0, r0), (e1, r1)]) hmem hframe ha (by rw [hlen]; rfl)
      (hack.imp_right fun h0 => by simp [acked, hlen, h0]) hq
  · intro e0 r0 rest hq hign hr
    exact command_mismatch (xs := []) hmem hframe ha hign (Nat.zero_le _) (by simp) (by simp) hr hq
  · intro hq
    exact command_holds (xs := []) hmem hframe ha (Nat.zero_le _) (by simp) hq rfl
  · intro e0 r0 tail hq ht hack
    exact command_holds (xs := [(e0, r0)]) hmem hframe ha (by rw [hlen]; rfl) (by simpa using hack) ht hq

/-- Settles O21: the frame is the address word, the opcode word and one data word, and every response is checked. -/
theorem lengthTwoCommandsRun : Obligations.LengthTwoCommandsRun := by
  unfold Obligations.LengthTwoCommandsRun
  intro c hc a d1 d2 ign s ha
  have hmem := mem_allCommands_of_lengthTwo hc
  have hlen := frameLen_of_mem_lengthTwo c hc
  have hframe : frame a c.2 d1 d2 = [addrWord a, opcWord c.2, dataWord d1] := frame_of_frameLen hlen
  refine ⟨?_, ?_, ?_⟩
  · intro e0 r0 e1 r1 e2 r2 rest hq hack
    exact command_completes (xs := [(e0, r0), (e1, r1), (e2, r2)]) hmem hframe ha (by rw [hlen]; rfl)
      (hack.imp_right fun hall => acked_of_all _ (by simpa using hall)) hq
  · intro xs e r rest hq hxs hack hign hr
    exact command_mismatch hmem hframe ha hign (hlen ▸ hxs) (by omega) hack hr hq
  · intro xs tail hq hxs ht hack
    exact command_holds hmem hframe ha (hlen ▸ hxs) hack ht hq

/-- Settles O22: the frame is the address word, the opcode word and both data words, and every response is checked. -/
theorem lengthThreeCommandsRun : Obligations.LengthThreeCommandsRun := by
  unfold Obligations.LengthThreeCommandsRun
  intro c hc a d1 d2 ign s ha
  have hmem := mem_allCommands_of_lengthThree hc
  have hlen := frameLen_of_mem_lengthThree c hc
  have hframe : frame a c.2 d1 d2 = [addrWord a, opcWord c.2, dataWord d1, dataWord d2] := frame_of_frameLen hlen
  refine ⟨?_, ?_, ?_⟩
  · intro e0 r0 e1 r1 e2 r2 e3 r3 rest hq hack
    exact command_completes (xs := [(e0, r0), (e1, r1), (e2, r2), (e3, r3)]) hmem hframe ha (by rw [hlen]; rfl)
      (hack.imp_right fun hall => acked_of_all _ (by simpa using hall)) hq
  · intro xs e r rest hq hxs hack hign hr
    exact command_mismatch hmem hframe ha hign (hlen ▸ hxs) (by omega) hack hr hq
  · intro xs tail hq hxs ht hack
    exact command_holds hmem hframe ha (hlen ▸ hxs) hack ht hq

/-- Settles O25: SEND, WAITRDY and the row of the operand end in the first engine step, which rejects it. -/
theorem invalidOpcodesAreRejected : Obligations.InvalidOpcodesAreRejected := by
  unfold Obligations.InvalidOpcodesAreRejected
  refine ⟨rfl, fun s ha o hgt a d1 d2 ign u i hi => ?_⟩
  have ho := validOpcode_eq_false_of_gt hgt
  simp only [List.mem_cons, List.not_mem_nil, or_false] at hi
  rcases hi with rfl | rfl | rfl
  · exact exec_send_of_invalid ha ho
  · exact exec_waitrdy_of_invalid ha ho
  · rw [exec_invalidOpcode u ho, rejectOpcode_of_alone ha u ho]

/-- Settles O26: no operand a row admits is a valid opcode, so the operation that reads it rejects it. -/
theorem invalidOpcodeRowsReject : Obligations.InvalidOpcodeRowsReject := by
  unfold Obligations.InvalidOpcodeRowsReject
  intro s ha u o i hi hwf
  simp only [List.mem_cons, List.not_mem_nil, or_false] at hi
  rcases hi with rfl | rfl | rfl | rfl | rfl
  · exact rejectOpcode_of_alone ha u rfl
  all_goals refine rejectOpcode_of_alone ha u (not_validOpcode_of_and_eq (eq_of_beq hwf) ?_ ?_) <;> decide

end Sys2Proof.Machine
end

section
/-! SUPPORT. The ACK checker, the echo suppressor and the status poller as undisturbed runs (spec/41_transmit.md): what
follows a response, transmissions that differ in their echoes, and the polls of WAITRDY one after another. -/

namespace Sys2Proof.Machine

open Sys2Proof.Safety

variable {p : Params} {s t : State} {o : Byte}

/-! ### Exchanges one after another (R100) -/

/-- The words of exchanges that follow others come after theirs. -/
theorem exchanged_append (xs ys : List (Word9 × Word9)) : exchanged (xs ++ ys) = exchanged xs ++ exchanged ys :=
  List.flatMap_append

/-- The last response of exchanges is that of the last of them. -/
theorem lastResponse_append (xs : List (Word9 × Word9)) {ys : List (Word9 × Word9)} (h : ys ≠ []) :
    lastResponse (xs ++ ys) = lastResponse ys := by
  obtain ⟨zs, z, rfl⟩ := (List.eq_nil_or_concat ys).resolve_left h
  simp [lastResponse, ← List.append_assoc]

/-- Exchanges and those that follow them leave what all of them together leave. -/
theorem exchangedState_exchangedState (s : State) (xs ys : List (Word9 × Word9)) (q q' ws vs : List Word9) :
    exchangedState (exchangedState s xs q ws) ys q' vs = exchangedState s (xs ++ ys) q' (ws ++ vs) := by
  rcases ys.eq_nil_or_concat with rfl | ⟨zs, z, rfl⟩ <;> simp [exchangedState, ← List.append_assoc]

/-- Exchanges, one at least, leave their last response in R_RESP. -/
theorem exchangedState_of_ne_nil {xs : List (Word9 × Word9)} (h : xs ≠ []) (s : State) (q ws : List Word9) :
    exchangedState s xs q ws = { s with rResp := lastResponse xs, rxq := q, txs := s.txs ++ ws } := by
  obtain ⟨zs, z, rfl⟩ := (List.eq_nil_or_concat xs).resolve_left h
  simp [exchangedState, lastResponse]

/-! ### Echoes (R102) -/

/-- Two states that differ at most in the words of RXQ, of which they have equally many. -/
def SameButQueue (t u : State) : Prop :=
  t.rxq.length = u.rxq.length ∧ ({ t with rxq := [] } : State) = { u with rxq := [] }

theorem SameButQueue.refl (t : State) : SameButQueue t t := ⟨rfl, rfl⟩

/-- The words of exchanges are two for each of them. -/
theorem length_exchanged (xs : List (Word9 × Word9)) : (exchanged xs).length = 2 * xs.length := by
  simp [exchanged, Nat.mul_comm]

/-- The response and the frame alone decide what follows a response: the end of the operation, or the next word
written (R100 to R103). -/
theorem afterResponse_ends_or_sends (p : Params) (x : TxCtx) (f : TxFrame) (r : Word9) :
    (∃ e c, ∀ s, afterResponse p x f r s = (setResp r s).endOp e c) ∨
    (∃ x' f', ∀ s, afterResponse p x f r s = sendWord x' f' (setResp r s)) := by
  by_cases hbad : (ackChecked x f && r != 0) = true
  · exact .inl ⟨_, _, fun s => if_pos hbad⟩
  by_cases hmore : f.k + 1 < f.txn
  · exact .inr ⟨_, _, fun s => (if_neg hbad).trans (if_pos hmore)⟩
  have hsent : ∀ s, afterResponse p x f r s = frameSent p x (setResp r s) := fun s =>
    (if_neg hbad).trans (if_neg hmore)
  cases x with
  | send ign => exact .inl ⟨_, _, hsent⟩
  | poll o =>
    by_cases hr : r = 0
    · exact .inl ⟨_, _, fun s => (hsent s).trans (if_pos hr)⟩
    · exact .inr ⟨_, _, fun s => (hsent s).trans (if_neg hr)⟩

/-- Two transmissions that read the same responses come to rest alike, whatever their echoes (R102). -/
theorem rest_sendWord_echoes (q : List Word9) : ∀ (xs ys : List (Word9 × Word9)) (x : TxCtx) (f : TxFrame) (s : State),
    xs.map Prod.snd = ys.map Prod.snd →
    SameButQueue (rest p (sendWord x f { s with rxq := exchanged xs ++ q }))
      (rest p (sendWord x f { s with rxq := exchanged ys ++ q })) := by
  intro xs
  induction xs with
  | nil =>
    intro ys x f s h
    obtain rfl : ys = [] := List.map_eq_nil_iff.mp h.symm
    exact .refl _
  | cons y xs ih =>
    intro ys x f s h
    obtain ⟨z, ys, rfl⟩ := List.exists_cons_of_ne_nil (l := ys) (by rintro rfl; cases h)
    obtain ⟨e, r⟩ := y
    obtain ⟨e', r'⟩ := z
    obtain ⟨rfl, htail⟩ : r = r' ∧ xs.map Prod.snd = ys.map Prod.snd := List.cons_eq_cons.mp h
    rw [rest_exchange (e := e) (r := r) (q := exchanged xs ++ q) rfl,
      rest_exchange (e := e') (r := r) (q := exchanged ys ++ q) rfl]
    rcases afterResponse_ends_or_sends p x f r with ⟨err, c, hend⟩ | ⟨x', f', hsend⟩
    · have hlen : xs.length = ys.length := by simpa using congrArg List.length htail
      rw [hend, hend, rest_of_idle rfl, rest_of_idle rfl]
      refine ⟨?_, rfl⟩
      simp [length_exchanged, hlen]
    · rw [hsend, hsend]
      exact ih ys x' f' (setResp r (({ s with txs := s.txs ++ [f.word f.k] } : State).goto (.tx x f (.got r)))) htail

/-! ### Polls of WAITRDY (R101) -/

section Polls

variable {xs : List (Word9 × Word9)} {q : List Word9}

/-- WAITRDY of a valid opcode, undisturbed, is its polls with R_RESP cleared (R101). -/
theorem exec_waitrdy_of_alone (ha : Alone s) (ho : validOpcode o = true) :
    exec (.waitrdy o) s = .next (rest Config.params (startPoll Config.params o (setResp 0 s))) := by
  have hexec : exec (.waitrdy o) s = operate Config.params (.waitrdy o) s := rfl
  rw [hexec, operate_of_alone ha, rest_startWaitrdy ho]

/-- No response to a poll is checked (R101). -/
theorem passes_poll (o : Byte) (f : TxFrame) (xs : List (Word9 × Word9)) : Passes (.poll o) f xs :=
  fun _ _ hc => absurd hc Bool.false_ne_true

/-- A poll that gets every response sends its frame and goes on by the last of them (R101). -/
theorem rest_poll_answered (hlen : xs.length = frameLen o + 1) (hq : s.rxq = exchanged xs ++ q) :
    rest p (startPoll p o s) =
      rest p (frameSent p (.poll o) ((exchangedState s xs q (frame p.busAddress o 0 0)).goto
        (.tx (.poll o) { loadFrame p.busAddress o 0 0 with k := frameLen o } (.got (lastResponse xs))))) := by
  have hne : xs ≠ [] := List.ne_nil_of_length_eq_add_one hlen
  have hk : (loadFrame p.busAddress o 0 0).k + xs.length = (loadFrame p.busAddress o 0 0).txn :=
    (Nat.zero_add _).trans hlen
  rw [← wordsFrom_loadFrame_eq_frame, ← hlen]
  exact rest_sendWord_sent hk hne (passes_poll o _ xs) hq

/-- A poll whose last response is not 0 is followed by the next poll (R101). -/
theorem rest_poll_busy (hlen : xs.length = frameLen o + 1) (hbusy : lastResponse xs ≠ 0)
    (hq : s.rxq = exchanged xs ++ q) :
    rest p (startPoll p o s) = rest p (startPoll p o (exchangedState s xs q (frame p.busAddress o 0 0))) := by
  have hne : xs ≠ [] := List.ne_nil_of_length_eq_add_one hlen
  rw [rest_poll_answered hlen hq, exchangedState_of_ne_nil hne, frameSent, goto_rResp, if_neg hbusy]
  rfl

/-- A poll whose last response is 0 ends WAITRDY (R101). -/
theorem rest_poll_idle (hlen : xs.length = frameLen o + 1) (hidle : lastResponse xs = 0)
    (hq : s.rxq = exchanged xs ++ q) :
    rest p (startPoll p o s) = finish { s with rResp := 0, rxq := q, txs := s.txs ++ frame p.busAddress o 0 0 } := by
  have hne : xs ≠ [] := List.ne_nil_of_length_eq_add_one hlen
  rw [rest_poll_answered hlen hq, exchangedState_of_ne_nil hne, hidle, frameSent, goto_rResp, if_pos rfl,
    rest_of_idle rfl]
  rfl

/-- Any number of polls whose last responses are not 0 are followed by the next poll (R101). -/
theorem rest_polls_busy (q : List Word9) : ∀ (busy : List (List (Word9 × Word9))) (s : State),
    (∀ xs ∈ busy, xs.length = frameLen o + 1 ∧ lastResponse xs ≠ 0) → s.rxq = exchanged busy.flatten ++ q →
    rest p (startPoll p o s) =
      rest p (startPoll p o
        (exchangedState s busy.flatten q (List.replicate busy.length (frame p.busAddress o 0 0)).flatten)) := by
  intro busy
  induction busy with
  | nil =>
    intro s _ hq
    have hq' : s.rxq = q := hq
    simp [exchangedState, ← hq']
  | cons xs busy ih =>
    intro s hbusy hq
    obtain ⟨⟨hlen, hlast⟩, hrest⟩ := List.forall_mem_cons.mp hbusy
    rw [List.flatten_cons, exchanged_append, List.append_assoc] at hq
    rw [rest_poll_busy hlen hlast hq, ih _ hrest rfl, exchangedState_exchangedState]
    rfl

/-- A poll with RXQ empty holds at the echo of its address word (R13, R101). -/
theorem engineStep_startPoll_of_empty (h : s.rxq = []) : engineStep p (startPoll p o s) = none := by
  simp [startPoll, startFrame, sendWord, engineStep, txStep, chanRead, chanWrite, State.goto, h]

/-- A step of a poll that ends WAITRDY is the work on a last response 0 (R101). -/
theorem eq_finish_of_poll_ends {f : TxFrame} {ph : TxPhase} (h : txStep p (.poll o) f ph s = some t)
    (hi : t.isIdle = true) : t = finish (setResp 0 s) := by
  cases ph
  case echo =>
    obtain ⟨w, q, -, rfl⟩ := chanRead_goto_word (g := fun _ => .tx (.poll o) f .resp) h
    cases hi
  case resp =>
    obtain ⟨w, q, -, rfl⟩ := chanRead_goto_word (g := fun w => .tx (.poll o) f (.got w)) h
    cases hi
  case got r =>
    obtain rfl : afterResponse p (.poll o) f r s = t := Option.some.inj h
    rw [afterResponse_poll] at hi ⊢
    split at hi
    · cases hi
    · next hlast =>
      rw [frameSent, setResp_rResp] at hi
      split at hi
      · next hr => rw [if_neg hlast, frameSent, setResp_rResp, if_pos hr, hr]
      · cases hi

end Polls

end Sys2Proof.Machine
end

section
/-! The statements about SEND's ACK and echo handling and about WAITRDY (spec/41_transmit.md), settled. -/

namespace Sys2Proof.Machine

open Sys2Proof.Safety

/-- Settles O23: SEND and the wire command are one operation, which ends at the checked response; the unchecked one is
the last of its frame, which is then sent whole. -/
theorem ackMismatchAbortsTheFrame : Obligations.AckMismatchAbortsTheFrame := by
  unfold Obligations.AckMismatchAbortsTheFrame
  intro a o d1 d2 s xs e r rest ha ho hlen hack hr hq i hi
  have hexec : exec i s = exec (.send a o d1 d2 false) s := exec_of_mem_send_wireCommand ho hi s
  rw [hexec]
  refine ⟨fun hk => exec_send_mismatch ha ho hlen hack hr hq hk, fun ⟨hone, hxs⟩ => ?_⟩
  have hacked : acked (frameLen o) (xs ++ [(e, r)]) := by
    rw [acked, if_pos hone, List.take_left' hxs]
    exact hack
  have hwords : s.rxq = exchanged (xs ++ [(e, r)]) ++ rest := by
    rw [hq, exchanged_append, List.append_assoc]
    rfl
  refine ⟨_, sendCompletes a o d1 d2 false s (xs ++ [(e, r)]) rest ha ho (by simp [hone, hxs]) (.inr hacked) hwords,
    ha.1, rfl, ?_, rfl⟩
  exact lastResponse_append xs (List.cons_ne_nil _ _)

/-- Settles O27: what follows each exchange is decided by its response. -/
theorem echoesAreIgnored : Obligations.EchoesAreIgnored := by
  unfold Obligations.EchoesAreIgnored
  intro a o d1 d2 ign s xs ys rest ha ho _ hsame
  obtain ⟨hlen, heq⟩ := rest_sendWord_echoes (p := Config.params) rest xs ys (.send ign) (loadFrame a o d1 d2)
    (setResp 0 s) hsame
  exact ⟨_, _, exec_send_of_alone ha ho, exec_send_of_alone ha ho, hlen, heq⟩

/-- Settles O28: each busy poll is followed by the next, and the idle one ends WAITRDY. -/
theorem waitrdyPollsUntilIdle : Obligations.WaitrdyPollsUntilIdle := by
  unfold Obligations.WaitrdyPollsUntilIdle
  intro o s busy last rest ha ho hbusy hlen hidle hq
  rw [exchanged_append, List.append_assoc] at hq
  rw [exec_waitrdy_of_alone ha ho, rest_polls_busy (exchanged last ++ rest) busy (setResp 0 s) hbusy hq,
    rest_poll_idle hlen hidle rfl, List.replicate_succ', List.flatten_concat, ← List.append_assoc]
  exact congrArg _ (eq_of_eq_with_idle (isIdle_iff.mp ha.1) rfl)

/-- Settles O29: each busy poll is followed by the next, and the one after the last of them finds RXQ empty. -/
theorem waitrdyHoldsWhileBusy : Obligations.WaitrdyHoldsWhileBusy := by
  unfold Obligations.WaitrdyHoldsWhileBusy
  intro o s busy ha ho hbusy hq
  have hhold := engineStep_startPoll_of_empty (p := Config.params) (o := o) (s := exchangedState (setResp 0 s)
    busy.flatten [] (List.replicate busy.length (frame Config.params.busAddress o 0 0)).flatten) rfl
  refine ⟨_, ?_, ⟨rfl, hhold⟩, rfl⟩
  rw [exec_waitrdy_of_alone ha ho, rest_polls_busy [] busy (setResp 0 s) hbusy (by rw [List.append_nil]; exact hq),
    rest_of_none hhold]

/-- Settles O30: the step that ends a poll is the work on a last response 0. -/
theorem waitrdyEndsOnlyOnStatusZero : Obligations.WaitrdyEndsOnlyOnStatusZero := by
  unfold Obligations.WaitrdyEndsOnlyOnStatusZero
  intro p s t o f ph hs h hi
  have hstep : engineStep p s = txStep p (.poll o) f ph s := by rw [engineStep, hs]
  obtain rfl := eq_finish_of_poll_ends (hstep ▸ h) hi
  exact ⟨rfl, rfl, rfl⟩

end Sys2Proof.Machine
end

section
/-! SUPPORT. Receptions and the flush as undisturbed runs (spec/42_receive.md): the word after accepted words, a word
that fails its check, nothing pending, and the classification of a frame by the keypress map. -/

namespace Sys2Proof.Machine

open Sys2Proof.Safety

variable {p : Params} {s : State}

section Reception

variable {key blk : Bool} {o d1 d2 : Byte} {xs : List (Word9 × Word9)} {w : Word9} {tail : List Word9}

/-! ### Undisturbed receptions -/

/-- RDCMD or RDKEY, undisturbed, answers the state its reception comes to rest in, when that is an end (R23). -/
theorem exec_receive_of_rest {t u : State} (ha : Alone s)
    (hr : rest Config.params (s.goto (.start (if key then .rdkey blk else .rdcmd blk))) = u)
    (hu : u = { t with engine := .idle }) (ht : t.engine = s.engine) :
    exec (if key then .rdkey blk else .rdcmd blk) s = .next t := by
  have hexec : exec (if key then .rdkey blk else .rdcmd blk) s =
      operate Config.params (if key then .rdkey blk else .rdcmd blk) s := by cases key <;> rfl
  rw [hexec, operate_of_alone ha, hr, eq_of_eq_with_idle (ht.trans (isIdle_iff.mp ha.1)) hu]

/-! ### Words that fail their check (R121, R122) -/

/-- A word fails the check of its place in the frame: the address word, the opcode word, or a data word (R121). -/
theorem wordOk_eq_false {k : Nat} (haddr : k = 0 → w ≠ addrWord p.busAddress)
    (hopc : k = 1 → w.marker = true ∨ 0x0E < w.payload) (hdata : 2 ≤ k → w.marker = true) :
    wordOk p k w = false := by
  match k with
  | 0 => exact beq_eq_false_iff_ne.mpr (haddr rfl)
  | 1 =>
    rcases hopc rfl with hmarker | hpayload
    · simp [wordOk, hmarker]
    · simp [wordOk, validOpcode_eq_false_of_gt hpayload]
  | k + 2 => simp [wordOk, hdata (Nat.le_add_left 2 k)]

/-- RDCMD and RDKEY take the word that follows the first words of a frame, whatever it is (R120, R121). -/
theorem rest_receive_next_word {j : Job} (hj : j = if key then .rdkey blk else .rdcmd blk) (ho : validOpcode o = true)
    (hl : xs.length ≤ frameLen o) (hx : ∀ i (h : i < xs.length), xs[i].1 = busWord p o d1 d2 i)
    (hq : s.rxq = inbound p.rxAckInterleaved xs ++ w :: tail) :
    ∃ buf : RxFrame, rest p (s.goto (.start j)) =
      rest p (gotWord key (buf.set xs.length w) xs.length (markPresent (clearReceived (clearKey key s))) tail) := by
  rcases eq_or_ne xs [] with rfl | hne
  · exact ⟨.empty, rest_beginReceive hj (by simpa [inbound, exchanged] using hq)⟩
  · obtain ⟨buf, q, hb, hf, hr⟩ := rest_receive_words hj ho hne (Nat.le_succ_of_le hl) hx hq
    have hpos := List.length_pos_iff.mpr hne
    have hlen := frameLen_le o
    have hnext := nextWord_more (p := p) (key := key)
      (s := { markPresent (clearReceived (clearKey key s)) with rxq := w :: tail }) (frame_goes_on ho hb (by omega)) rfl
    rw [Nat.sub_add_cancel hpos] at hnext
    refine ⟨buf, ?_⟩
    rw [hr, rest_gotWord_accepted (wordOk_busWord ho (by omega) (hb _ (Nat.le_refl _))) hf hnext]
    rfl

/-- RDCMD and RDKEY end at a word that fails its check, with that word and those before it taken (R121, R122). -/
theorem rest_receive_failed {j : Job} (hj : j = if key then .rdkey blk else .rdcmd blk) (ho : validOpcode o = true)
    (hl : xs.length ≤ frameLen o) (hx : ∀ i (h : i < xs.length), xs[i].1 = busWord p o d1 d2 i)
    (hbad : wordOk p xs.length w = false) (hq : s.rxq = inbound p.rxAckInterleaved xs ++ w :: tail) :
    rest p (s.goto (.start j)) = raise .framingError (fieldCode xs.length)
      { markPresent (clearReceived (clearKey key s)) with rxq := tail } := by
  obtain ⟨buf, hr⟩ := rest_receive_next_word hj ho hl hx hq
  have hword := word_set_self (buf := buf) w (hl.trans (frameLen_le o))
  rw [hr, rest_gotWord_failed (by rw [hword]; exact hbad)]

/-! ### Nothing pending (R120, R123) -/

/-- A non-blocking RDCMD or RDKEY with RXQ empty tests ChanAvailable and ends (R123). -/
theorem rest_receive_nothing {j : Job} (hj : j = if key then .rdkey false else .rdcmd false) (hq : s.rxq = []) :
    rest p (s.goto (.start j)) = nothingPending key (clearReceived (clearKey key s)) := by
  have htest : engineStep p (s.goto (.start j)) =
      some ((clearReceived (clearKey key s)).goto (.rx key .empty 0 (.avail (chanAvailable s)))) := by
    subst hj
    cases key <;> rfl
  rw [show chanAvailable s = false by simp [chanAvailable, hq]] at htest
  rw [rest_step htest, rest_step (t := nothingPending key (clearReceived (clearKey key s))) (by cases key <;> rfl)]
  exact rest_of_idle rfl

end Reception

/-! ### FLUSHRX (R127) -/

/-- FLUSHRX empties RXQ and ends (R127). -/
theorem rest_flushrx : rest p (s.goto (.start .flushrx)) = finish { s with rxq := [] } := by
  rw [rest_step (t := flushTest s) rfl]
  exact rest_flushTest p s.rxq s rfl

/-! ### The classification of a frame (R124, R126) -/

section Keypress

variable {o d1 d2 : Byte}

/-- Opcodes that differ in KP differ as payloads. -/
theorem kpOpcode_ne {a b : BitVec 4} (h : a ≠ b) : kpOpcode a ≠ kpOpcode b := by
  intro heq
  have hnat := congrArg BitVec.toNat heq
  simp only [kpOpcode, BitVec.toNat_setWidth] at hnat
  exact h (BitVec.eq_of_toNat_eq (by omega))

/-- The three opcodes of KP are pairwise distinct (R6). -/
theorem kpOpcodes_distinct (p : Params) :
    kpOpcode p.kp.opcType ≠ kpOpcode p.kp.opcPlaten ∧ kpOpcode p.kp.opcType ≠ kpOpcode p.kp.opcCarriage ∧
      kpOpcode p.kp.opcPlaten ≠ kpOpcode p.kp.opcCarriage := by
  have hok := p.kpOk
  simp only [KeypressMap.ok, Bool.and_eq_true, bne_iff_ne] at hok
  obtain ⟨⟨⟨⟨⟨⟨⟨⟨-, htp⟩, htc⟩, hpc⟩, -⟩, -⟩, -⟩, -⟩, -⟩ := hok
  exact ⟨kpOpcode_ne htp, kpOpcode_ne htc, kpOpcode_ne hpc⟩

/-- Each data field of KP exists in the frames of its opcode (R6). -/
theorem kpFields_exist (p : Params) :
    p.kp.charField.existsAt (frameLen (kpOpcode p.kp.opcType)) = true ∧
      p.kp.platenUpField.existsAt (frameLen (kpOpcode p.kp.opcPlaten)) = true ∧
      p.kp.carDirField.existsAt (frameLen (kpOpcode p.kp.opcCarriage)) = true := by
  have hok := p.kpOk
  simp only [KeypressMap.ok, Bool.and_eq_true] at hok
  obtain ⟨⟨⟨-, hchar⟩, hplaten⟩, hcarriage⟩ := hok
  exact ⟨hchar, hplaten, hcarriage⟩

/-- A type-and-advance frame is the character of its position (R124). -/
theorem kpClass_type (ho : o = kpOpcode p.kp.opcType) :
    kpClass p o d1 d2 = (.character, revLookup p.rom (dataField p.kp.charField d1 d2)) :=
  if_pos ho

/-- A masked field is set when the bits of the mask are not all 0 (R124). -/
theorem maskedSet_iff {v m : Byte} : maskedSet v m = true ↔ v &&& m ≠ 0 := bne_iff_ne

/-- A platen move is RETURN with the up bit (R124, R126). -/
theorem kpClass_platen (ho : o = kpOpcode p.kp.opcPlaten) :
    kpClass p o d1 d2 =
      if dataField p.kp.platenUpField d1 d2 &&& p.kp.platenUpMask ≠ 0 then (.carriageReturn, 0x0A)
      else (.noKeypress, 0) := by
  obtain ⟨hplaten, -, -⟩ := kpOpcodes_distinct p
  rw [kpClass, if_neg (ho ▸ hplaten.symm), if_pos ho]
  exact if_congr maskedSet_iff rfl rfl

/-- A carriage move is SPACE to the right and BACKSPACE to the left (R124, R126). -/
theorem kpClass_carriage (ho : o = kpOpcode p.kp.opcCarriage) :
    kpClass p o d1 d2 =
      if (dataField p.kp.carDirField d1 d2 &&& p.kp.carDirMask ≠ 0) ↔ p.kp.carRightWhenSet = true then (.space, 0x20)
      else (.backspace, 0x08) := by
  obtain ⟨-, htype, hplaten⟩ := kpOpcodes_distinct p
  rw [kpClass, if_neg (ho ▸ htype.symm), if_neg (ho ▸ hplaten.symm), if_pos ho]
  exact if_congr (Bool.eq_iff_iff.trans (iff_congr maskedSet_iff Iff.rfl)) rfl rfl

/-- A frame of no KP opcode is no keypress (R124, R126). -/
theorem kpClass_other (htype : o ≠ kpOpcode p.kp.opcType) (hplaten : o ≠ kpOpcode p.kp.opcPlaten)
    (hcarriage : o ≠ kpOpcode p.kp.opcCarriage) : kpClass p o d1 d2 = (.noKeypress, 0) := by
  rw [kpClass, if_neg htype, if_neg hplaten, if_neg hcarriage]

/-- A data field that exists in a frame of the opcode holds the frame's data byte (R6, R120). -/
theorem dataField_of_existsAt {f : DataField} (h : f.existsAt (frameLen o) = true) :
    dataField f (if 2 ≤ frameLen o then d1 else 0) (if frameLen o = 3 then d2 else 0) = dataField f d1 d2 := by
  have hlen := frameLen_le o
  cases f with
  | d1 => exact if_pos (of_decide_eq_true h)
  | d2 => exact if_pos (Nat.le_antisymm hlen (of_decide_eq_true h))

/-- The class of a frame is that of its opcode and data bytes: the registers hold every byte KP reads (R6, R124). -/
theorem kpClass_frame (p : Params) (o d1 d2 : Byte) :
    kpClass p o (if 2 ≤ frameLen o then d1 else 0) (if frameLen o = 3 then d2 else 0) = kpClass p o d1 d2 := by
  obtain ⟨hchar, hup, hdir⟩ := kpFields_exist p
  by_cases htype : o = kpOpcode p.kp.opcType
  · rw [kpClass_type htype, kpClass_type htype, dataField_of_existsAt (htype ▸ hchar)]
  by_cases hplaten : o = kpOpcode p.kp.opcPlaten
  · rw [kpClass_platen hplaten, kpClass_platen hplaten, dataField_of_existsAt (hplaten ▸ hup)]
  by_cases hcarriage : o = kpOpcode p.kp.opcCarriage
  · rw [kpClass_carriage hcarriage, kpClass_carriage hcarriage, dataField_of_existsAt (hcarriage ▸ hdir)]
  rw [kpClass_other htype hplaten hcarriage, kpClass_other htype hplaten hcarriage]

/-- RDKEY, undisturbed, with a whole frame to the bus address in RXQ ends with the frame in its registers and its class
in the keypress registers (R120, R125). -/
theorem rdkey_takes_frame {blk : Bool} {xs : List (Word9 × Word9)} {tail : List Word9} (ha : Alone s)
    (ho : validOpcode o = true) (hfst : xs.map Prod.fst = frame Config.params.busAddress o d1 d2)
    (hq : s.rxq = inbound Config.params.rxAckInterleaved xs ++ tail) :
    exec (.rdkey blk) s =
      .next { s with
        rErr := .noError, rField := .fNone, rPresent := true, rOpc := o,
        rD1 := if 2 ≤ frameLen o then d1 else 0, rD2 := if frameLen o = 3 then d2 else 0,
        rLen := BitVec.ofNat 2 (frameLen o), rClass := (kpClass Config.params o d1 d2).1,
        rAscii := (kpClass Config.params o d1 d2).2, rxq := tail } := by
  obtain ⟨buf, hb, hr⟩ := rest_receive_frame (key := true) (blk := blk) rfl ho hfst hq
  rw [frameReceived, if_pos rfl, storeFrame_of_busWords ho hb] at hr
  rw [← kpClass_frame Config.params o d1 d2]
  exact exec_receive_of_rest (key := true) ha hr rfl rfl

end Keypress

end Sys2Proof.Machine
end

section
/-! The statements about RDCMD, RDKEY and FLUSHRX (spec/42_receive.md), settled. -/

namespace Sys2Proof.Machine

open Sys2Proof.Safety

/-- Settles O32: the words of the frame pass their checks, and the last of them completes it. -/
theorem rdcmdTakesOneFrame : Obligations.RdcmdTakesOneFrame := by
  unfold Obligations.RdcmdTakesOneFrame
  intro blk o d1 d2 s xs rest ha ho hfst hq
  exact rdcmd_takes_frame ha ho hfst hq

/-- Settles O33: the reception comes to the word after the accepted ones, whose check ends it. -/
theorem framingErrorsStopTheFrame : Obligations.FramingErrorsStopTheFrame := by
  unfold Obligations.FramingErrorsStopTheFrame
  intro blk o d1 d2 s xs w tail ha ho hl hfst haddr hopc hdata hq
  have hbad : wordOk Config.params xs.length w = false := wordOk_eq_false haddr hopc hdata
  have hrest := fun key => rest_receive_failed (key := key) (blk := blk) rfl ho hl (fst_eq_busWord hfst) hbad hq
  exact ⟨exec_receive_of_rest ha (hrest false) rfl rfl, exec_receive_of_rest ha (hrest true) rfl rfl⟩

/-- Settles O35: RDKEY takes the frame, and its opcode and data bytes decide the class, one case for each opcode of the
keypress map. -/
theorem rdkeyClassifiesTheFrame : Obligations.RdkeyClassifiesTheFrame := by
  unfold Obligations.RdkeyClassifiesTheFrame
  intro blk o d1 d2 s xs tail ha ho hfst hq
  refine ⟨_, rdkey_takes_frame ha ho hfst hq, rfl, fun htype => ?_, fun hplaten => ?_, fun hcarriage => ?_,
    fun htype hplaten hcarriage => ?_⟩
  · rw [kpClass_type htype]
    exact ⟨rfl, fun q hpos => revLookup_of_toNat_eq _ hpos, fun hgt => revLookup_of_gt _ hgt⟩
  · rw [kpClass_platen hplaten]
    split <;> exact ⟨rfl, rfl⟩
  · rw [kpClass_carriage hcarriage]
    split <;> exact ⟨rfl, rfl⟩
  · rw [kpClass_other htype hplaten hcarriage]
    exact ⟨rfl, rfl⟩

/-- Settles O36: FLUSHRX reads until its test finds RXQ empty. -/
theorem flushrxEmptiesTheQueue : Obligations.FlushrxEmptiesTheQueue := by
  unfold Obligations.FlushrxEmptiesTheQueue
  intro s ha
  have hexec : exec .flushrx s = operate Config.params .flushrx s := rfl
  rw [hexec, operate_of_alone ha, rest_flushrx]
  exact congrArg _ (eq_of_eq_with_idle (isIdle_iff.mp ha.1) rfl)

/-- Settles O31: the test finds RXQ empty, which ends the operation. -/
theorem nothingPendingEndsAtOnce : Obligations.NothingPendingEndsAtOnce := by
  unfold Obligations.NothingPendingEndsAtOnce
  intro s ha hq
  have hrest := fun key => rest_receive_nothing (p := Config.params) (key := key) rfl hq
  exact ⟨exec_receive_of_rest ha (hrest false) rfl rfl, exec_receive_of_rest ha (hrest true) rfl rfl⟩

end Sys2Proof.Machine
end

section
/-! SUPPORT. SETKBD and A2P as undisturbed runs, each its one engine step, and the round trip in the translation ROM
(spec/43_translate.md). -/

namespace Sys2Proof.Machine

open Sys2Proof.Safety

variable {p : Params} {s : State}

/-- SETKBD, undisturbed, ends in its one engine step with the layout in KBD (R13, R140). -/
theorem operate_setkbd_of_alone (layout : Bool) (h : Alone s) :
    operate p (.setkbd layout) s = .next { s with rErr := .noError, rField := .fNone, kbd := layoutOf layout } := by
  rw [operate_of_alone_of_ends h (t := setKbd layout s) rfl rfl]
  exact congrArg _ (eq_of_eq_with_idle (isIdle_iff.mp h.1) rfl)

/-- A2P, undisturbed, ends in its one engine step with the forward lookup under KBD in R_POS (R13, R141). -/
theorem operate_a2p_of_alone (c : Byte) (h : Alone s) :
    operate p (.a2p c) s =
      .next { s with rErr := .noError, rField := .fNone, rPos := fwdLookup p.rom s.kbd c } := by
  rw [operate_of_alone_of_ends h (t := asciiToPos p c s) rfl rfl]
  exact congrArg _ (eq_of_eq_with_idle (isIdle_iff.mp h.1) rfl)

/-- P2A ends IDLE and takes no turn, so the operation after it runs undisturbed too. -/
theorem alone_posToAscii (pos : Byte) (h : Alone s) : Alone (posToAscii p pos s) := ⟨rfl, h.2⟩

/-- The US forward table undoes the reverse lookup at each position from 0x01 that is no duplicate-mapping case
(R7 (d)). -/
theorem fwdLookup_us_revLookup (p : Params) {pos : Byte} {q : Fin 97} (hpos : pos.toNat = q) (hq : q ≠ 0)
    (hdup : ¬ p.rom.duplicate q) : (fwdLookup p.rom .us (revLookup p.rom pos)).toNat = q := by
  rw [revLookup_of_toNat_eq _ hpos]
  exact p.romRoundTrips q hq hdup

end Sys2Proof.Machine
end

section
/-! The statements about SETKBD, A2P and P2A (spec/43_translate.md), settled. -/

namespace Sys2Proof.Machine

open Sys2Proof.Safety

/-- Settles O41: P2A leaves the REV entry of q in R_ASCII and KBD as it was, and the US table takes that entry back to
q (R7 (d)). -/
theorem positionsRoundTrip : Obligations.PositionsRoundTrip := by
  unfold Obligations.PositionsRoundTrip
  intro p q s ha hkbd hq hdup
  have hpos : (BitVec.ofNat 8 q).toNat = q := by
    rw [BitVec.toNat_ofNat]
    omega
  refine ⟨_, _, operate_p2a_of_alone _ ha, operate_a2p_of_alone _ (alone_posToAscii _ ha), ?_⟩
  simp only [posToAscii_kbd, posToAscii_rAscii, hkbd]
  exact fwdLookup_us_revLookup p hpos hq hdup

/-- Settles O38: SETKBD's one step writes the layout of its operand. -/
theorem setkbdSelectsTheLayout : Obligations.SetkbdSelectsTheLayout := by
  unfold Obligations.SetkbdSelectsTheLayout
  intro s ha
  exact ⟨operate_setkbd_of_alone false ha, operate_setkbd_of_alone true ha⟩

/-- Settles O39: A2P's one step looks the character up under KBD, and the ROM holds no forward entry above 0x60
(R7 (a)). -/
theorem a2pReadsTheSelectedTable : Obligations.A2pReadsTheSelectedTable := by
  unfold Obligations.A2pReadsTheSelectedTable
  intro c s ha
  obtain ⟨hus, hascii⟩ := Config.params.romInRange c
  have hrun : ∀ k, s.kbd = k → exec (.a2p c) s =
      .next { s with rErr := .noError, rField := .fNone, rPos := fwdLookup Config.params.rom k c } := by
    rintro _ rfl
    exact operate_a2p_of_alone c ha
  exact ⟨hus, hascii, hrun .us, hrun .ascii⟩

end Sys2Proof.Machine
end
